-- ==== Sys2Proof/Word.lean ====
section
/-! DEFINITION. The two word types of the block (00_scope.md R10, R11): bytes and dwords, all unsigned. -/

namespace Sys2Proof

/-- A byte, `u8` (R11). -/
abbrev Byte := BitVec 8

/-- A dword, `u32` (R11): every register reached by name is 32 bits wide (R10). -/
abbrev Word := BitVec 32

end Sys2Proof
end

