-- ==== Sys2Proof/Machine/Bytes.lean ====
section
/-! DEFINITION. Byte order and bit fields of the block: little-endian everywhere (20_memory.md R70, R71, R73). -/

namespace Sys2Proof

/-- Byte `k` of a dword, `v[8k+7:8k]` (R11, R70). -/
def Word.byte (v : Word) (k : Nat) : Byte := (v >>> (8 * k)).setWidth 8

/-- The dword whose bytes 0 to 3 are these, byte 0 the least significant (R70, R71). -/
def Word.ofBytes (b0 b1 b2 b3 : Byte) : Word := b3 ++ b2 ++ b1 ++ b0

/-- `v` with byte `k` replaced: what a 1-byte access to lane `k` changes (R73, D37). -/
def Word.setByte (v : Word) (k : Nat) (b : Byte) : Word :=
  (v &&& ~~~(0xFF#32 <<< (8 * k))) ||| (b.setWidth 32 <<< (8 * k))

/-- `v` with bit `n` set to `b`. -/
def Word.setBit (v : Word) (n : Nat) (b : Bool) : Word :=
  if b then v ||| (1#32 <<< n) else v &&& ~~~(1#32 <<< n)

/-- `le_bytes(v, n)`: the `n` least significant bytes, byte 0 first (R12). -/
def leBytes (v : Word) (n : Nat) : List Byte := [v.byte 0, v.byte 1, v.byte 2, v.byte 3].take n

/-- Up to four bytes packed little-endian, the omitted lanes 0 (R189, D11). -/
def packLe (bs : List Byte) : Word :=
  Word.ofBytes (bs.getD 0 0) (bs.getD 1 0) (bs.getD 2 0) (bs.getD 3 0)

end Sys2Proof
end

