-- ==== Sys2Proof/Config.lean ====
section
/-! DEFINITION. What an implementation fixes: the constants of 00_scope.md R7, the parameters of R8 and R9 as a record
given at construction (70_reset_and_hazards.md R373), and the free values of the environment
(93_implementation_defined.md, "any value"). The default values of the record stand in Machine/Platform.lean. -/

namespace Sys2Proof

/-! ### Constants the source fixes (R7; unaudited, U1: log entry 30) -/

/-- Width of the flash linear address space (R7). -/
def flaBits : Nat := 27
/-- Size of the flash linear address space in bytes (R7, R42). -/
def flashSize : Nat := 2 ^ 27
/-- Mask of the flash linear address (R7). -/
def flaMask : Word := 0x07FFFFFF#32
/-- Most status samples in the tight poll loop (R7, R155). -/
def pollMax : Nat := 1000
/-- The one fallback sleep in milliseconds (R7, R156). -/
def sleepMs : Nat := 100
/-- Number of data window slots (R7, R21). -/
def windowSlots : Nat := 16
/-- Bytes of one slot (R7). -/
def slotBytes : Nat := 4
/-- Bytes of the data window (R7). -/
def windowBytes : Nat := 64
/-- Read burst for a length of 64 and more (R7, R181). -/
def readBurstMax : Nat := 64
/-- Read burst for a length below 64 (R7, R181). -/
def readBurstMin : Nat := 4
/-- Write burst, always (R7, R188). -/
def writeBurst : Nat := 4
/-- Region count where the layout has no count field (R7, R258). -/
def numRegionsDefault : Nat := 12
/-- Number of protected ranges (R7, R37). -/
def numPr : Nat := 5
/-- Flash components scanned (R7, R217). -/
def numSfdpComponents : Nat := 2
/-- `base = component << 14` (R7, R217). -/
def sfdpComponentShift : Nat := 14
/-- ASCII "SFDP" as a little-endian dword (R7, R71). -/
def sfdpSignature : Word := 0x50444653#32
/-- The version dword's offset from the base (R7, R220). -/
def sfdpVersionOff : Word := 4#32
/-- Section of the first parameter header (R7, R221). -/
def sfdpPhSection : Word := 0x1000#32
/-- Section of the first parameter table (R7, R226). -/
def sfdpPtSection : Word := 0x2000#32
/-- Index advance of each table dword (R7, R226). -/
def sfdpIndexStep : Nat := 4
/-- Byte count of the JedecId cycle (R7, R212). -/
def jedecByteCount : Nat := 4
/-- Flash descriptor signature (R7, R71). -/
def fdSignature : Word := 0x0FF0A55A#32
/-- Offset of the signature inside the descriptor (R7, R253). -/
def fdSigOffset : Nat := 0x10
/-- Size of the descriptor (R7, R254). -/
def fdSize : Nat := 4096
/-- `FD_MAP_OFFSETS`: offsets of the three Descriptor-Map dwords (R7, R255). -/
def fdMapOffset0 : Nat := 0x14
@[inherit_doc fdMapOffset0] def fdMapOffset1 : Nat := 0x18
@[inherit_doc fdMapOffset0] def fdMapOffset2 : Nat := 0x1C
/-- Offset of the upper map dword (R7, R265). -/
def fdUpperMapOffset : Nat := 0xEFC
/-- Offset of the vendor data (R7, R266). -/
def fdOemOffset : Nat := 0xF00
/-- Shift of a stored map base (R7, R256). -/
def mapBaseShift : Nat := 4
/-- Shift of a stored region or range bound (R7, R76). -/
def rangeShift : Nat := 12

/-! ### Layouts (R8) -/

/-- Position of a field inside a register or dword: `raw[lsb + width - 1 : lsb]` (20_memory.md R87). -/
structure BitField where
  lsb : Nat
  width : Nat
  deriving DecidableEq, Repr, Inhabited

/-- `STS_LAYOUT`: bit positions in `HSQ_STS` (R33, R115, D3). -/
structure StsLayout where
  fdone : Nat
  fcerr : Nat
  ael : Nat
  scip : Nat
  fdv : Nat
  deriving DecidableEq, Repr, Inhabited

/-- `CTL_LAYOUT`: the go bit, the two fields of `HSQ_CTL` and the byte that step 2 writes (R32, R113, D4, D5, C3). -/
structure CtlLayout where
  fgo : Nat
  fcycle : BitField
  fdbc : BitField
  dbcByte : Nat
  deriving DecidableEq, Repr, Inhabited

/-- The five hardware cycle kinds (R2, R50): a closed enumeration. -/
inductive CycleKind where
  | read
  | write
  | erase
  | jedecId
  | sfdp
  deriving DecidableEq, Repr, Inhabited

/-- `CYCLE_CODE(kind)`: the number written to the cycle-type field (R114, D4). -/
structure CycleCodes where
  read : Nat
  write : Nat
  erase : Nat
  jedecId : Nat
  sfdp : Nat
  deriving DecidableEq, Repr, Inhabited

/-- `FIELD_LAYOUT` (R8, R39): every field of the descriptor dwords (R121 to R124), of `FREG` (R122), `PR` (R125) and
`BIOS_CTL` (R126). The three `BIOS_CTL` fields are single bits. -/
structure FieldLayout where
  fcba : BitField
  nc : BitField
  frba : BitField
  nr : BitField
  fmba : BitField
  nm : BitField
  fpsba : BitField
  psl : BitField
  fmsba : BitField
  msl : BitField
  flregRb : BitField
  flregRl : BitField
  mrra : BitField
  mrwa : BitField
  vtba : BitField
  vtl : BitField
  fregRb : BitField
  fregRl : BitField
  prb : BitField
  rpe : BitField
  prl : BitField
  wpe : BitField
  we : Nat
  le : Nat
  smmWp : Nat
  deriving DecidableEq, Repr, Inhabited

/-- `COUNT_BIAS`: what is added to a stored count (R257, D23). -/
structure CountBias where
  nc : Nat
  nr : Nat
  nm : Nat
  deriving DecidableEq, Repr, Inhabited

/-- `SFDP_PH_LAYOUT` (R119, D17): the fields of a parameter header dword pair `(d1, d2)`, and the slot
`slotBase + slotStride * h` that holds `d1` of header `h` (its `d2` is in the next slot). -/
structure SfdpPhLayout where
  idLow : BitField
  minor : BitField
  major : BitField
  length : BitField
  pointer : BitField
  idHigh : BitField
  slotBase : Nat
  slotStride : Nat
  deriving DecidableEq, Repr, Inhabited

/-- Width of the status clear write, `STS_WRITE_WIDTH` (R158, D6). -/
inductive StsWriteWidth where
  | one
  | four
  deriving DecidableEq, Repr, Inhabited

/-- The controller registers of 10_state.md R30, by symbolic name (D1). The descriptor layout names of R39 are no registers. -/
inductive Reg where
  | addr
  | ctl
  | sts
  | data (i : Fin 16)
  | ptidx
  | ptdata
  | freg (i : Fin 12)
  | pr (i : Fin 5)
  | biosCtl
  deriving DecidableEq, Repr, Inhabited

/-- The configuration record: every parameter of R8, and the two capability answers of R9. It is "an explicit
configuration value passed to the engine at construction" (R373), held in State and never changed. -/
structure Config where
  /-- `REG_OFFSET(name)`: the offset of each register that the platform gives one (R8, D2; log entry 25). -/
  regOffset : List (Reg × Nat)
  sts : StsLayout
  ctl : CtlLayout
  codes : CycleCodes
  fields : FieldLayout
  bias : CountBias
  sfdpPh : SfdpPhLayout
  /-- `register_has_field(HSQ_CTL, FCYCLE)` (R9). -/
  hasCycleTypeField : Bool
  /-- `register_has_field(FLMAP0, NR)` (R9). -/
  hasRegionCountField : Bool
  stsWriteWidth : StsWriteWidth
  /-- `ERASE_BLOCK_BYTES` (R166, D13). -/
  eraseBlockBytes : Nat
  /-- `SFDP_CYCLE_FLA` (R223, D16). -/
  sfdpCycleFla : Word
  /-- `SFDP_CYCLE_COUNT` (R223, D16). -/
  sfdpCycleCount : Nat
  deriving DecidableEq, Repr, Inhabited

/-! ### Free values of the environment -/

/-- What a cycle does to flash and to the window when it ends (U5, U7, U8, and R383: no statement "Ok implies the cycle
succeeded" may be provable). `performed`: the contract of 10_state.md R48 holds. `departs`: any bytes of what a cycle of its kind
writes may have changed, to the listed values: of flash for a Write or Erase cycle, of the window for one that fills it
(log entry 10). -/
inductive CycleEffect where
  | performed
  | departs (cells : List Host.Cell) (window : List Byte)
  deriving DecidableEq, Repr, Inhabited

/-- The environment's draws for one cycle the controller accepts (R46, R48; U2, U5 to U10). -/
structure CycleDraw where
  /-- How many status samples still see `SCIP = 1`; `none` is "never clears" (R46, U10; log entry 6). -/
  delay : Option Nat
  /-- If the poll budget runs out first: whether the controller still ends the cycle before the engine next writes a
  sequencing register (R382; log entry 7). -/
  drains : Bool
  /-- Whether the cycle sets `FCERR` when it ends (R46; log entry 9). -/
  fcerr : Bool
  /-- Whether the cycle sets `AEL` when it ends (R46; log entry 9). -/
  ael : Bool
  /-- What `FCERR` reads after the clear write of step 5 (U9; log entry 9). -/
  fcerrAfterClear : Bool
  /-- What `AEL` reads after the clear write of step 5 (U9; log entry 9). -/
  aelAfterClear : Bool
  effect : CycleEffect
  /-- Window bytes above the byte count: the byte at a listed position, unchanged beyond the list (U2, R48; log entry 12). -/
  residue : List Byte
  /-- Contents of the erased block by offset, `erasedFill` beyond the list (U6; log entry 13). -/
  erased : List Byte
  erasedFill : Byte
  /-- Whether an Sfdp cycle returns component 1's area (U8, N11; log entry 10). -/
  secondComponent : Bool
  deriving DecidableEq, Repr, Inhabited

/-- FREE VALUE: the draws of the `n`-th draw of a run where State lists none in advance (R46; log entry 6). -/
opaque Config.freeCycleDraw : Nat → CycleDraw

/-- FREE VALUE: what `BIOS_CTL.WE` reads at the `n`-th draw of a run, after the engine's first access to the register
(R49, R388, U12; log entry 14). -/
opaque Config.freeWe : Nat → Bool

end Sys2Proof
end

