-- ==== Sys2Proof/Syntax.lean ====
section
/-! DEFINITION. The operations of the block, one constructor for each row of `opcode_table.json` (30_encoding.md R131), and
the commands the host presents (R132, R133). -/

namespace Sys2Proof

/-- The five cycle kinds as primitive operations and the nine host operations (R131). -/
inductive Instr where
  /-- `CYCLE.READ fla, dbc` (R164). -/
  | cycleRead (fla : Word) (dbc : Byte)
  /-- `CYCLE.WRITE fla, dbc` (R165). -/
  | cycleWrite (fla : Word) (dbc : Byte)
  /-- `CYCLE.ERASE fla` (R166): the byte count field is not an operand. -/
  | cycleErase (fla : Word)
  /-- `CYCLE.SFDP fla, dbc` (R168). -/
  | cycleSfdp (fla : Word) (dbc : Byte)
  /-- `CYCLE.JEDECID fla, dbc` (R167). -/
  | cycleJedecid (fla : Word) (dbc : Byte)
  /-- `READ address, length` (R187). -/
  | read (address length : Word)
  /-- `WRITE address, bytes` (R191): the payload is an operand. -/
  | write (address : Word) (bytes : List Byte)
  /-- `ERASE address` (R192). -/
  | erase (address : Word)
  /-- `READ_JEDEC_ID` (R210). -/
  | readJedecId
  /-- `DISCOVER_SFDP` (R229). -/
  | discoverSfdp
  /-- `PARSE image` (R270): the image is an operand. -/
  | parse (image : List Byte)
  /-- `READ_REGION id` (R301). -/
  | readRegion (id : Byte)
  /-- `READ_PROTECTED_RANGE index` (R303). -/
  | readProtectedRange (index : Byte)
  /-- `DISABLE_BIOS_WP` (R310). -/
  | disableBiosWp
  deriving DecidableEq, Repr, Inhabited

/-- What the host presents (R132, R133). `frame`: the words of a `HOST` frame and the payload beside it. `cycle`: the register
image of a primitive cycle, `HSQ_CTL` byte 0, `HSQ_CTL` byte 1, then `HSQ_ADDR` little-endian (R112, R113; `execute_cycle`
"is typically not exposed directly", log entry 16). -/
inductive Command where
  | frame (words : List Word) (payload : List Byte)
  | cycle (image : List Byte)
  deriving DecidableEq, Repr, Inhabited

end Sys2Proof
end

