-- ==== Sys2Proof/WellFormed.lean ====
section
/-! DEFINITION. Which operations the block admits (30_encoding.md R136), and which configurations are consistent. -/

namespace Sys2Proof

/-- The operands the block admits (R136): a byte count of at most 64 for a cycle that carries one, a region id of at most 11,
a range index of at most 4, and a payload whose length fits the frame's 32 bit length word (R132). -/
def Instr.wellFormed : Instr → Bool
  | .cycleRead _ dbc => dbc.toNat ≤ 63
  | .cycleWrite _ dbc => dbc.toNat ≤ 63
  | .cycleErase _ => true
  | .cycleSfdp _ dbc => dbc.toNat ≤ 63
  | .cycleJedecid _ dbc => dbc.toNat ≤ 63
  | .read _ _ => true
  | .write _ bytes => bytes.length < 2 ^ 32
  | .erase _ => true
  | .readJedecId => true
  | .discoverSfdp => true
  | .parse image => image.length < 2 ^ 32
  | .readRegion id => id.toNat ≤ 11
  | .readProtectedRange index => index.toNat ≤ 4
  | .disableBiosWp => true

/-- The status positions are five different bits, the clear write reaches the three it clears (R33, R158). -/
def StsLayout.wellFormed (l : StsLayout) (w : StsWriteWidth) : Bool :=
  decide (l.fdone < 32 ∧ l.fcerr < 32 ∧ l.ael < 32 ∧ l.scip < 32 ∧ l.fdv < 32) &&
  decide ([l.fdone, l.fcerr, l.ael, l.scip, l.fdv].Nodup) &&
  (w == .four || decide (l.fdone < 8 ∧ l.fcerr < 8 ∧ l.ael < 8))

/-- The go bit and the cycle-type field lie in byte 0 without overlap and hold every code, the codes differ, and the byte
count field is the low 6 bits or more of the byte that step 2 writes, which is not byte 0 (R32, R113, R114, R154). -/
def CtlLayout.wellFormed (l : CtlLayout) (codes : CycleCodes) : Bool :=
  decide (l.fgo < 8 ∧ l.fcycle.lsb + l.fcycle.width ≤ 8) &&
  decide (l.fgo < l.fcycle.lsb ∨ l.fcycle.lsb + l.fcycle.width ≤ l.fgo) &&
  decide ([codes.read, codes.write, codes.erase, codes.jedecId, codes.sfdp].Nodup) &&
  [codes.read, codes.write, codes.erase, codes.jedecId, codes.sfdp].all (fun c => decide (c < 2 ^ l.fcycle.width)) &&
  decide (1 ≤ l.dbcByte ∧ l.dbcByte < 4 ∧ l.fdbc.lsb = 8 * l.dbcByte ∧ 6 ≤ l.fdbc.width ∧ l.fdbc.width ≤ 8)

/-- The three `BIOS_CTL` bits are different bits of the register (R38, R126). -/
def FieldLayout.biosWellFormed (l : FieldLayout) : Bool :=
  decide (l.we < 32 ∧ l.le < 32 ∧ l.smmWp < 32) && decide ([l.we, l.le, l.smmWp].Nodup)

/-- A consistent configuration: register and controller agree on what each written bit means. The default configuration of
92_eei_decisions.md is one; statements that need it say so (R8). -/
def Config.wellFormed (c : Config) : Bool :=
  c.sts.wellFormed c.stsWriteWidth && c.ctl.wellFormed c.codes && c.fields.biosWellFormed &&
  decide (0 < c.eraseBlockBytes ∧ 1 ≤ c.sfdpCycleCount ∧ c.sfdpCycleCount ≤ 64)

end Sys2Proof
end

