-- ==== Sys2Proof/Decode.lean ====
section
/-! DEFINITION. The decoder of the commands the host presents (30_encoding.md R132, R133, R136), total and refusing by name,
and the encoder. Every refusal becomes the engine's `IllegalCommand` (60_exceptions.md R340). -/

namespace Sys2Proof

/-- Why a command is no operation of the block (R136). -/
inductive DecodeError where
  /-- A frame is not three words (R132). -/
  | frameLength
  /-- Nonzero reserved bits `[31:16]` of word 0. -/
  | reservedBits
  /-- `op` outside `0x01..0x09`. -/
  | unknownOp
  /-- Nonzero `arg` where the operation has none. -/
  | unusedArg
  /-- Nonzero `address` where the operation has none. -/
  | unusedAddress
  /-- Nonzero `length` where the operation has none. -/
  | unusedLength
  /-- The payload does not have the length the frame states (R133; log entry 17). -/
  | payloadLength
  /-- `READ_REGION` with `arg > 11`. -/
  | regionId
  /-- `READ_PROTECTED_RANGE` with `arg > 4`. -/
  | rangeIndex
  /-- A cycle image is not six bytes (log entry 16). -/
  | imageLength
  /-- A byte that is none of the five `cyc_byte` values of R114. -/
  | unknownCycle
  /-- A byte count field above 63 in a cycle that carries one. -/
  | byteCount
  deriving DecidableEq, Repr, Inhabited

/-- The frame's operands that the operation does not have must be 0 (R136). -/
def checkUnused (arg : Byte) (address length : Word) (i : Instr) : Except DecodeError Instr :=
  if arg ≠ 0 then .error .unusedArg
  else if address ≠ 0 then .error .unusedAddress
  else if length ≠ 0 then .error .unusedLength
  else .ok i

/-- The payload has exactly the stated length (R133). -/
def checkPayload (length : Word) (payload : List Byte) (i : Instr) : Except DecodeError Instr :=
  if payload.length ≠ length.toNat then .error .payloadLength else .ok i

/-- A `HOST` frame of three words (R132): `op` in `w0[7:0]`, `arg` in `w0[15:8]`, `w0[31:16]` reserved. -/
def decodeFrame (w0 address length : Word) (payload : List Byte) : Except DecodeError Instr :=
  let arg := w0.byte 1
  if w0 >>> 16 ≠ 0 then .error .reservedBits
  else match (w0.byte 0).toNat with
    | 0x01 => (checkUnused arg 0 0 (.read address length)).bind (checkPayload 0 payload)
    | 0x02 => (checkUnused arg 0 0 (.write address payload)).bind (checkPayload length payload)
    | 0x03 => (checkUnused arg 0 length (.erase address)).bind (checkPayload 0 payload)
    | 0x04 => (checkUnused arg address length .readJedecId).bind (checkPayload 0 payload)
    | 0x05 => (checkUnused arg address length .discoverSfdp).bind (checkPayload 0 payload)
    | 0x06 => (checkUnused arg address 0 (.parse payload)).bind (checkPayload length payload)
    | 0x07 =>
      if 11 < arg.toNat then .error .regionId
      else (checkUnused 0 address length (.readRegion arg)).bind (checkPayload 0 payload)
    | 0x08 =>
      if 4 < arg.toNat then .error .rangeIndex
      else (checkUnused 0 address length (.readProtectedRange arg)).bind (checkPayload 0 payload)
    | 0x09 => (checkUnused arg address length .disableBiosWp).bind (checkPayload 0 payload)
    | _ => .error .unknownOp

/-- The byte count of a cycle that carries one is at most 63 (R111, R136). -/
def checkByteCount (dbc : Byte) (i : Instr) : Except DecodeError Instr :=
  if 63 < dbc.toNat then .error .byteCount else .ok i

/-- A cycle image (R112 to R114): the `cyc_byte` of the table's rows, the byte count, the address. An Erase cycle's byte count
is ignored (R166). -/
def decodeCycle (cyc dbc : Byte) (fla : Word) : Except DecodeError Instr :=
  match cyc.toNat with
  | 0x01 => checkByteCount dbc (.cycleRead fla dbc)
  | 0x05 => checkByteCount dbc (.cycleWrite fla dbc)
  | 0x07 => .ok (.cycleErase fla)
  | 0x0B => checkByteCount dbc (.cycleSfdp fla dbc)
  | 0x0D => checkByteCount dbc (.cycleJedecid fla dbc)
  | _ => .error .unknownCycle

/-- The decoder: total on every command, refusing by name. -/
def decode : Command → Except DecodeError Instr
  | .frame [w0, w1, w2] payload => decodeFrame w0 w1 w2 payload
  | .frame _ _ => .error .frameLength
  | .cycle [c, d, a0, a1, a2, a3] => decodeCycle c d (Word.ofBytes a0 a1 a2 a3)
  | .cycle _ => .error .imageLength

/-- The image of a cycle (R112, R113). -/
def cycleImage (cyc dbc : Byte) (fla : Word) : Command :=
  .cycle [cyc, dbc, fla.byte 0, fla.byte 1, fla.byte 2, fla.byte 3]

/-- The encoder, from the same tables (R114, R132). -/
def encode : Instr → Command
  | .cycleRead fla dbc => cycleImage 0x01 dbc fla
  | .cycleWrite fla dbc => cycleImage 0x05 dbc fla
  | .cycleErase fla => cycleImage 0x07 0 fla
  | .cycleSfdp fla dbc => cycleImage 0x0B dbc fla
  | .cycleJedecid fla dbc => cycleImage 0x0D dbc fla
  | .read address length => .frame [0x01, address, length] []
  | .write address bytes => .frame [0x02, address, BitVec.ofNat 32 bytes.length] bytes
  | .erase address => .frame [0x03, address, 0] []
  | .readJedecId => .frame [0x04, 0, 0] []
  | .discoverSfdp => .frame [0x05, 0, 0] []
  | .parse image => .frame [0x06, 0, BitVec.ofNat 32 image.length] image
  | .readRegion id => .frame [0x07 ||| (id.setWidth 32 <<< 8), 0, 0] []
  | .readProtectedRange index => .frame [0x08 ||| (index.setWidth 32 <<< 8), 0, 0] []
  | .disableBiosWp => .frame [0x09, 0, 0] []

/-- Whether a frame's operation has a payload (R132: `WRITE` and `PARSE`). -/
def hasPayload (w0 : Word) : Bool := w0.byte 0 == 0x02 || w0.byte 0 == 0x06

/-- The command whose bits are `w`, numbered as `opcode_table.json` numbers them: a row of at most 8 bits is the first byte of a
cycle image, a longer one a frame of three words. Bits above `nbits` are 0, and so are the bytes of a payload. -/
def commandOfWord (nbits w : Nat) : Command :=
  let v := w % 2 ^ nbits
  let b (k : Nat) : Byte := BitVec.ofNat 8 (v >>> (8 * k))
  let d (k : Nat) : Word := BitVec.ofNat 32 (v >>> (32 * k))
  if nbits ≤ 8 then .cycle [b 0, b 1, b 2, b 3, b 4, b 5]
  else .frame [d 0, d 1, d 2] (if hasPayload (d 0) then List.replicate (d 2).toNat 0 else [])

/-- The instruction the decoder reads from a table word (the host's question to the decoder). -/
def decodeTableWord (nbits w : Nat) : Option Instr :=
  (decode (commandOfWord nbits w)).toOption

end Sys2Proof
end

