-- ==== Sys2Proof/Machine/Platform.lean ====
section
/-! DEFINITION. The default configuration: the defaults of 92_eei_decisions.md. The positions, codes and biases are the spec's
general knowledge (93_implementation_defined.md G1 to G8; PRESUMED, log entry 5); the two capability answers, which the spec
leaves open, are those of the start states of 95_test_vectors.md (DESIGN CHOICE, log entry 4); no register offset is given,
since D2 has no default (log entry 25). -/

namespace Sys2Proof.Machine

/-- `STS_LAYOUT` default (R33, R115, D3). -/
def defaultSts : StsLayout := { fdone := 0, fcerr := 1, ael := 2, scip := 5, fdv := 14 }

/-- `CTL_LAYOUT` default (R32, R113, D4, D5). -/
def defaultCtl : CtlLayout := { fgo := 0, fcycle := ⟨1, 4⟩, fdbc := ⟨8, 6⟩, dbcByte := 1 }

/-- `CYCLE_CODE` default (R114, D4). -/
def defaultCodes : CycleCodes := { read := 0, write := 2, erase := 3, jedecId := 6, sfdp := 5 }

/-- `FIELD_LAYOUT` default (R121 to R126, D22, D28, D29). -/
def defaultFields : FieldLayout :=
  { fcba := ⟨0, 8⟩, nc := ⟨8, 2⟩, frba := ⟨16, 8⟩, nr := ⟨24, 3⟩
    fmba := ⟨0, 8⟩, nm := ⟨8, 3⟩, fpsba := ⟨16, 8⟩, psl := ⟨24, 8⟩
    fmsba := ⟨0, 8⟩, msl := ⟨8, 8⟩
    flregRb := ⟨0, 15⟩, flregRl := ⟨16, 15⟩
    mrra := ⟨8, 12⟩, mrwa := ⟨20, 12⟩
    vtba := ⟨0, 8⟩, vtl := ⟨8, 8⟩
    fregRb := ⟨0, 15⟩, fregRl := ⟨16, 15⟩
    prb := ⟨0, 15⟩, rpe := ⟨15, 1⟩, prl := ⟨16, 15⟩, wpe := ⟨31, 1⟩
    we := 0, le := 1, smmWp := 5 }

/-- `COUNT_BIAS` default (R257, D23). -/
def defaultBias : CountBias := { nc := 1, nr := 1, nm := 0 }

/-- `SFDP_PH_LAYOUT` default (R119, R224, D17). -/
def defaultSfdpPh : SfdpPhLayout :=
  { idLow := ⟨0, 8⟩, minor := ⟨8, 8⟩, major := ⟨16, 8⟩, length := ⟨24, 8⟩, pointer := ⟨0, 24⟩, idHigh := ⟨24, 8⟩
    slotBase := 2, slotStride := 2 }

/-- The configuration State holds at reset. -/
def defaultConfig : Config :=
  { regOffset := [], sts := defaultSts, ctl := defaultCtl, codes := defaultCodes, fields := defaultFields, bias := defaultBias
    sfdpPh := defaultSfdpPh, hasCycleTypeField := true, hasRegionCountField := false, stsWriteWidth := .one
    eraseBlockBytes := 4096, sfdpCycleFla := 0, sfdpCycleCount := 64 }

end Sys2Proof.Machine
end

