-- ==== Sys2Proof/Machine/State.lean ====
section
/-! DEFINITION. The machine's state as plain data, all of it (10_state.md R20): the engine's latches, the controller's
registers and in-flight cycle, the environment behind it, the host port, and the configuration given at construction. -/

namespace Sys2Proof.Machine

/-- Why a step stops. -/
inductive Fault where
  /-- The engine writes `HSQ_ADDR`, `HSQ_CTL` or `HSQ_DATA` while an earlier cycle is still in flight: "what the controller
  does then is not in any source; a model treats a go write while the model's controller is busy as a fault" (R45, R375, R382,
  U3; N10 for the address and the window). Raised by `regWrite` and `regWrite8`. Safe: nothing is claimed of such a run. -/
  | cycleInFlight
  deriving DecidableEq, Repr

/-- Why a step has no meaning. -/
inductive Refusal where
  /-- The instruction has no meaning yet: raised by `exec`'s arms only. Safe. -/
  | notModelled (mnemonic : String)
  deriving DecidableEq, Repr

/-- The sequencer phase register's values (R23, D47). -/
inductive Phase where
  | idle
  | check
  | addr
  | dbc
  | go
  | poll
  | sleep
  | late
  | clear
  | verify
  deriving DecidableEq, Repr

/-- The session latch (R28): the three session modes of R350. -/
inductive Session where
  | unchecked
  | enabled
  | fatal
  deriving DecidableEq, Repr

/-- `FlashCycleCommand` (R50, R111). -/
structure CycleCommand where
  kind : CycleKind
  fla : Word
  dbc : Byte
  deriving DecidableEq, Repr

/-- The complete set of typed errors (60_exceptions.md R330). -/
inductive OpError where
  | hardwareSequencingDisabled
  | cycleTimeout
  | cycleError (accessError flashCycleError : Bool)
  | unsupportedJedecCycle
  | dataWindowExhausted
  | signatureNotFound
  | truncatedImage
  | protectionStateUnverified (lockEnable smmWp : Bool)
  | malformedDescriptor
  | illegalCommand
  deriving DecidableEq, Repr

/-! ### Value types the operations return (R50 to R57) -/

/-- `FlashRegion` (R52). -/
structure FlashRegion where
  id : Nat
  base : Word
  limit : Word
  rawRegister : Word
  deriving DecidableEq, Repr

/-- `ProtectedRange` (R53). -/
structure ProtectedRange where
  index : Nat
  base : Word
  limit : Word
  writeProtectEnabled : Bool
  readProtectEnabled : Bool
  rawRegister : Word
  deriving DecidableEq, Repr

/-- `JedecId` (R56). -/
structure JedecId where
  manufacturerCode : BitVec 8
  deviceCode : BitVec 16
  deriving DecidableEq, Repr

/-- `SfdpParameterHeader` (R55): the first header has no table pointer (C6, D19). -/
structure SfdpParameterHeader where
  id : Word
  majorVersion : Byte
  minorVersion : Byte
  lengthDwords : Byte
  tablePointer : Option Word
  deriving DecidableEq, Repr

/-- `SfdpComponent` (R227). -/
structure SfdpComponent where
  sfdpMinor : Byte
  sfdpMajor : Byte
  numHeaders : Nat
  headers : List SfdpParameterHeader
  table : List Word
  deriving DecidableEq, Repr

/-- One entry's value of the master access table (R264). -/
structure MasterAccess where
  read : Bool
  write : Bool
  deriving DecidableEq, Repr

/-- Non-error diagnostics (R258, R355). -/
inductive Diagnostic where
  | zeroRegionCount
  deriving DecidableEq, Repr

/-- `FlashDescriptor` (R54; C7). `masterAccess` maps `(region, master)` to its access. -/
structure FlashDescriptor where
  signature : Word
  descriptorOffset : Nat
  componentBase : Word
  regionBase : Word
  masterBase : Word
  numComponents : Word
  numRegions : Word
  numMasters : Word
  pchStrapBase : Word
  pchStrapLength : Word
  cpuStrapBase : Word
  cpuStrapLength : Word
  componentDwords : List Word
  regions : List FlashRegion
  masterAccess : List ((Nat × Nat) × MasterAccess)
  vsccTableBase : Word
  vsccTableLength : Word
  oem : List Byte
  diagnostics : List Diagnostic
  deriving DecidableEq, Repr

/-- The value of a successful operation (R134). -/
inductive Value where
  | nothing
  | bytes (bs : List Byte)
  | jedec (id : JedecId)
  | sfdp (components : List (Nat × Option SfdpComponent))
  | descriptor (d : FlashDescriptor)
  | region (g : FlashRegion)
  | range (p : ProtectedRange)
  | bool (b : Bool)
  deriving DecidableEq, Repr

/-- The one result of an operation (R13, R134). -/
inductive OpResult where
  | ok (v : Value)
  | err (e : OpError)
  deriving DecidableEq, Repr

/-- One Register Port access or the one suspension (R12, R95): the entries of an access trace. -/
inductive Event where
  /-- `RegRead(name)` and the value it returned. -/
  | read (name : Reg) (value : Word)
  /-- `RegWrite(name, value)`. -/
  | write (name : Reg) (value : Word)
  /-- `RegWrite8(name, k, b)`. -/
  | write8 (name : Reg) (k : Nat) (b : Byte)
  /-- `Sleep(ms)`. -/
  | sleep (ms : Nat)
  deriving DecidableEq, Repr

/-- Engine state (R21 to R29). -/
structure Engine where
  pc : Phase
  busy : Bool
  session : Session
  /-- `poll_count` (R24). -/
  pollCount : Nat
  /-- `i`, the burst index (R24). -/
  burstIndex : Nat
  component : Nat
  /-- `h`, the header index (R24). -/
  header : Nat
  failed : Bool
  errFirst : Option OpError
  cmd : CycleCommand
  opAddr : Word
  opLen : Nat
  burst : Nat
  n : Nat
  r : Nat
  buf : List Byte
  stsSample : Word
  deriving DecidableEq, Repr

/-- The in-flight cycle slot (R45): what the go write latched, and how many status samples still see it. `kind` is `none` for
a cycle-type code that is none of the five (R114: "what the controller does with them is not this block's concern"). -/
structure InFlight where
  kind : Option CycleKind
  addr : BitVec 27
  count : Nat
  remaining : Option Nat
  draw : CycleDraw
  deriving DecidableEq, Repr

/-- The controller (R30 to R38, R45 to R49). `sts` holds every bit of `HSQ_STS` but SCIP, which is 1 exactly while a cycle is
in flight (R45; log entry 28). The last three fields are the model's own: what the last ended cycle leaves in the error bits
after the clear write (log entry 9), and whether the engine has accessed `BIOS_CTL` before (log entry 14). -/
structure Controller where
  addr : Word
  ctl : Word
  sts : Word
  window : Vector Word 16
  ptidx : Word
  freg : Vector Word 12
  pr : Vector Word 5
  biosCtl : Word
  inflight : Option InFlight
  aelAfterClear : Bool
  fcerrAfterClear : Bool
  biosWeOpen : Bool
  deriving DecidableEq, Repr

/-- A byte-addressed memory in canonical form: addresses strictly rising, no entry equal to what an unlisted address reads as
(`blankByte`). -/
abbrev Memory := List Host.Cell

/-- What an address nothing is listed for reads as: the flash of the start states of 95_test_vectors.md, "flash all `0xFF`"
(DESIGN CHOICE, unsafe: log entry 3). -/
def blankByte : Byte := 0xFF

/-- The environment (R20 class c, R42, R43, R60), and the draws it makes (log entries 6, 14). -/
structure Environment where
  flash : Memory
  sfdpIndex : Memory
  sfdpArea0 : Memory
  sfdpArea1 : Memory
  jedecRaw : Word
  cycleDraws : List CycleDraw
  weDraws : List Bool
  drawCount : Nat
  deriving DecidableEq, Repr

/-- The host port (R132 to R135): what the host presents next, the last result delivered, and the access trace of the last
operation (R95). -/
structure HostPort where
  pending : List Command
  result : Option OpResult
  trace : List Event
  deriving DecidableEq, Repr

/-- The whole machine. -/
structure State where
  cfg : Config
  eng : Engine
  ctl : Controller
  env : Environment
  host : HostPort
  deriving DecidableEq, Repr

/-- The engine at rest, with the latches of R22 at their resting values (R58; DESIGN CHOICE where R58 says "unspecified", log
entry 2). -/
def Engine.reset : Engine :=
  { pc := .idle, busy := false, session := .unchecked, pollCount := 0, burstIndex := 0, component := 0, header := 0
    failed := false, errFirst := none, cmd := ⟨.read, 0, 0⟩, opAddr := 0, opLen := 0, burst := 4, n := 0, r := 0
    buf := [], stsSample := 0 }

/-- The controller as the model starts it: R59 gives no value (DESIGN CHOICE, unsafe: log entry 1). -/
def Controller.reset : Controller :=
  { addr := 0, ctl := 0, sts := 0x00004000#32, window := Vector.replicate 16 0, ptidx := 0
    freg := Vector.replicate 12 0, pr := Vector.replicate 5 0, biosCtl := 0, inflight := none
    aelAfterClear := false, fcerrAfterClear := false, biosWeOpen := false }

/-- The environment as the model starts it: R60 says its contents are inputs (DESIGN CHOICE, unsafe: log entry 3). -/
def Environment.reset : Environment :=
  { flash := [], sfdpIndex := [], sfdpArea0 := [], sfdpArea1 := [], jedecRaw := 0
    cycleDraws := [], weDraws := [], drawCount := 0 }

/-- The machine right after reset, which is construction of the engine (R58, R370, R371). -/
def State.reset : State :=
  { cfg := defaultConfig, eng := Engine.reset, ctl := Controller.reset, env := Environment.reset
    host := { pending := [], result := none, trace := [] } }

end Sys2Proof.Machine
end

