-- ==== Sys2Proof/Machine/Operands.lean ====
section
/-! DEFINITION. Operand assembly (30_encoding.md section 2): field extraction, addresses, byte counts, burst plans, the
cycle-type-and-go value, and the decoded bounds. -/

namespace Sys2Proof.Machine

/-- `Field(name, raw, f)`: `(raw >> lsb) & (2^width - 1)` (20_memory.md R87). -/
def field (f : BitField) (raw : Word) : Word := (raw >>> f.lsb) &&& BitVec.ofNat 32 (2 ^ f.width - 1)

/-- `CYCLE_CODE(kind)` (R114). -/
def cycleCode (c : CycleCodes) : CycleKind → Nat
  | .read => c.read
  | .write => c.write
  | .erase => c.erase
  | .jedecId => c.jedecId
  | .sfdp => c.sfdp

/-- `cyc_byte(kind)`, the cycle-type-and-go value: the code in the cycle-type field and the go bit, every other bit 0
(R113, R114, R137). -/
def cycByte (cfg : Config) (k : CycleKind) : Byte :=
  BitVec.ofNat 8 (cycleCode cfg.codes k <<< cfg.ctl.fcycle.lsb) ||| (1#8 <<< cfg.ctl.fgo)

/-- The five kinds in the table's order. -/
def allKinds : List CycleKind := [.read, .write, .erase, .sfdp, .jedecId]

/-- Whether cycles of the kind are admitted: Sfdp and JedecId cycles "only where `HasField(HSQ_CTL, FCYCLE)`"
(R114, R167, R168). -/
def kindAdmitted (cfg : Config) : CycleKind → Bool
  | .jedecId => cfg.hasCycleTypeField
  | .sfdp => cfg.hasCycleTypeField
  | _ => true

/-- The kind the controller reads from the control register (D34 step 3); `none` for a code of no kind (R114). -/
def decodeKind (cfg : Config) (ctl : Word) : Option CycleKind :=
  allKinds.find? fun k =>
    kindAdmitted cfg k && decide (cycleCode cfg.codes k = (field cfg.ctl.fcycle ctl).toNat)

/-- The byte count the controller reads from the control register: the field plus one, and no more than the window holds
(R113, R129, D34 step 3). -/
def cycleCount (cfg : Config) (ctl : Word) : Nat := min windowBytes ((field cfg.ctl.fdbc ctl).toNat + 1)

/-- `FLA = flash_linear_address & 0x07FFFFFF` (R128, R152). -/
def maskFla (a : Word) : Word := a &&& flaMask

/-- Address of burst `i`: `(address + i * burst) mod 2^32` (R128, R182). -/
def burstAddress (address : Word) (burst i : Nat) : Word := address + BitVec.ofNat 32 (i * burst)

/-- Read burst selection (R181). -/
def readBurstSize (length : Nat) : Nat := if readBurstMax ≤ length then readBurstMax else readBurstMin

/-- `ceil(k / 4)`, the slots a burst of `k` bytes fills (R11, R142). -/
def slotCount (k : Nat) : Nat := (k + 3) / 4

/-- `data_byte_count_minus_one` of a cycle of `count` bytes (R129). -/
def dbcOf (count : Nat) : Byte := BitVec.ofNat 8 (count - 1)

/-- A stored bound's base: the field shifted by 12 (R76, R130). -/
def rangeBase (f : BitField) (raw : Word) : Word := field f raw <<< rangeShift

/-- A stored bound's limit: the field shifted by 12, low 12 bits forced to 1 (R76, R130). -/
def rangeLimit (f : BitField) (raw : Word) : Word := (field f raw <<< rangeShift) ||| 0xFFF#32

/-- A stored map base: the field shifted by 4 (R130, R256). -/
def mapBase (f : BitField) (raw : Word) : Word := field f raw <<< mapBaseShift

/-- `component_index << 14` (R130, R217). -/
def sfdpBase (c : Nat) : Word := BitVec.ofNat 32 c <<< sfdpComponentShift

/-- The byte of window position `j` (R34, R70). -/
def windowByte (w : Vector Word 16) (j : Nat) : Byte := (w.get (Fin.ofNat 16 (j / slotBytes))).byte (j % slotBytes)

/-- The window with byte `j` replaced wherever `f j` lists one (R48). -/
def overlayWindow (f : Nat → Option Byte) (w : Vector Word 16) : Vector Word 16 :=
  Vector.ofFn fun i =>
    let b (k : Nat) : Byte := (f (slotBytes * i.val + k)).getD ((w.get i).byte k)
    Word.ofBytes (b 0) (b 1) (b 2) (b 3)

/-- Offset on the wire of a 1-byte access to byte `k` of a register, where the platform gives the register an offset (R89;
log entry 25). -/
def rawOffset (cfg : Config) (r : Reg) (k : Nat) : Option Nat := (cfg.regOffset.lookup r).map (· + k)

/-- `register_exists(name)`: every register of R30 exists in the admitted configurations (R85, R88, U15; log entry 33). -/
def registerExists (_cfg : Config) (_r : Reg) : Bool := true

end Sys2Proof.Machine
end

