-- ==== Sys2Proof/Machine/Flags.lean ====
section
/-! DEFINITION. The status register's flags: what a sample means, what the end of a cycle sets, what the clear write clears
(10_state.md R25, R26, R33, R46). -/

namespace Sys2Proof.Machine

/-- `CycleStatus` (R25, R51). -/
structure CycleStatus where
  inProgress : Bool
  accessError : Bool
  flashCycleError : Bool
  deriving DecidableEq, Repr

/-- `CycleStatus` of a status sample (R25). -/
def cycleStatus (l : StsLayout) (s : Word) : CycleStatus :=
  { inProgress := s.getLsbD l.scip, accessError := s.getLsbD l.ael, flashCycleError := s.getLsbD l.fcerr }

/-- "Flash Descriptor Valid" of a status sample (R33, R151). -/
def descriptorValid (l : StsLayout) (s : Word) : Bool := s.getLsbD l.fdv

/-- `W1C_PATTERN = FDONE | FCERR | AEL` (R115, R158, D6). -/
def w1cPattern (l : StsLayout) : Word := (1#32 <<< l.fdone) ||| (1#32 <<< l.fcerr) ||| (1#32 <<< l.ael)

/-- The status bits when a cycle ends: `FDONE` is set, `FCERR` and `AEL` may be; a bit already 1 stays (R46, R47). -/
def endStatus (l : StsLayout) (d : CycleDraw) (sts : Word) : Word :=
  let s1 := sts.setBit l.fdone true
  let s2 := if d.fcerr then s1.setBit l.fcerr true else s1
  if d.ael then s2.setBit l.ael true else s2

/-- A write of `p` to the status register: each write-1-to-clear bit that `p` holds is cleared, but an error bit may still
read 1 afterwards (U9); writing 0 changes nothing, and SCIP and FDV cannot be written (R33, R79). -/
def clearStatus (l : StsLayout) (p : Word) (aelAfter fcerrAfter : Bool) (sts : Word) : Word :=
  let s1 := if p.getLsbD l.fdone then sts.setBit l.fdone false else sts
  let s2 := if p.getLsbD l.fcerr then s1.setBit l.fcerr fcerrAfter else s1
  if p.getLsbD l.ael then s2.setBit l.ael aelAfter else s2

/-- The status word as read: SCIP is 1 exactly while a cycle is in flight (R33, R45). -/
def statusWord (l : StsLayout) (inflight : Bool) (sts : Word) : Word := sts.setBit l.scip inflight

end Sys2Proof.Machine
end

