-- ==== Sys2Proof/Machine/Memory.lean ====
section
/-! DEFINITION. The named operations over a byte-addressed memory in canonical form. -/

namespace Sys2Proof.Machine

/-- The byte at an address: the listed one, else `blankByte`. -/
def Memory.get : Memory → Nat → Byte
  | [], _ => blankByte
  | (x, v) :: m, a => if x = a then v else Memory.get m a

/-- `m` with `b` at address `a`; the canonical form is kept, so writing `blankByte` unlists the address. -/
def Memory.put : Memory → Nat → Byte → Memory
  | [], a, b => if b = blankByte then [] else [(a, b)]
  | (x, v) :: m, a, b =>
    if a < x then if b = blankByte then (x, v) :: m else (a, b) :: (x, v) :: m
    else if x = a then if b = blankByte then m else (a, b) :: m
    else (x, v) :: Memory.put m a b

/-- Addresses strictly rise, all of them below `bound`, and no entry reads as an unlisted address would. -/
def Memory.wfBelow : Memory → Nat → Bool
  | [], _ => true
  | (x, v) :: m, bound =>
    decide (x < bound) && decide (v ≠ blankByte) && m.all (fun c => decide (x < c.1)) && Memory.wfBelow m bound

/-- Every address of flash is below its size (R42). -/
def Memory.wf (m : Memory) : Bool := m.wfBelow flashSize

/-- The dword at a byte index, little-endian (R43, R71). -/
def Memory.dword (m : Memory) (a : Nat) : Word :=
  Word.ofBytes (m.get a) (m.get (a + 1)) (m.get (a + 2)) (m.get (a + 3))

/-- The flash address `j` bytes above `a`: flash addresses are 27 bits wide (R42, R128; where a cycle wraps, the environment
may also depart from this, U7). -/
def flashAddr (a : BitVec 27) (j : Nat) : Nat := (a.toNat + j) % flashSize

/-- A Write cycle's effect: bytes `f 0 .. f (count - 1)` stored from flash address `a` upward (R48). -/
def Memory.putRun (m : Memory) (a : BitVec 27) (f : Nat → Byte) : Nat → Memory
  | 0 => m
  | j + 1 => (Memory.putRun m a f j).put (flashAddr a j) (f j)

/-- An Erase cycle's effect on the block of `size` bytes from `start`: offset `o` then reads `f o`; no address above the flash
address space is touched (R166, U6). -/
def Memory.eraseRun (m : Memory) (start : Nat) (f : Nat → Byte) : Nat → Memory
  | 0 => m
  | o + 1 =>
    if start + o < flashSize then (Memory.eraseRun m start f o).put (start + o) (f o) else Memory.eraseRun m start f o

/-- Bytes written at arbitrary flash addresses: what a departing cycle leaves behind (U5, U7). -/
def Memory.putCells (m : Memory) : List Host.Cell → Memory
  | [] => m
  | (a, b) :: cs => Memory.putCells (m.put (a % flashSize) b) cs

end Sys2Proof.Machine
end

