-- ==== Sys2Proof/Machine/Ops.lean ====
section
/-! DEFINITION. The named operations over the machine: the Register Port (20_memory.md R85 to R89), the controller behind it
(10_state.md R45 to R49), and taking an error (60_exceptions.md R345), which is how an operation ends. -/

namespace Sys2Proof.Machine

/-! ### Updates of one part of the state -/

def State.modEng (s : State) (f : Engine → Engine) : State := { s with eng := f s.eng }
def State.modCtl (s : State) (f : Controller → Controller) : State := { s with ctl := f s.ctl }
def State.modEnv (s : State) (f : Environment → Environment) : State := { s with env := f s.env }
def State.modHost (s : State) (f : HostPort → HostPort) : State := { s with host := f s.host }

/-- An access is made: it joins the operation's trace (R95). -/
def State.log (s : State) (e : Event) : State := s.modHost fun h => { h with trace := h.trace ++ [e] }

/-- `pc <- p` (R12, R23). -/
def State.atPhase (s : State) (p : Phase) : State := s.modEng fun e => { e with pc := p }

/-! ### Draws of the environment (R46, R49) -/

/-- The draws of the next cycle: the next one State lists, else a free value. -/
def State.cycleDraw (s : State) : CycleDraw := s.env.cycleDraws.headD (Config.freeCycleDraw s.env.drawCount)

/-- The next cycle's draws are used up. -/
def State.popCycleDraw (s : State) : State :=
  s.modEnv fun e => { e with cycleDraws := e.cycleDraws.tail, drawCount := e.drawCount + 1 }

/-- What `BIOS_CTL.WE` reads next: the next draw State lists, else a free value. -/
def State.weDraw (s : State) : Bool := s.env.weDraws.headD (Config.freeWe s.env.drawCount)

/-- The next `WE` draw is used up. -/
def State.popWeDraw (s : State) : State :=
  s.modEnv fun e => { e with weDraws := e.weDraws.tail, drawCount := e.drawCount + 1 }

/-! ### The controller -/

/-- The SFDP area an Sfdp cycle returns (U8). -/
def State.sfdpArea (s : State) (second : Bool) : Memory := if second then s.env.sfdpArea1 else s.env.sfdpArea0

/-- The bytes a cycle brings when it has its effect, by window position (R48); `none` is "no byte stated" (U2). -/
def windowFill (c : InFlight) (s : State) (j : Nat) : Option Byte :=
  match c.kind with
  | some .read => if j < c.count then some (s.env.flash.get (flashAddr c.addr j)) else none
  | some .jedecId => if j < min slotBytes c.count then some (s.env.jedecRaw.byte j) else none
  | some .sfdp => if j < c.count then some ((s.sfdpArea c.draw.secondComponent).get (c.addr.toNat + j)) else none
  | some .write => none
  | some .erase => none
  | none => none

/-- The window bytes that change at the end of a cycle that fills the window: those it brings and, where none is stated, the
residue (U2, log entry 12); any of them if it departs (U7, log entry 10). -/
def windowChange (c : InFlight) (s : State) (j : Nat) : Option Byte :=
  match c.draw.effect with
  | .performed => (windowFill c s j).or c.draw.residue[j]?
  | .departs _ bytes => bytes[j]?

/-- The window when cycle `c` ends (R48). Whatever they do to flash, a Write cycle only reads the window and an Erase cycle
moves no window bytes (R21, R78, R385). -/
def windowAfter (c : InFlight) (s : State) : Vector Word 16 :=
  match c.kind with
  | some .write => s.ctl.window
  | some .erase => s.ctl.window
  | some .read => overlayWindow (windowChange c s) s.ctl.window
  | some .jedecId => overlayWindow (windowChange c s) s.ctl.window
  | some .sfdp => overlayWindow (windowChange c s) s.ctl.window
  | none => overlayWindow (windowChange c s) s.ctl.window

/-- First address of the block an Erase cycle at `a` erases (R42, R166). -/
def eraseStart (blockBytes : Nat) (a : BitVec 27) : Nat := a.toNat / blockBytes * blockBytes

/-- Flash when cycle `c` ends: a Write cycle stores the window's bytes, an Erase cycle erases the block holding its address
(R42, R48, R166; U5 to U7). A cycle that only reads leaves flash as it is (DEDUCED, log entry 11), and
flash changes at no other time: R80 says that other flash masters may change it between bursts, and the model leaves them out
(DESIGN CHOICE, unsafe: log entry 36). -/
def flashAfter (c : InFlight) (s : State) : Memory :=
  match c.draw.effect, c.kind with
  | .departs cells _, some .write => s.env.flash.putCells cells
  | .departs cells _, some .erase => s.env.flash.putCells cells
  | .departs cells _, none => s.env.flash.putCells cells
  | .performed, some .write => s.env.flash.putRun c.addr (windowByte s.ctl.window) c.count
  | .performed, some .erase =>
    s.env.flash.eraseRun (eraseStart s.cfg.eraseBlockBytes c.addr) (fun o => c.draw.erased.getD o c.draw.erasedFill)
      s.cfg.eraseBlockBytes
  | _, _ => s.env.flash

/-- Cycle `c` ends: its effects happen, SCIP clears, `FDONE` is set and the error bits may be (R46). -/
def endCycle (c : InFlight) (s : State) : State :=
  { s with
    ctl := { s.ctl with
      window := windowAfter c s
      sts := endStatus s.cfg.sts c.draw s.ctl.sts
      inflight := none
      aelAfterClear := c.draw.aelAfterClear
      fcerrAfterClear := c.draw.fcerrAfterClear }
    env := { s.env with flash := flashAfter c s } }

/-- A go write is accepted: the cycle's kind, address and count are latched from the registers, and its draws are made
(R45, D34 step 3). -/
def startCycle (s : State) : State :=
  let d := s.cycleDraw
  s.popCycleDraw.modCtl fun c => { c with
    inflight := some
      { kind := decodeKind s.cfg c.ctl, addr := c.addr.setWidth 27, count := cycleCount s.cfg c.ctl
        remaining := d.delay, draw := d } }

/-- What the controller does by the time of a status sample: the in-flight cycle may end (R46, D34 step 4). -/
def tickStatus (s : State) : State :=
  match s.ctl.inflight with
  | none => s
  | some c =>
    match c.remaining with
    | none => s
    | some 0 => endCycle c s
    | some (k + 1) => s.modCtl fun t => { t with inflight := some { c with remaining := some k } }

/-- What the next read of `BIOS_CTL` returns: after the engine's first access to the register `WE` may read anything
(R49, R308, R388, U12; log entry 14). -/
def State.biosRead (s : State) : Word :=
  if s.ctl.biosWeOpen then s.ctl.biosCtl.setBit s.cfg.fields.we s.weDraw else s.ctl.biosCtl

/-- What system-management code does by the time of a read of `BIOS_CTL`. From the first one on it may act: also where the
engine finds `WE` set and writes nothing (R388). -/
def tickBios (s : State) : State :=
  (if s.ctl.biosWeOpen then s.popWeDraw else s).modCtl fun t => { t with biosCtl := s.biosRead, biosWeOpen := true }

/-- Whether the engine may write a sequencing register: no cycle is in flight, or the one left by a timeout ends first (R382);
else the run has no meaning (U3, N10). -/
def claimController (s : State) : Except Fault State :=
  match s.ctl.inflight with
  | none => .ok s
  | some c => if c.draw.drains then .ok (endCycle c s) else .error .cycleInFlight

/-! ### The Register Port (R85 to R89) -/

/-- The value a register holds. `HSQ_PTDATA` is the dword at the current index (R35). -/
def State.regValue (s : State) : Reg → Word
  | .addr => s.ctl.addr
  | .ctl => s.ctl.ctl
  | .sts => statusWord s.cfg.sts s.ctl.inflight.isSome s.ctl.sts
  | .data i => s.ctl.window.get i
  | .ptidx => s.ctl.ptidx
  | .ptdata => s.env.sfdpIndex.dword s.ctl.ptidx.toNat
  | .freg i => s.ctl.freg.get i
  | .pr i => s.ctl.pr.get i
  | .biosCtl => s.ctl.biosCtl

/-- What happens behind the port by the time a register is read. -/
def tick (r : Reg) (s : State) : State :=
  match r with
  | .sts => tickStatus s
  | .biosCtl => tickBios s
  | _ => s

/-- `RegRead(name)` (R85). -/
def regRead (r : Reg) (s : State) : Word × State :=
  let t := tick r s
  (t.regValue r, t.log (.read r (t.regValue r)))

/-- The clear write's effect (R158). -/
def clearWrite (p : Word) (s : State) : State :=
  s.modCtl fun c => { c with sts := clearStatus s.cfg.sts p c.aelAfterClear c.fcerrAfterClear c.sts }

/-- What a full write of a register does (R31 to R38). `FREG`, `PR` and `HSQ_PTDATA` are read-only to the engine. -/
def applyWrite (r : Reg) (v : Word) (s : State) : State :=
  match r with
  | .addr => s.modCtl fun c => { c with addr := v }
  | .ctl =>
    let t := s.modCtl fun c => { c with ctl := v }
    if v.getLsbD s.cfg.ctl.fgo then startCycle t else t
  | .sts => clearWrite v s
  | .data i => s.modCtl fun c => { c with window := c.window.set i.val v }
  | .ptidx => s.modCtl fun c => { c with ptidx := v }
  | .ptdata => s
  | .freg _ => s
  | .pr _ => s
  | .biosCtl => s.modCtl fun c => { c with biosCtl := v, biosWeOpen := true }

/-- What a 1-byte write to byte `k` of a register does (R73, R89). A go write is a write of the byte that holds the go bit,
with that bit 1 (R32, R45). -/
def applyWrite8 (r : Reg) (k : Nat) (b : Byte) (s : State) : State :=
  match r with
  | .ctl =>
    let t := s.modCtl fun c => { c with ctl := c.ctl.setByte k b }
    if s.cfg.ctl.fgo / 8 = k ∧ b.getLsbD (s.cfg.ctl.fgo % 8) = true then startCycle t else t
  | .sts => clearWrite (b.setWidth 32 <<< (8 * k)) s
  | r => applyWrite r ((s.regValue r).setByte k b) s

/-- The registers that N10 says must not be written while a cycle is in flight. -/
def sequencing : Reg → Bool
  | .addr => true
  | .ctl => true
  | .data _ => true
  | _ => false

/-- The write is made, the trace records it. -/
def portWrite (r : Reg) (v : Word) (s : State) : State := applyWrite r v (s.log (.write r v))

/-- The 1-byte write is made, the trace records it. -/
def portWrite8 (r : Reg) (k : Nat) (b : Byte) (s : State) : State := applyWrite8 r k b (s.log (.write8 r k b))

/-- `RegWrite(name, v)` (R86). -/
def regWrite (r : Reg) (v : Word) (s : State) : Except Fault State :=
  if sequencing r then (claimController s).map (portWrite r v) else .ok (portWrite r v s)

/-- `RegWrite8(name, k, b)` (R89). -/
def regWrite8 (r : Reg) (k : Nat) (b : Byte) (s : State) : Except Fault State :=
  if sequencing r then (claimController s).map (portWrite8 r k b) else .ok (portWrite8 r k b s)

/-- `Sleep(100)` (R156, R356): no access is made, and the step takes no time (R352; log entry 24). -/
def sleepOnce (s : State) : State := s.log (.sleep sleepMs)

/-- One indexed read, `PtRead(index)` (R218): write the index, read the data, no read-back. -/
def ptRead (index : Word) (s : State) : Word × State := regRead .ptdata (portWrite .ptidx index s)

/-! ### Beginning and ending an operation -/

/-- An operation is accepted (R27, R29): busy, no failure recorded, nothing gathered; its trace is empty. -/
def beginOp (s : State) : State :=
  (s.modEng fun e => { e with busy := true, failed := false, errFirst := none, buf := [] }).modHost
    fun h => { h with trace := [] }

/-- The working latches do not survive the end of an operation (R22). -/
def Engine.rest (e : Engine) : Engine :=
  { e with
    pc := .idle, busy := false, errFirst := none, cmd := ⟨.read, 0, 0⟩, opAddr := 0, opLen := 0, burst := 4, n := 0
    r := 0, buf := [], stsSample := 0 }

/-- The result is delivered and `busy` falls (R134). -/
def deliver (r : OpResult) (s : State) : State :=
  (s.modEng Engine.rest).modHost fun h => { h with result := some r }

/-- TAKING AN ERROR (R345): no state is saved and no handler entered; `pc <- IDLE`, `busy <- false`, the result
`Err(code, info)` is delivered, and register side effects already made stay. There is no return operation (R347). -/
def takeError (e : OpError) (s : State) : State := deliver (.err e) s

/-- An operation ends with a value or with an error. -/
def endOp (r : Except OpError Value × State) : State :=
  match r.1 with
  | .ok v => deliver (.ok v) r.2
  | .error e => takeError e r.2

/-- `IllegalCommand` (R136, R340): no Register Port access, and no state changes but the result (and the trace, which records
that there was no access). -/
def refuseIllegal (s : State) : State :=
  s.modHost fun h => { h with result := some (.err .illegalCommand), trace := [] }

/-- A command presented while `busy` (R380): refused, not latched, the running operation undisturbed. -/
def refuseBusy (s : State) : State :=
  s.modHost fun h => { h with result := some (.err .illegalCommand) }

/-- The outcome of an operation's run. -/
def finish (r : Except Fault (Except OpError Value × State)) : Host.Outcome State Fault Refusal :=
  match r with
  | .ok p => .next (endOp p)
  | .error f => .fault f

/-- A new session (R370, R371): the engine is constructed again. Reset makes no Register Port access, issues no cycle and
clears no status bit, so the controller, which may still run a cycle (R372), and the environment stay as they are. -/
def resetEngine (s : State) : State :=
  { s with eng := Engine.reset, host := { s.host with result := none, trace := [] } }

/-- The numeric code of an error (R330, D31). -/
def OpError.code : OpError → Nat
  | .hardwareSequencingDisabled => 1
  | .cycleTimeout => 2
  | .cycleError _ _ => 3
  | .unsupportedJedecCycle => 4
  | .dataWindowExhausted => 5
  | .signatureNotFound => 6
  | .truncatedImage => 7
  | .protectionStateUnverified _ _ => 8
  | .malformedDescriptor => 9
  | .illegalCommand => 10

end Sys2Proof.Machine
end

