-- ==== Sys2Proof/Machine/Cycle.lean ====
section
/-! DEFINITION. The Flash Cycle Protocol Engine (40_cycle_engine.md): `execute_cycle` as the sequence of Register Port accesses
of R160, and the five cycle kinds. -/

namespace Sys2Proof.Machine

/-! ### The phases, each as its own operation -/

/-- The command is constructed (R22, R50). -/
def latchCommand (c : CycleCommand) (s : State) : State := s.modEng fun e => { e with cmd := c }

/-- One status sample (R81): every one is a read of its own. -/
def sampleStatus (s : State) : Word × State :=
  let p := regRead .sts s
  (p.1, p.2.modEng fun e => { e with stsSample := p.1 })

/-- Phase `CHECK`: the once-per-session hardware sequencing check (R151). -/
def phaseCheck (s : State) : State :=
  let p := sampleStatus (s.atPhase .check)
  p.2.modEng fun e => { e with session := if descriptorValid s.cfg.sts p.1 then .enabled else .fatal }

/-- Phase `ADDR`: step 1 (R152). -/
def phaseAddr (s : State) : Except Fault State := regWrite .addr (maskFla s.eng.cmd.fla) (s.atPhase .addr)

/-- Phase `DBC`: step 2 (R153). -/
def phaseDbc (s : State) : Except Fault State := regWrite8 .ctl s.cfg.ctl.dbcByte s.eng.cmd.dbc (s.atPhase .dbc)

/-- Phase `GO`: step 3 (R154). -/
def phaseGo (s : State) : Except Fault State := regWrite8 .ctl 0 (cycByte s.cfg s.eng.cmd.kind) (s.atPhase .go)

/-- Phase `POLL` is entered (R155). -/
def startPoll (s : State) : State := s.modEng fun e => { e with pc := .poll, pollCount := 0 }

/-- One sample of the tight loop (R155): whether it shows the controller idle. -/
def pollOnce (s : State) : Bool × State :=
  let p := sampleStatus s
  (!(cycleStatus s.cfg.sts p.1).inProgress, p.2.modEng fun e => { e with pollCount := e.pollCount + 1 })

/-- Phase `SLEEP` (R156). -/
def phaseSleep (s : State) : State := sleepOnce (s.atPhase .sleep)

/-- Phase `LATE`: the one late sample (R156). -/
def phaseLate (s : State) : Bool × State :=
  let p := sampleStatus (s.atPhase .late)
  (!(cycleStatus s.cfg.sts p.1).inProgress, p.2)

/-- `StsClear(W1C_PATTERN)` in the configured width (R158). -/
def stsClear (s : State) : State :=
  match s.cfg.stsWriteWidth with
  | .one => portWrite8 .sts 0 ((w1cPattern s.cfg.sts).byte 0) s
  | .four => portWrite .sts (w1cPattern s.cfg.sts) s

/-- Phase `CLEAR`: step 5, the clear write and the re-sample (R158). The sample that showed idle is not examined (R383). -/
def phaseClear (s : State) : State := (sampleStatus (stsClear (s.atPhase .clear))).2

/-- The error a re-sample shows, if any (R159). -/
def verifyError (l : StsLayout) (sample : Word) : Option OpError :=
  let c := cycleStatus l sample
  if c.accessError || c.flashCycleError then some (.cycleError c.accessError c.flashCycleError) else none

/-- Phase `VERIFY`: step 6 (R159). `none` is `Ok(())`. -/
def phaseVerify (s : State) : Option OpError × State :=
  (verifyError s.cfg.sts s.eng.stsSample, s.atPhase .idle)

/-! ### The algorithm (R160) -/

/-- R151: the check is made once a session. -/
def sessionCheck (s : State) : State := if s.eng.session = .unchecked then phaseCheck s else s

/-- At most `k` tight samples, ending at the first that shows idle (R155). -/
def pollLoop : Nat → State → Bool × State
  | 0, s => (false, s)
  | k + 1, s => if (pollOnce s).1 then (true, (pollOnce s).2) else pollLoop k (pollOnce s).2

/-- Step 4: the tight poll, then one sleep and one late sample (R155, R156). -/
def awaitIdle (s : State) : Bool × State :=
  let p := pollLoop pollMax (startPoll s)
  if p.1 then p else phaseLate (phaseSleep p.2)

/-- Steps 4 to 6: the error or `none`, and a timeout clears nothing (R157). -/
def completeCycle (s : State) : Option OpError × State :=
  let p := awaitIdle s
  if p.1 then phaseVerify (phaseClear p.2) else (some .cycleTimeout, p.2.atPhase .idle)

/-- Steps 1 to 3 (R152 to R154): an Erase cycle writes no byte count. -/
def issueCycle (s : State) : Except Fault State :=
  (phaseAddr s).bind fun s1 =>
    (if s1.eng.cmd.kind = .erase then .ok s1 else phaseDbc s1).bind phaseGo

/-- `execute_cycle(cmd)` (R150, R160): the error it raises, `none` for `Ok(())`, and the state it leaves. -/
def executeCycle (c : CycleCommand) (s : State) : Except Fault (Option OpError × State) :=
  let t := sessionCheck (latchCommand c s)
  if t.eng.session = .fatal then .ok (some .hardwareSequencingDisabled, t.atPhase .idle)
  else (issueCycle t).map completeCycle

/-- The result of an operation that returns nothing on success. -/
def unitResult (p : Option OpError × State) : Except OpError Value × State :=
  match p.1 with
  | none => (.ok .nothing, p.2)
  | some e => (.error e, p.2)

/-- One cycle as an operation of its own. -/
def runCycle (c : CycleCommand) (s : State) : Host.Outcome State Fault Refusal :=
  finish ((executeCycle c (beginOp s)).map unitResult)

/-- Whether a command presented as a cycle of its own is admitted: a byte count of at most 63 (R111, R136), and a kind that
the platform's control register can express (R167, R168; DESIGN CHOICE that it is otherwise refused as an illegal encoding is,
log entry 22). -/
def cycleAdmitted (cfg : Config) (c : CycleCommand) : Bool := kindAdmitted cfg c.kind && decide (c.dbc.toNat ≤ 63)

/-- A cycle that carries a byte count, as an operation of its own. -/
def runSizedCycle (c : CycleCommand) (s : State) : Host.Outcome State Fault Refusal :=
  if cycleAdmitted s.cfg c then runCycle c s else .next (refuseIllegal s)

/-! ### The five kinds (R164 to R168) -/

/-- `CYCLE.READ fla, dbc` (R164). -/
def execCycleRead (fla : Word) (dbc : Byte) (s : State) : Host.Outcome State Fault Refusal :=
  runSizedCycle ⟨.read, fla, dbc⟩ s

/-- `CYCLE.WRITE fla, dbc` (R165). -/
def execCycleWrite (fla : Word) (dbc : Byte) (s : State) : Host.Outcome State Fault Refusal :=
  runSizedCycle ⟨.write, fla, dbc⟩ s

/-- `CYCLE.ERASE fla` (R166): the record's byte count is ignored. -/
def execCycleErase (fla : Word) (s : State) : Host.Outcome State Fault Refusal :=
  runCycle ⟨.erase, fla, 0⟩ s

/-- `CYCLE.SFDP fla, dbc` (R168), admitted only with the cycle-type field. -/
def execCycleSfdp (fla : Word) (dbc : Byte) (s : State) : Host.Outcome State Fault Refusal :=
  runSizedCycle ⟨.sfdp, fla, dbc⟩ s

/-- `CYCLE.JEDECID fla, dbc` (R167), admitted only with the cycle-type field. -/
def execCycleJedecid (fla : Word) (dbc : Byte) (s : State) : Host.Outcome State Fault Refusal :=
  runSizedCycle ⟨.jedecId, fla, dbc⟩ s

end Sys2Proof.Machine
end

