-- ==== Sys2Proof/Machine/Identity.lean ====
section
/-! DEFINITION. The JEDEC / SFDP Identity Reader (42_identity_sfdp.md): `READ_JEDEC_ID`, `DISCOVER_SFDP`. -/

namespace Sys2Proof.Machine

/-! ### `READ_JEDEC_ID` -/

/-- The conventional identity of a raw dword (R213): bytes 0 and 2 swapped, byte 1 kept, byte 3 ignored. -/
def jedecIdOf (raw : Word) : JedecId :=
  { manufacturerCode := raw.byte 0, deviceCode := raw.byte 1 ++ raw.byte 2 }

/-- After the JedecId cycle (R212, R215): one read of slot 0, or the cycle's error and no read. -/
def jedecTail (p : Option OpError × State) : Except OpError Value × State :=
  match p.1 with
  | some e => (.error e, p.2)
  | none => let q := regRead (.data 0) p.2; (.ok (.jedec (jedecIdOf q.1)), q.2)

/-- `read_jedec_id()` (R210, R211): the capability test comes first. -/
def readJedecOp (s : State) : Except Fault (Except OpError Value × State) :=
  if s.cfg.hasCycleTypeField then (executeCycle ⟨.jedecId, 0, dbcOf jedecByteCount⟩ s).map jedecTail
  else .ok (.error .unsupportedJedecCycle, s)

/-- `READ_JEDEC_ID` (R210). -/
def execReadJedecId (s : State) : Host.Outcome State Fault Refusal := finish (readJedecOp (beginOp s))

/-! ### `DISCOVER_SFDP` -/

/-- The first parameter header, of which one dword is read (R221, C6). -/
def firstHeader (l : SfdpPhLayout) (d1 : Word) : SfdpParameterHeader :=
  { id := field l.idLow d1
    majorVersion := (field l.major d1).setWidth 8
    minorVersion := (field l.minor d1).setWidth 8
    lengthDwords := (field l.length d1).setWidth 8
    tablePointer := none }

/-- A further parameter header from its dword pair (R119, R225). -/
def pairHeader (l : SfdpPhLayout) (d1 d2 : Word) : SfdpParameterHeader :=
  { id := (field l.idHigh d2 <<< 8) ||| field l.idLow d1
    majorVersion := (field l.major d1).setWidth 8
    minorVersion := (field l.minor d1).setWidth 8
    lengthDwords := (field l.length d1).setWidth 8
    tablePointer := some (field l.pointer d2) }

/-- Slot of the first dword of header `h` (R224). -/
def headerSlot (l : SfdpPhLayout) (h : Nat) : Nat := l.slotBase + l.slotStride * h

/-- `count` further headers from `h` on, each slot pair tested against the window before it is read (R224, R225). -/
def readHeaders : Nat → Nat → List SfdpParameterHeader → State → Except OpError (List SfdpParameterHeader) × State
  | 0, _, acc, s => (.ok acc, s)
  | count + 1, h, acc, s =>
    let t := s.modEng fun e => { e with header := h }
    let slot := headerSlot s.cfg.sfdpPh h
    if windowSlots ≤ slot + 1 then (.error .dataWindowExhausted, t)
    else
      let p := regRead (.data (Fin.ofNat 16 slot)) t
      let q := regRead (.data (Fin.ofNat 16 (slot + 1))) p.2
      readHeaders count (h + 1) (acc ++ [pairHeader s.cfg.sfdpPh p.1 q.1]) q.2

/-- `count` dwords of the first parameter table from dword `k` on (R226). -/
def readTable (base : Word) : Nat → Nat → List Word → State → List Word × State
  | 0, _, acc, s => (acc, s)
  | count + 1, k, acc, s =>
    let p := ptRead ((base ||| sfdpPtSection) + BitVec.ofNat 32 (sfdpIndexStep * k)) s
    readTable base count (k + 1) (acc ++ [p.1]) p.2

/-- The parameter-header count a version dword reports (R220). -/
def headerCount (ver : Word) : Nat := (ver.byte 2).toNat + 1

/-- The headers of a found component (R221 to R225): the further ones are read through an Sfdp cycle iff more than one is
reported and the control register has a cycle-type field (R222). -/
def allHeaders (nph : Nat) (first : SfdpParameterHeader) (s : State) :
    Except Fault (Except OpError (List SfdpParameterHeader) × State) :=
  if 1 < nph ∧ s.cfg.hasCycleTypeField = true then
    (executeCycle ⟨.sfdp, s.cfg.sfdpCycleFla, dbcOf s.cfg.sfdpCycleCount⟩ s).map fun p =>
      match p.1 with
      | some e => (.error e, p.2)
      | none => readHeaders (nph - 1) 1 [first] p.2
  else .ok (.ok [first], s)

/-- The table dump and the component's record (R226, R227); an error of the headers ends the walk (R228). -/
def finishComponent (base ver : Word) (nph : Nat) (length : Byte)
    (p : Except OpError (List SfdpParameterHeader) × State) : Except OpError (Option SfdpComponent) × State :=
  match p.1 with
  | .error e => (.error e, p.2)
  | .ok headers =>
    let q := readTable base length.toNat 0 [] p.2
    (.ok (some
        { sfdpMinor := ver.byte 0, sfdpMajor := ver.byte 1, numHeaders := nph, headers := headers, table := q.1 }),
      q.2)

/-- One component of the walk (R219 to R226). -/
def discoverComponent (c : Nat) (s : State) : Except Fault (Except OpError (Option SfdpComponent) × State) :=
  let base := sfdpBase c
  let p := ptRead base (s.modEng fun e => { e with component := c })
  if p.1 ≠ sfdpSignature then .ok (.ok none, p.2)
  else
    let v := ptRead (base + sfdpVersionOff) p.2
    let d := ptRead (base ||| sfdpPhSection) v.2
    let first := firstHeader s.cfg.sfdpPh d.1
    (allHeaders (headerCount v.1) first d.2).map
      (finishComponent base v.1 (headerCount v.1) first.lengthDwords)

/-- The components from `c` on, `count` of them (R217): any error ends the walk and nothing gathered is returned (R228). -/
def discoverFrom : Nat → Nat → List (Nat × Option SfdpComponent) → State →
    Except Fault (Except OpError Value × State)
  | 0, _, out, s => .ok (.ok (.sfdp out), s)
  | count + 1, c, out, s =>
    match discoverComponent c s with
    | .error f => .error f
    | .ok (.error e, t) => .ok (.error e, t)
    | .ok (.ok r, t) => discoverFrom count (c + 1) (out ++ [(c, r)]) t

/-- `DISCOVER_SFDP` (R229). -/
def execDiscoverSfdp (s : State) : Host.Outcome State Fault Refusal :=
  finish (discoverFrom numSfdpComponents 0 [] (beginOp s))

end Sys2Proof.Machine
end

