-- ==== Sys2Proof/Machine/Descriptor.lean ====
section
/-! DEFINITION. The Flash Descriptor Parser (43_descriptor_parser.md): `PARSE`, a pure function of the image and the injected
field layout (R250, R269). -/

namespace Sys2Proof.Machine

/-- The dword at a byte offset of the image, `none` where the image does not hold all four bytes (R251 a). -/
def imageDword (image : List Byte) (addr : Nat) : Option Word :=
  match image.drop addr with
  | b0 :: b1 :: b2 :: b3 :: _ => some (Word.ofBytes b0 b1 b2 b3)
  | _ => none

/-- The least offset from `p` on at which the descriptor signature stands (R252). -/
def findSignature : Nat → List Byte → Option Nat
  | _, [] => none
  | p, b :: rest => if imageDword (b :: rest) 0 = some fdSignature then some p else findSignature (p + 1) rest

/-- `fd32(off)`: a dword of the descriptor slice, which starts at `base` of the image (R251 b, R254, R268). -/
def descriptorDword (image : List Byte) (base off : Nat) : Except OpError Word :=
  if fdSize < off + 4 then .error .malformedDescriptor
  else
    match imageDword image (base + off) with
    | some v => .ok v
    | none => .error .truncatedImage

/-- The descriptor's base in the image (R252 to R254): the first signature decides, must stand at `0x10` or above, and 4096
bytes must remain from the base. -/
def descriptorBase (image : List Byte) : Except OpError Nat :=
  match findSignature 0 image with
  | none => .error .signatureNotFound
  | some pos =>
    if pos < fdSigOffset then .error .signatureNotFound
    else if image.length < pos - fdSigOffset + fdSize then .error .truncatedImage
    else .ok (pos - fdSigOffset)

/-- A region dword decoded (R122, R261, R301): the image's `FLREG` and the live `FREG` share it (R300). -/
def regionOf (rb rl : BitField) (id : Nat) (raw : Word) : FlashRegion :=
  { id := id, base := rangeBase rb raw, limit := rangeLimit rl raw, rawRegister := raw }

/-- "flagged unused" (R262): base above limit, or the raw dword all ones. -/
def FlashRegion.unused (g : FlashRegion) : Bool :=
  decide (g.limit.toNat < g.base.toNat) || g.rawRegister == 0xFFFFFFFF#32

/-- `present(region)` (R262). -/
def FlashRegion.present (g : FlashRegion) : Bool := !g.unused

/-- The "present regions" enumeration (R262, D45). -/
def presentRegions (d : FlashDescriptor) : List FlashRegion := d.regions.filter FlashRegion.present

/-- `count` dwords of a section from `base`, the first being number `r`, each read tested against the slice (R260, R261, R263,
R268). -/
def sectionDwords (fd : Nat → Except OpError Word) (base : Nat) : Nat → Nat → Except OpError (List Word)
  | 0, _ => .ok []
  | count + 1, r =>
    match fd (base + 4 * r) with
    | .error e => .error e
    | .ok v =>
      match sectionDwords fd base count (r + 1) with
      | .error e => .error e
      | .ok vs => .ok (v :: vs)

/-- One entry of the access table (R264, D49): a bit at or beyond the mask's width reads 0. -/
def masterEntry (l : FieldLayout) (raw : Word) (r : Nat) : MasterAccess :=
  { read := (field l.mrra raw).getLsbD r, write := (field l.mrwa raw).getLsbD r }

/-- The access table (R264): an entry for every region and every master, unused regions included. -/
def masterTable (l : FieldLayout) (numRegions : Nat) (masters : List Word) : List ((Nat × Nat) × MasterAccess) :=
  (List.range numRegions).flatMap fun r => masters.zipIdx.map fun m => ((r, m.2), masterEntry l m.1 r)

/-- The region count (R258): the field and its bias where the layout has one, else 12. -/
def regionCount (cfg : Config) (flmap0 : Word) : Word :=
  if cfg.hasRegionCountField then field cfg.fields.nr flmap0 + BitVec.ofNat 32 cfg.bias.nr
  else BitVec.ofNat 32 numRegionsDefault

/-- The one diagnostic (R258): a stored region count of 0. -/
def regionDiagnostics (cfg : Config) (flmap0 : Word) : List Diagnostic :=
  if cfg.hasRegionCountField ∧ field cfg.fields.nr flmap0 = 0 then [.zeroRegionCount] else []

/-- The sections of a located descriptor, in the source's order (R255 to R266). -/
def decodeDescriptor (cfg : Config) (image : List Byte) (base : Nat) : Except OpError FlashDescriptor :=
  let l := cfg.fields
  let fd := descriptorDword image base
  (fd fdSigOffset).bind fun signature =>
  (fd fdMapOffset0).bind fun flmap0 =>
  (fd fdMapOffset1).bind fun flmap1 =>
  (fd fdMapOffset2).bind fun flmap2 =>
  let componentBase := mapBase l.fcba flmap0
  let regionBase := mapBase l.frba flmap0
  let masterBase := mapBase l.fmba flmap1
  let numRegions := regionCount cfg flmap0
  let numMasters := field l.nm flmap1 + BitVec.ofNat 32 cfg.bias.nm
  (sectionDwords fd componentBase.toNat 3 0).bind fun components =>
  (sectionDwords fd regionBase.toNat numRegions.toNat 0).bind fun regions =>
  (sectionDwords fd masterBase.toNat numMasters.toNat 0).bind fun masters =>
  (fd fdUpperMapOffset).bind fun flumap1 =>
  .ok
    { signature := signature
      descriptorOffset := base
      componentBase := componentBase
      regionBase := regionBase
      masterBase := masterBase
      numComponents := field l.nc flmap0 + BitVec.ofNat 32 cfg.bias.nc
      numRegions := numRegions
      numMasters := numMasters
      pchStrapBase := mapBase l.fpsba flmap1
      pchStrapLength := field l.psl flmap1
      cpuStrapBase := mapBase l.fmsba flmap2
      cpuStrapLength := field l.msl flmap2
      componentDwords := components
      regions := regions.zipIdx.map fun p => regionOf l.flregRb l.flregRl p.2 p.1
      masterAccess := masterTable l numRegions.toNat masters
      vsccTableBase := mapBase l.vtba flumap1
      vsccTableLength := field l.vtl flumap1
      oem := (image.drop (base + fdOemOffset)).take (fdSize - fdOemOffset)
      diagnostics := regionDiagnostics cfg flmap0 }

/-- `parse(image)` (R270). -/
def parseImage (cfg : Config) (image : List Byte) : Except OpError FlashDescriptor :=
  (descriptorBase image).bind (decodeDescriptor cfg image)

/-- `PARSE image` (R270): no Register Port access, no state but the result (R269). -/
def execParse (image : List Byte) (s : State) : Host.Outcome State Fault Refusal :=
  finish (.ok ((parseImage s.cfg image).map Value.descriptor, beginOp s))

end Sys2Proof.Machine
end

