-- ==== Sys2Proof/Machine/Protection.lean ====
section
/-! DEFINITION. The Region & Protection Model (44_regions_protection.md): `READ_REGION`, `READ_PROTECTED_RANGE`,
`DISABLE_BIOS_WP`. None of them issues a cycle or looks at the session (R309). -/

namespace Sys2Proof.Machine

/-- `read_region(id)` (R301): one read of `FREG[id]`. -/
def readRegionOp (id : Fin 12) (s : State) : Except OpError Value × State :=
  let p := regRead (.freg id) s
  (.ok (.region (regionOf s.cfg.fields.fregRb s.cfg.fields.fregRl id.val p.1)), p.2)

/-- `READ_REGION id` (R301): an id above 11 is illegal (R136). -/
def execReadRegion (id : Byte) (s : State) : Host.Outcome State Fault Refusal :=
  if h : id.toNat < 12 then finish (.ok (readRegionOp ⟨id.toNat, h⟩ (beginOp s))) else .next (refuseIllegal s)

/-- A protected-range register decoded (R125, R303). -/
def rangeOf (l : FieldLayout) (index : Nat) (raw : Word) : ProtectedRange :=
  { index := index
    base := rangeBase l.prb raw
    limit := rangeLimit l.prl raw
    writeProtectEnabled := field l.wpe raw != 0
    readProtectEnabled := field l.rpe raw != 0
    rawRegister := raw }

/-- `meaningful(p)` (R304, D44): a derived predicate. -/
def ProtectedRange.meaningful (p : ProtectedRange) : Bool := p.writeProtectEnabled || p.readProtectEnabled

/-- `read_protected_range(index)` (R303): one read of `PR[index]`. -/
def readProtectedRangeOp (index : Fin 5) (s : State) : Except OpError Value × State :=
  let p := regRead (.pr index) s
  (.ok (.range (rangeOf s.cfg.fields index.val p.1)), p.2)

/-- `READ_PROTECTED_RANGE index` (R303): an index above 4 is illegal (R136). -/
def execReadProtectedRange (index : Byte) (s : State) : Host.Outcome State Fault Refusal :=
  if h : index.toNat < 5 then finish (.ok (readProtectedRangeOp ⟨index.toNat, h⟩ (beginOp s)))
  else .next (refuseIllegal s)

/-- The attempt to set write-enable and the confirming read (R306, R307): the re-read alone decides. -/
def attemptWriteEnable (raw0 : Word) (s : State) : Except OpError Value × State :=
  let l := s.cfg.fields
  let q := regRead .biosCtl (portWrite .biosCtl (raw0 ||| (1#32 <<< l.we)) s)
  if q.1.getLsbD l.we then (.ok (.bool true), q.2)
  else (.error (.protectionStateUnverified (raw0.getLsbD l.le) (raw0.getLsbD l.smmWp)), q.2)

/-- `disable_bios_write_protection()` (R306, R310). -/
def disableBiosWpOp (s : State) : Except OpError Value × State :=
  let p := regRead .biosCtl s
  if p.1.getLsbD s.cfg.fields.we then (.ok (.bool true), p.2) else attemptWriteEnable p.1 p.2

/-- `DISABLE_BIOS_WP` (R310). -/
def execDisableBiosWp (s : State) : Host.Outcome State Fault Refusal := finish (.ok (disableBiosWpOp (beginOp s)))

end Sys2Proof.Machine
end

