-- ==== Sys2Proof/Machine/Transfer.lean ====
section
/-! DEFINITION. The Chunked Transfer Coordinator (41_chunked_transfer.md): `READ`, `WRITE`, `ERASE`. -/

namespace Sys2Proof.Machine

/-- The coordinator's record of a failed burst (R27, R186): the sticky flag, and the first error. -/
def recordFailure (e : OpError) (s : State) : State :=
  s.modEng fun g => { g with failed := true, errFirst := g.errFirst.orElse fun _ => some e }

/-- A completed burst, failed or not, advances the burst index (R24). -/
def nextBurst (s : State) : State := s.modEng fun e => { e with burstIndex := e.burstIndex + 1 }

/-- Drain `count` slots from `slot` on, for a burst of `k` bytes (R184, R185): the last slot is cut to the bytes that remain. -/
def drainSlots (k : Nat) : Nat → Nat → State → State
  | 0, _, s => s
  | count + 1, slot, s =>
    let p := regRead (.data (Fin.ofNat 16 slot)) s
    drainSlots k count (slot + 1)
      (p.2.modEng fun e => { e with buf := e.buf ++ leBytes p.1 (min slotBytes (k - slotBytes * slot)) })

/-- How a burst leaves the coordinator: the fatal error stops it at once, any other is recorded and it goes on (R186, D9). -/
def afterBurst (onSuccess : State → State) (p : Option OpError × State) : Bool × State :=
  match p.1 with
  | none => (false, nextBurst (onSuccess p.2))
  | some .hardwareSequencingDisabled => (true, p.2)
  | some e => (false, nextBurst (recordFailure e p.2))

/-- One read burst of `k` bytes (R182, R184): whether the coordinator stops here, and the state. -/
def readBurst (k : Nat) (s : State) : Except Fault (Bool × State) :=
  (executeCycle ⟨.read, burstAddress s.eng.opAddr s.eng.burst s.eng.burstIndex, dbcOf k⟩ s).map
    (afterBurst (drainSlots k (slotCount k) 0))

/-- The bytes of the current write burst of `k` bytes (R189). -/
def burstBytes (s : State) (k : Nat) : List Byte := (s.eng.buf.drop (s.eng.burst * s.eng.burstIndex)).take k

/-- One write burst of `k` bytes (R189): slot 0 is packed before the cycle. -/
def writeBurstOf (k : Nat) (s : State) : Except Fault (Bool × State) :=
  (regWrite (.data 0) (packLe (burstBytes s k)) s).bind fun t =>
    (executeCycle ⟨.write, burstAddress s.eng.opAddr s.eng.burst s.eng.burstIndex, dbcOf k⟩ t).map (afterBurst id)

/-- `count` bursts one after the other, unless one stops the coordinator (R183, R186). -/
def runBursts (burst : State → Except Fault (Bool × State)) : Nat → State → Except Fault (Bool × State)
  | 0, s => .ok (false, s)
  | count + 1, s =>
    match burst s with
    | .error f => .error f
    | .ok (true, t) => .ok (true, t)
    | .ok (false, t) => runBursts burst count t

/-- The whole plan (R182): `n` full bursts, then one of `r` bytes if `r` is not 0. -/
def runPlan (burst : Nat → State → Except Fault (Bool × State)) (s : State) : Except Fault (Bool × State) :=
  match runBursts (burst s.eng.burst) s.eng.n s with
  | .error f => .error f
  | .ok (true, t) => .ok (true, t)
  | .ok (false, t) => if t.eng.r = 0 then .ok (false, t) else burst t.eng.r t

/-- The burst plan is latched (R22, R182). -/
def latchPlan (address : Word) (length burst : Nat) (s : State) : State :=
  s.modEng fun e => { e with
    opAddr := address, opLen := length, burst := burst, n := length / burst, r := length % burst, burstIndex := 0 }

/-- The coordinator's result (R186): the fatal error, else the first recorded one, else success. -/
def transferResult (value : State → Value) (p : Bool × State) : Except OpError Value × State :=
  if p.1 then (.error .hardwareSequencingDisabled, p.2)
  else
    match p.2.eng.failed, p.2.eng.errFirst with
    | true, some e => (.error e, p.2)
    | _, _ => (.ok (value p.2), p.2)

/-- `read(address, length)` (R187). -/
def readOp (address : Word) (length : Nat) (s : State) : Except Fault (Except OpError Value × State) :=
  (runPlan readBurst (latchPlan address length (readBurstSize length) s)).map
    (transferResult fun t => .bytes t.eng.buf)

/-- `write(address, bytes)` (R191). -/
def writeOp (address : Word) (bytes : List Byte) (s : State) : Except Fault (Except OpError Value × State) :=
  (runPlan writeBurstOf
      ((latchPlan address bytes.length writeBurst s).modEng fun e => { e with buf := bytes })).map
    (transferResult fun _ => .nothing)

/-- `READ address, length` (R187). -/
def execRead (address length : Word) (s : State) : Host.Outcome State Fault Refusal :=
  finish (readOp address length.toNat (beginOp s))

/-- `WRITE address, bytes` (R191). -/
def execWrite (address : Word) (bytes : List Byte) (s : State) : Host.Outcome State Fault Refusal :=
  finish (writeOp address bytes (beginOp s))

/-- `ERASE address` (R192): exactly one Erase cycle. -/
def execErase (address : Word) (s : State) : Host.Outcome State Fault Refusal :=
  finish ((executeCycle ⟨.erase, address, 0⟩ (beginOp s)).map unitResult)

end Sys2Proof.Machine
end

