-- ==== Sys2Proof/Machine/Dispatch.lean ====
section
/-! DEFINITION. One arm for each operation (30_encoding.md R131). -/

namespace Sys2Proof.Machine

def exec (i : Instr) (s : State) : Host.Outcome State Fault Refusal :=
  match i with
  | .cycleRead fla dbc => Sys2Proof.Machine.execCycleRead fla dbc s
  | .cycleWrite fla dbc => Sys2Proof.Machine.execCycleWrite fla dbc s
  | .cycleErase fla => Sys2Proof.Machine.execCycleErase fla s
  | .cycleSfdp fla dbc => Sys2Proof.Machine.execCycleSfdp fla dbc s
  | .cycleJedecid fla dbc => Sys2Proof.Machine.execCycleJedecid fla dbc s
  | .read address length => Sys2Proof.Machine.execRead address length s
  | .write address bytes => Sys2Proof.Machine.execWrite address bytes s
  | .erase address => Sys2Proof.Machine.execErase address s
  | .readJedecId => Sys2Proof.Machine.execReadJedecId s
  | .discoverSfdp => Sys2Proof.Machine.execDiscoverSfdp s
  | .parse image => Sys2Proof.Machine.execParse image s
  | .readRegion id => Sys2Proof.Machine.execReadRegion id s
  | .readProtectedRange index => Sys2Proof.Machine.execReadProtectedRange index s
  | .disableBiosWp => Sys2Proof.Machine.execDisableBiosWp s

end Sys2Proof.Machine
end

