-- ==== Sys2Proof/Machine/HostPort.lean ====
section
/-! DEFINITION. How the engine takes a command from the host (30_encoding.md R132 to R135): what `step` fetches. -/

namespace Sys2Proof.Machine

/-- The command the host presents next, and the state once it has been presented. -/
def takeCommand (s : State) : Option (Command × State) :=
  match s.host.pending with
  | [] => none
  | c :: rest => some (c, s.modHost fun h => { h with pending := rest })

/-- The host presents `c` next, to an engine that is not busy. -/
def present (c : Command) (s : State) : State :=
  (s.modEng fun e => { e with busy := false }).modHost fun h => { h with pending := c :: h.pending }

end Sys2Proof.Machine
end

