-- ==== Sys2Proof/Machine/Step.lean ====
section
/-! DEFINITION. One step: the next command the host presents is decoded and run to its result (R95, R134). -/

namespace Sys2Proof.Machine

/-- With nothing presented the engine waits in `IDLE` (R58). A command presented while `busy` is refused (R380), and so is one
that is no operation (R136). -/
def step (s : State) : Host.Outcome State Fault Refusal :=
  match takeCommand s with
  | none => .next s
  | some (c, t) =>
    if t.eng.busy then .next (refuseBusy t)
    else
      match decode c with
      | .error _ => .next (refuseIllegal t)
      | .ok i => exec i t

/-- `s` with the command of a table word presented next (log entry 16). -/
def State.withFetchWord (s : State) (nbits w : Nat) : State := present (commandOfWord nbits w) s

end Sys2Proof.Machine
end

