-- ==== Sys2Proof/Machine/Sequencer.lean ====
section
/-! DEFINITION. The engine's control transfer at cycle level as the transition table of 40_cycle_engine.md R169: one phase of
the sequencer phase register at a time. `executeCycle` is the same algorithm as the sequential text of R160. -/

namespace Sys2Proof.Machine

/-- What one phase answers: the sequencer goes on, or the cycle ends with an error or (`none`) with `Ok(())`. -/
inductive PhaseResult where
  | goesOn (s : State)
  | ends (e : Option OpError) (s : State)
  deriving DecidableEq, Repr

/-- One row of the transition table of R169, chosen by `pc` and the row's condition. -/
def phaseStep (s : State) : Except Fault PhaseResult :=
  match s.eng.pc with
  | .idle =>
    match s.eng.session with
    | .unchecked => .ok (.goesOn (s.atPhase .check))
    | .enabled => .ok (.goesOn (s.atPhase .addr))
    | .fatal => .ok (.ends (some .hardwareSequencingDisabled) s)
  | .check =>
    let t := phaseCheck s
    if t.eng.session = .fatal then .ok (.ends (some .hardwareSequencingDisabled) (t.atPhase .idle))
    else .ok (.goesOn (t.atPhase .addr))
  | .addr =>
    (phaseAddr s).map fun t => .goesOn (t.atPhase (if t.eng.cmd.kind = .erase then .go else .dbc))
  | .dbc => (phaseDbc s).map fun t => .goesOn (t.atPhase .go)
  | .go => (phaseGo s).map fun t => .goesOn (startPoll t)
  | .poll =>
    let p := pollOnce s
    .ok (.goesOn (p.2.atPhase (if p.1 then .clear else if p.2.eng.pollCount < pollMax then .poll else .sleep)))
  | .sleep => .ok (.goesOn ((phaseSleep s).atPhase .late))
  | .late =>
    let p := phaseLate s
    if p.1 then .ok (.goesOn (p.2.atPhase .clear)) else .ok (.ends (some .cycleTimeout) (p.2.atPhase .idle))
  | .clear => .ok (.goesOn ((phaseClear s).atPhase .verify))
  | .verify => let p := phaseVerify s; .ok (.ends p.1 p.2)

/-- At most `k` phases: the cycle's end, or `none` if it has not ended by then. -/
def runPhases : Nat → State → Except Fault (Option (Option OpError × State))
  | 0, _ => .ok none
  | k + 1, s =>
    match phaseStep s with
    | .error f => .error f
    | .ok (.ends e t) => .ok (some (e, t))
    | .ok (.goesOn t) => runPhases k t

/-- As many phases as a cycle can take: `IDLE`, `CHECK`, `ADDR`, `DBC`, `GO`, 1000 times `POLL`, `SLEEP`, `LATE`, `CLEAR`,
`VERIFY` (R169: "Every path is finite: at most 1000 `POLL` steps"). -/
def maxPhases : Nat := pollMax + 9

end Sys2Proof.Machine
end

