-- ==== Sys2Proof/Safety.lean ====
section
/-! DEFINITION. The terms claims about the machine are made in: the invariant every step keeps, when the engine may issue a
cycle, what the environment draws, and the parts of an access trace. -/

namespace Sys2Proof

/-- The cycle ends within the poll budget: at most 1000 status samples still see it (R155, R156). -/
def CycleDraw.inTime (d : CycleDraw) : Bool :=
  match d.delay with
  | some k => decide (k ≤ pollMax)
  | none => false

/-- The error the step 6 test finds once the cycle has ended (R159). -/
def CycleDraw.verdict (d : CycleDraw) : Option Machine.OpError :=
  if d.aelAfterClear || d.fcerrAfterClear then some (.cycleError d.aelAfterClear d.fcerrAfterClear) else none

/-- The error of a cycle with these draws: a timeout (R157), else that of step 6. -/
def CycleDraw.outcome (d : CycleDraw) : Option Machine.OpError := if d.inTime then d.verdict else some .cycleTimeout

/-- The controller is idle again before the engine next writes a sequencing register (R382). -/
def CycleDraw.settles (d : CycleDraw) : Bool := d.inTime || d.drains

/-- The cycle ends in time, leaves no error bit and has the effect R48 gives it. -/
def CycleDraw.faithful (d : CycleDraw) : Bool :=
  d.inTime && !d.aelAfterClear && !d.fcerrAfterClear && d.effect == .performed

end Sys2Proof

namespace Sys2Proof.Machine

/-! ### The invariant -/

/-- Between operations the engine is idle and its working latches hold nothing of the last one (R22, R23, R29). -/
abbrev EngineAtRest (e : Engine) : Prop := e.rest = e

/-- An index the engine writes has bits `[31:15]` and `[1:0]` zero (30_encoding.md R117). -/
abbrev LegalIndex (v : Word) : Prop := v &&& 0xFFFF8003#32 = 0#32

/-- A latched cycle moves 1 to 64 bytes (20_memory.md R78). -/
abbrev LegalSlot (c : Option InFlight) : Prop := ∀ d ∈ c, 1 ≤ d.count ∧ d.count ≤ windowBytes

/-- What holds between any two steps, whatever the environment does. -/
structure MachineInv (s : State) : Prop where
  atRest : EngineAtRest s.eng
  pollBound : s.eng.pollCount ≤ pollMax
  componentBound : s.eng.component < numSfdpComponents
  flashWf : s.env.flash.wf = true
  addrMasked : maskFla s.ctl.addr = s.ctl.addr
  indexLegal : LegalIndex s.ctl.ptidx
  slotLegal : LegalSlot s.ctl.inflight

/-! ### Readiness and draws -/

/-- No cycle is in flight and a cycle can be issued: the session check has passed, or will pass (R151, R374, R375). -/
abbrev Ready (s : State) : Prop :=
  s.ctl.inflight = none ∧ s.eng.session ≠ .fatal ∧
    (s.eng.session = .unchecked → descriptorValid s.cfg.sts (s.regValue .sts) = true)

/-- The draw of the `i`-th cycle issued from now on (R46). -/
def State.nthDraw (s : State) (i : Nat) : CycleDraw :=
  (s.env.cycleDraws[i]?).getD (Config.freeCycleDraw (s.env.drawCount + i))

/-- The draws of the next `n` cycles satisfy `p`. -/
abbrev NextDraws (p : CycleDraw → Bool) (n : Nat) (s : State) : Prop := ∀ i < n, p (s.nthDraw i) = true

/-- The first error among the next `n` cycles (R186). -/
def firstError (s : State) (n : Nat) : Option OpError := ((List.range n).filterMap fun i => (s.nthDraw i).outcome).head?

/-- Cycles a transfer of `length` bytes in bursts of `burst` issues (R182). -/
def cyclesOf (length burst : Nat) : Nat := length / burst + if length % burst = 0 then 0 else 1

/-- The byte count, less one, of the `i`-th of those cycles: a whole burst, or what is left (R182, R129). -/
def countOf (length burst i : Nat) : Byte := dbcOf (min burst (length - i * burst))

/-- The flash byte `j` above a flash linear address. -/
def flashByte (s : State) (a : Word) (j : Nat) : Byte := s.env.flash.get (flashAddr (a.setWidth 27) j)

/-- A dword of a descriptor at base `D` whose 4096 bytes the image holds: its four bytes, little-endian (R251, R254). -/
def descriptorWord (image : List Byte) (D off : Nat) : Word :=
  Word.ofBytes (image.getD (D + off) 0) (image.getD (D + off + 1) 0) (image.getD (D + off + 2) 0)
    (image.getD (D + off + 3) 0)

/-! ### Parts of a trace -/

/-- The values written to `HSQ_ADDR`, in order. -/
def addrWrites (t : List Event) : List Word := t.filterMap fun e => match e with
  | .write .addr v => some v
  | _ => none

/-- The writes of the address, of the control register and of the data slots, in order. -/
def sequencingWrites (t : List Event) : List Event := t.filter fun e => match e with
  | .write r _ => sequencing r
  | .write8 r _ _ => sequencing r
  | _ => false

/-- The status samples, in order. -/
def statusSamples (t : List Event) : List Word := t.filterMap fun e => match e with
  | .read .sts v => some v
  | _ => none

/-- The number of suspensions. -/
def sleeps (t : List Event) : Nat := t.countP fun e => match e with
  | .sleep _ => true
  | _ => false

/-- The index and the value of each `HSQ_PTIDX` write followed by an `HSQ_PTDATA` read (R218). -/
def ptReads (s : State) (indices : List Word) : List Event :=
  indices.flatMap fun v => [.write .ptidx v, .read .ptdata (s.env.sfdpIndex.dword v.toNat)]

/-! ### The SFDP walk -/

/-- The index at offset `off` above component `c`'s base, `c << 14` (R217). -/
def sfdpIndexOf (c off : Nat) : Word := BitVec.ofNat 32 (0x4000 * c + off)

/-- The dword of the index space there. -/
def sfdpWord (s : State) (c off : Nat) : Word := s.env.sfdpIndex.dword (0x4000 * c + off)

/-- Component `c` answers with the signature (R219). -/
abbrev SfdpFound (s : State) (c : Nat) : Prop := sfdpWord s c 0 = 0x50444653#32

/-- The number of parameter headers component `c` reports (R220). -/
def sfdpHeaders (s : State) (c : Nat) : Nat := ((sfdpWord s c 4).byte 2).toNat + 1

/-- The length of its first parameter table in dwords (R221, R226). -/
def sfdpTableLength (s : State) (c : Nat) : Nat := (field s.cfg.sfdpPh.length (sfdpWord s c 0x1000)).toNat % 2 ^ 8

/-- The indices read before any Sfdp cycle, and those of the table dump (R219 to R221, R226). -/
def sfdpHeadReads (c : Nat) : List Word := [sfdpIndexOf c 0, sfdpIndexOf c 4, sfdpIndexOf c 0x1000]
@[inherit_doc sfdpHeadReads] def sfdpTableReads (s : State) (c : Nat) : List Word :=
  (List.range (sfdpTableLength s c)).map fun k => sfdpIndexOf c (0x2000 + 4 * k)

/-- The record of a found component with these further headers, field by field from the index space (R220, R221, R226, R227;
the bit positions are those of the configured layout). -/
def sfdpRecord (s : State) (c : Nat) (further : List SfdpParameterHeader) : SfdpComponent :=
  let l := s.cfg.sfdpPh
  let d1 := sfdpWord s c 0x1000
  { sfdpMinor := (sfdpWord s c 4).byte 0
    sfdpMajor := (sfdpWord s c 4).byte 1
    numHeaders := sfdpHeaders s c
    headers :=
      { id := field l.idLow d1
        majorVersion := (field l.major d1).setWidth 8
        minorVersion := (field l.minor d1).setWidth 8
        lengthDwords := (field l.length d1).setWidth 8
        tablePointer := none } :: further
    table := (List.range (sfdpTableLength s c)).map fun k => sfdpWord s c (0x2000 + 4 * k) }

/-- The walk reaches component `c` without having issued an Sfdp cycle (R222). -/
abbrev SfdpReaches (s : State) (c : Nat) : Prop :=
  c = 0 ∨ (c = 1 ∧ (SfdpFound s 0 → sfdpHeaders s 0 = 1))

/-- The indices component `c` costs where it needs no Sfdp cycle, and those read before and after it (R217). -/
def sfdpReads (s : State) (c : Nat) : List Word :=
  if SfdpFound s c then sfdpHeadReads c ++ sfdpTableReads s c else [sfdpIndexOf c 0]
@[inherit_doc sfdpReads] def sfdpReadsBefore (s : State) (c : Nat) : List Word := if c = 1 then sfdpReads s 0 else []
@[inherit_doc sfdpReads] def sfdpReadsAfter (s : State) (c : Nat) : List Word := if c = 0 then sfdpReads s 1 else []

/-- The entry of component `c` where it needs no Sfdp cycle (R219, R222). -/
def sfdpEntry (s : State) (c : Nat) : Option SfdpComponent := if SfdpFound s c then some (sfdpRecord s c []) else none

/-! ### The access sequence of one cycle (R160) -/

/-- The sample of the session check, where it is made (R151). -/
def checkTrace (s : State) : List Event :=
  if s.eng.session = .unchecked then [.read .sts (s.regValue .sts)] else []

/-- Steps 1 to 3 (R152 to R154). -/
def issueTrace (cfg : Config) (k : CycleKind) (fla : Word) (dbc : Byte) : List Event :=
  [.write .addr (fla &&& 0x07FFFFFF#32)] ++ (if k = .erase then [] else [.write8 .ctl cfg.ctl.dbcByte dbc]) ++
    [.write8 .ctl 0 (cycByte cfg k)]

/-- The status word while the cycle is in flight. -/
def busySample (s : State) : Word := statusWord s.cfg.sts true s.ctl.sts

/-- The status word once the cycle with draw `d` has ended (R46). -/
def idleSample (s : State) (d : CycleDraw) : Word := statusWord s.cfg.sts false (endStatus s.cfg.sts d s.ctl.sts)

/-- The re-sample after the clear write (R158). -/
def clearedSample (s : State) (d : CycleDraw) : Word :=
  statusWord s.cfg.sts false
    (clearStatus s.cfg.sts (w1cPattern s.cfg.sts) d.aelAfterClear d.fcerrAfterClear (endStatus s.cfg.sts d s.ctl.sts))

/-- The clear write of step 5 in the configured width (R158). -/
def clearEvent (cfg : Config) : Event :=
  match cfg.stsWriteWidth with
  | .one => .write8 .sts 0 ((w1cPattern cfg.sts).byte 0)
  | .four => .write .sts (w1cPattern cfg.sts)

/-- Steps 4 and 5 of a cycle with draw `d` (R155 to R158). -/
def pollTrace (s : State) (d : CycleDraw) : List Event :=
  let tail := [.read .sts (idleSample s d), clearEvent s.cfg, .read .sts (clearedSample s d)]
  match d.delay with
  | some k =>
    if k < pollMax then List.replicate k (.read .sts (busySample s)) ++ tail
    else if k = pollMax then List.replicate pollMax (.read .sts (busySample s)) ++ [.sleep sleepMs] ++ tail
    else List.replicate pollMax (.read .sts (busySample s)) ++ [.sleep sleepMs, .read .sts (busySample s)]
  | none => List.replicate pollMax (.read .sts (busySample s)) ++ [.sleep sleepMs, .read .sts (busySample s)]

/-! ### Operations -/

/-- The five cycle kinds as operations (R131); an Erase cycle has no byte count operand. -/
def cycleInstr (k : CycleKind) (fla : Word) (dbc : Byte) : Instr :=
  match k with
  | .read => .cycleRead fla dbc
  | .write => .cycleWrite fla dbc
  | .erase => .cycleErase fla
  | .jedecId => .cycleJedecid fla dbc
  | .sfdp => .cycleSfdp fla dbc

/-- A cycle of kind `k` with this byte count may be presented (R136, R167, R168; log entry 22). -/
abbrev Admitted (s : State) (k : CycleKind) (dbc : Byte) : Prop := kindAdmitted s.cfg k = true ∧ dbc.toNat ≤ 63

/-- The result of an operation that returns nothing on success. -/
def unitOutcome (e : Option OpError) : OpResult :=
  match e with
  | none => .ok .nothing
  | some e => .err e

/-- Whether the operation can issue a cycle (R348). -/
def issuesCycles : Instr → Bool
  | .parse _ => false
  | .readRegion _ => false
  | .readProtectedRange _ => false
  | .disableBiosWp => false
  | _ => true

/-- The results an operation may deliver: the value type of its contract (R131, R134) and its error type (R341). -/
def admitsResult : Instr → OpResult → Bool
  | _, .err .illegalCommand => true
  | .parse _, .ok (.descriptor _) => true
  | .parse _, .err e => e == .signatureNotFound || e == .truncatedImage || e == .malformedDescriptor
  | .readRegion _, .ok (.region _) => true
  | .readProtectedRange _, .ok (.range _) => true
  | .disableBiosWp, .ok (.bool b) => b
  | .disableBiosWp, .err (.protectionStateUnverified _ _) => true
  | .read _ length, .ok (.bytes bs) => bs.length == length.toNat
  | .readJedecId, .ok (.jedec _) => true
  | .readJedecId, .err .unsupportedJedecCycle => true
  | .discoverSfdp, .ok (.sfdp _) => true
  | .discoverSfdp, .err .dataWindowExhausted => true
  | i, .err (.cycleError a f) => issuesCycles i && (a || f)
  | i, .err .cycleTimeout => issuesCycles i
  | i, .err .hardwareSequencingDisabled => issuesCycles i
  | .cycleRead _ _, .ok .nothing => true
  | .cycleWrite _ _, .ok .nothing => true
  | .cycleErase _, .ok .nothing => true
  | .cycleSfdp _ _, .ok .nothing => true
  | .cycleJedecid _ _, .ok .nothing => true
  | .write _ _, .ok .nothing => true
  | .erase _, .ok .nothing => true
  | _, _ => false

/-! ### Frames -/

/-- What no operation of the engine changes: the configuration, the registers read-only to it, the SFDP contents, the
identity (R36, R37, R92, R373), and what the host will present. -/
structure FixedPart (s t : State) : Prop where
  cfg : t.cfg = s.cfg
  freg : t.ctl.freg = s.ctl.freg
  pr : t.ctl.pr = s.ctl.pr
  sfdpIndex : t.env.sfdpIndex = s.env.sfdpIndex
  sfdpArea0 : t.env.sfdpArea0 = s.env.sfdpArea0
  sfdpArea1 : t.env.sfdpArea1 = s.env.sfdpArea1
  jedecRaw : t.env.jedecRaw = s.env.jedecRaw
  pending : t.host.pending = s.host.pending

/-- What an operation that writes no register and issues no cycle leaves besides: the controller, the environment, and every
latch of the engine but those at rest between operations, the failure flag and the burst index. -/
structure Untouched (s t : State) : Prop extends FixedPart s t where
  ctl : t.ctl = s.ctl
  env : t.env = s.env
  eng : t.eng = { s.eng.rest with failed := false, burstIndex := t.eng.burstIndex }

/-- What a cycle leaves of the controller's registers: `BIOS_CTL`, `HSQ_PTIDX`, bytes 2 and 3 of `HSQ_CTL`, and every stored
status bit but `FDONE`, `FCERR` and `AEL`. -/
structure CycleFrame (s t : State) : Prop extends FixedPart s t where
  biosCtl : t.ctl.biosCtl = s.ctl.biosCtl
  biosWeOpen : t.ctl.biosWeOpen = s.ctl.biosWeOpen
  ptidx : t.ctl.ptidx = s.ctl.ptidx
  ctlHigh : ∀ n < 32, n / 8 ≠ 0 → n / 8 ≠ s.cfg.ctl.dbcByte → t.ctl.ctl.getLsbD n = s.ctl.ctl.getLsbD n
  stsBits : ∀ n, n ≠ s.cfg.sts.fdone → n ≠ s.cfg.sts.fcerr → n ≠ s.cfg.sts.ael →
    t.ctl.sts.getLsbD n = s.ctl.sts.getLsbD n
  session : t.eng.session = s.eng.session ∨ s.eng.session = .unchecked

end Sys2Proof.Machine
end

