-- ==== Sys2Proof/Certificates/Slice0/Obligations.lean ====
section
/-! DEFINITION. The statements for the provers. Each docstring names the rules it formalises; where a statement rests on a
choice of the model it names the log entry. -/

open Sys2Proof Sys2Proof.Machine

/-! ### Encodings -/

/-- Decoding an encoded well-formed operation gives it back, for every operand (30_encoding.md R114, R132, R133, R136). -/
def Obligations.DecodeOfEncode : Prop := ∀ i : Instr, i.wellFormed = true → decode (encode i) = .ok i

/-- Words written out from the encodings decode to the operations they stand for (R113, R114, R132, R140). The frames are the
spec's; that a cycle is presented as six bytes in this order is the model's choice (log entry 16), and its first byte is the
spec's default code (log entry 5). -/
def Obligations.SpecWordsDecode : Prop :=
  decode (.cycle [0x01, 0x03, 0x00, 0x10, 0x00, 0x00]) = .ok (.cycleRead 0x00001000 3) ∧
  decode (.cycle [0x07, 0xFF, 0x00, 0x00, 0x01, 0x00]) = .ok (.cycleErase 0x00010000) ∧
  decode (.frame [0x00000001, 0x00001000, 0x00000006] []) = .ok (.read 0x1000 6) ∧
  decode (.frame [0x00000002, 0x00001000, 0x00000002] [0xDE, 0xAD]) = .ok (.write 0x1000 [0xDE, 0xAD]) ∧
  decode (.frame [0x00000307, 0x00000000, 0x00000000] []) = .ok (.readRegion 3) ∧
  decode (.frame [0x00000009, 0x00000000, 0x00000000] []) = .ok .disableBiosWp

/-- The decoder accepts well-formed operations only, and each in its one encoding, but for the byte count of an Erase cycle,
which is ignored (R136, R139, R166). That a payload of another length than the frame states is refused, and the image form of a
cycle, are the model's choices (log entries 17 and 16). -/
def Obligations.DecodedIsEncoded : Prop :=
  ∀ (c : Command) (i : Instr), decode c = .ok i →
    i.wellFormed = true ∧ (c = encode i ∨ ∃ fla dbc, i = .cycleErase fla ∧ c = cycleImage 0x07 dbc fla)

/-- The illegal encodings of R136 are rejected: an operation outside `0x01..0x09`, reserved bits, an unused `arg`, `address` or
`length`, a region id above 11, a range index above 4, a byte count above 63 (in the model's image form of a cycle, log entry 16,
where `0x07` is the default byte of Erase, log entry 5); and operands outside those ranges are refused in the same way when the
operation is presented directly. Payloads of `2^32` bytes and more, which no frame can carry, are left out. A JedecId or Sfdp
cycle presented where the control register has no cycle-type field is not admitted (R167, R168); that it is refused in the same
way is the model's choice (log entry 22). -/
def Obligations.IllegalEncodingsRejected : Prop :=
  (∀ (w0 w1 w2 : Word) (p : List Byte),
    let op := (w0.byte 0).toNat
    (op < 1 ∨ 9 < op ∨ w0 >>> 16 ≠ 0 ∨ (w0.byte 1 ≠ 0 ∧ op ≠ 7 ∧ op ≠ 8) ∨ (w1 ≠ 0 ∧ 4 ≤ op) ∨
        (w2 ≠ 0 ∧ op ≠ 1 ∧ op ≠ 2 ∧ op ≠ 6) ∨ (op = 7 ∧ 11 < (w0.byte 1).toNat) ∨ (op = 8 ∧ 4 < (w0.byte 1).toNat)) →
      ∃ e, decode (.frame [w0, w1, w2] p) = .error e) ∧
  (∀ (c d a0 a1 a2 a3 : Byte), 63 < d.toNat → c ≠ 0x07 → ∃ e, decode (.cycle [c, d, a0, a1, a2, a3]) = .error e) ∧
  (∀ (i : Instr) (s : State),
    ((i.wellFormed = false ∧ (∀ a bs, i ≠ .write a bs) ∧ ∀ im, i ≠ .parse im) ∨
      (s.cfg.hasCycleTypeField = false ∧ ∃ fla dbc, i = .cycleJedecid fla dbc ∨ i = .cycleSfdp fla dbc)) →
    ∃ t, exec i s = .next t ∧ t.host.result = some (.err .illegalCommand) ∧ t.host.trace = [] ∧ t.eng = s.eng ∧
      t.ctl = s.ctl ∧ t.env = s.env ∧ t.cfg = s.cfg)

/-- A command that is no operation is refused with `IllegalCommand`, with no Register Port access and no change of state but
the result and the record of the last operation's accesses (R136, R340). -/
def Obligations.IllegalCommandChangesNothing : Prop :=
  ∀ (s : State) (c : Command) (rest : List Command) (e : DecodeError), s.host.pending = c :: rest → s.eng.busy = false →
    decode c = .error e →
    ∃ t, step s = .next t ∧ t.host.result = some (.err .illegalCommand) ∧ t.host.trace = [] ∧ t.host.pending = rest ∧
      t.eng = s.eng ∧ t.ctl = s.ctl ∧ t.env = s.env ∧ t.cfg = s.cfg

/-! ### The step -/

/-- A step takes the next command the host presents and runs the operation it decodes to; nothing else happens around it
(R95, R132, R134; how commands are presented is log entry 16). -/
def Obligations.StepRunsDecoded : Prop :=
  ∀ (s : State) (c : Command) (rest : List Command) (i : Instr), s.host.pending = c :: rest → s.eng.busy = false →
    decode c = .ok i → step s = exec i { s with host := { s.host with pending := rest } }

/-- With nothing presented the engine waits; a command presented while `busy` is refused, is not latched, and changes nothing
else (R58, R380). That the refusal is what `host.result` then holds, and that the access record stays, is DEDUCED (log entry 18). -/
def Obligations.StepWaitsOrRefuses : Prop :=
  (∀ s : State, s.host.pending = [] → step s = .next s) ∧
  ∀ (s : State) (c : Command) (rest : List Command), s.host.pending = c :: rest → s.eng.busy = true →
    ∃ t, step s = .next t ∧ t.host.result = some (.err .illegalCommand) ∧ t.host.pending = rest ∧
      t.host.trace = s.host.trace ∧ t.eng = s.eng ∧ t.ctl = s.ctl ∧ t.env = s.env ∧ t.cfg = s.cfg

/-! ### Reset and invariants -/

/-- What reset leaves in the engine, and that it does nothing else (R371). -/
def Obligations.ResetEngineState : Prop :=
  ∀ s : State,
    let t := resetEngine s
    t.eng.pc = .idle ∧ t.eng.busy = false ∧ t.eng.session = .unchecked ∧ t.eng.pollCount = 0 ∧ t.eng.burstIndex = 0 ∧
      t.eng.component = 0 ∧ t.eng.header = 0 ∧ t.eng.failed = false ∧ t.eng.errFirst = none ∧ t.eng.buf = [] ∧
      t.ctl = s.ctl ∧ t.env = s.env ∧ t.cfg = s.cfg ∧ t.host.trace = [] ∧ State.reset.eng = t.eng

/-- The invariant holds right after reset. The values there that the spec leaves open are the model's own: the working latches
(log entry 2), the controller's registers (log entry 1), the environment (log entry 3). -/
def Obligations.ResetInvariant : Prop := MachineInv State.reset

/-- EVERY STEP KEEPS THE INVARIANT: the engine at rest, the poll counter within its bound, component 0 or 1, flash in canonical
form, the address register masked, the index legal, a latched cycle of 1 to 64 bytes (R22, R24, R29, R31, R78, R117). -/
def Obligations.StepKeepsInvariant : Prop := ∀ s t : State, MachineInv s → step s = .next t → MachineInv t

/-- No operation changes the configuration (R373), `FREG` or `PR` (R36, R37), the SFDP contents or the identity (environment
state, R20, which R35 and R48 give the engine to read only; that a departing cycle changes nothing but flash and the window is
log entry 10). -/
def Obligations.FixedPartKept : Prop := ∀ (i : Instr) (s t : State), exec i s = .next t → FixedPart s t

/-- The session latch leaves `Unchecked` only, and only in an operation that issues cycles (R28, R309). -/
def Obligations.SessionLatch : Prop :=
  ∀ (i : Instr) (s t : State), exec i s = .next t →
    t.eng.session = s.eng.session ∨ (s.eng.session = .unchecked ∧ issuesCycles i = true)

/-- Every operation that runs to its end delivers one result of its own value type or of its own error type, and leaves the
engine idle and not busy (R134, R341, R345). -/
def Obligations.ResultsAreTyped : Prop :=
  ∀ (i : Instr) (s t : State), exec i s = .next t →
    ∃ r, t.host.result = some r ∧ admitsResult i r = true ∧
      (r ≠ .err .illegalCommand → t.eng.pc = .idle ∧ t.eng.busy = false)

/-! ### Cycles -/

/-- A CYCLE IS THE ALGORITHM OF R160, ACCESS BY ACCESS: with a consistent configuration and a controller that is idle, each of
the five cycle kinds (`CYCLE.READ`, `CYCLE.WRITE`, `CYCLE.ERASE`, `CYCLE.JEDECID`, `CYCLE.SFDP`) delivers the outcome its draws
give, after exactly the accesses of R151 to R158 in that order. The sampled values rest on the form of the draws and of the status
word (log entries 6, 9, 28 and 29). -/
def Obligations.CycleRuns : Prop :=
  ∀ (k : CycleKind) (fla : Word) (dbc : Byte) (s : State), s.cfg.wellFormed = true → Ready s → Admitted s k dbc →
    ∃ t, exec (cycleInstr k fla dbc) s = .next t ∧ t.host.result = some (unitOutcome s.cycleDraw.outcome) ∧
      t.host.trace = checkTrace s ++ issueTrace s.cfg k fla dbc ++ pollTrace s s.cycleDraw ∧
      t.ctl.addr = fla &&& 0x07FFFFFF#32 ∧
      t.eng = { s.eng.rest with
        failed := false
        session := .enabled
        pollCount := match s.cycleDraw.delay with
          | some j => min (j + 1) 1000
          | none => 1000 }

/-- Access counts: status reads, accesses without the sleep, and sleeps (R163; `k` there is one more than the samples that see
the cycle). -/
def Obligations.CycleAccessCounts : Prop :=
  ∀ (k : CycleKind) (fla : Word) (dbc : Byte) (s t : State), s.cfg.wellFormed = true → Ready s → Admitted s k dbc →
    exec (cycleInstr k fla dbc) s = .next t →
    let c := if s.eng.session = .unchecked then 1 else 0
    let d := if k = .erase then 0 else 1
    let reads := (statusSamples t.host.trace).length
    let accesses := t.host.trace.length - sleeps t.host.trace
    (∀ j, s.cycleDraw.delay = some j → j < 1000 →
      reads = c + (j + 1) + 1 ∧ accesses = c + (j + 1) + d + 4 ∧ sleeps t.host.trace = 0) ∧
    (s.cycleDraw.delay = some 1000 → reads = c + 1002 ∧ accesses = c + 1002 + (d + 3) ∧ sleeps t.host.trace = 1) ∧
    (s.cycleDraw.inTime = false → reads = c + 1001 ∧ accesses = c + 1001 + (d + 2) ∧ sleeps t.host.trace = 1)

/-- Success iff, after the clear write, neither error bit is set: the verdict of a cycle that ended in time is read off the
last status sample, and that sample alone (R159). -/
def Obligations.VerdictIsTheResample : Prop :=
  ∀ (k : CycleKind) (fla : Word) (dbc : Byte) (s : State), s.cfg.wellFormed = true → Ready s → Admitted s k dbc →
    s.cycleDraw.inTime = true →
    ∃ t v, exec (cycleInstr k fla dbc) s = .next t ∧ t.host.trace.getLast? = some (.read .sts v) ∧
      t.host.result = some (
        if v.getLsbD s.cfg.sts.ael = false ∧ v.getLsbD s.cfg.sts.fcerr = false then .ok .nothing
        else .err (.cycleError (v.getLsbD s.cfg.sts.ael) (v.getLsbD s.cfg.sts.fcerr)))

/-- A cycle that never ends within the poll budget is a timeout: the last access is the late sample, nothing is cleared, and the
cycle stays in flight with `SCIP` 1 (R157). That neither the window nor flash has changed by then is the model's choice: a
cycle's effects happen when it ends (D34 step 4, log entry 7). -/
def Obligations.CycleTimesOut : Prop :=
  ∀ (k : CycleKind) (fla : Word) (dbc : Byte) (s : State), s.cfg.wellFormed = true → Ready s → Admitted s k dbc →
    s.cycleDraw.inTime = false →
    ∃ t, exec (cycleInstr k fla dbc) s = .next t ∧ t.host.result = some (.err .cycleTimeout) ∧
      t.host.trace.getLast? = some (.read .sts (busySample s)) ∧ clearEvent s.cfg ∉ t.host.trace ∧
      t.ctl.inflight.isSome = true ∧ (t.regValue .sts).getLsbD s.cfg.sts.scip = true ∧ t.ctl.sts = s.ctl.sts ∧
      t.ctl.window = s.ctl.window ∧ t.env.flash = s.env.flash ∧ t.eng.pc = .idle

/-- The check: `FDV = 0` at the first cycle of a session makes the session fatal after one access, and nothing else is touched
(R151). -/
def Obligations.DisabledSequencingIsFatal : Prop :=
  ∀ (k : CycleKind) (fla : Word) (dbc : Byte) (s : State), s.eng.session = .unchecked → s.ctl.inflight = none →
    Admitted s k dbc → (s.regValue .sts).getLsbD s.cfg.sts.fdv = false →
    ∃ t, exec (cycleInstr k fla dbc) s = .next t ∧ t.host.result = some (.err .hardwareSequencingDisabled) ∧
      t.eng.session = .fatal ∧ t.host.trace = [.read .sts (s.regValue .sts)] ∧ t.ctl = s.ctl ∧ t.env = s.env

/-- In a fatal session `CYCLE.*`, `ERASE`, `READ` with a length and `READ_JEDEC_ID` with the capability fail at once with no
access; a `WRITE` of at least one byte has packed slot 0 when it fails; and `DISCOVER_SFDP` fails when it reaches its Sfdp cycle,
after indexed reads only (R331, R348, R191). -/
def Obligations.FatalSessionFails : Prop :=
  (∀ (i : Instr) (s : State), s.eng.session = .fatal → i.wellFormed = true →
    ((∃ k fla dbc, i = cycleInstr k fla dbc ∧ Admitted s k dbc) ∨ (∃ a, i = .erase a) ∨ (∃ a n, i = .read a n ∧ n ≠ 0) ∨
      (i = .readJedecId ∧ s.cfg.hasCycleTypeField = true)) →
    ∃ t, exec i s = .next t ∧ t.host.result = some (.err .hardwareSequencingDisabled) ∧ t.host.trace = [] ∧
      t.eng.session = .fatal ∧ t.ctl = s.ctl ∧ t.env = s.env) ∧
  (∀ (a : Word) (bs : List Byte) (s : State), s.eng.session = .fatal → s.ctl.inflight = none → bs ≠ [] →
    ∃ t, exec (.write a bs) s = .next t ∧ t.host.result = some (.err .hardwareSequencingDisabled) ∧
      t.host.trace = [.write (.data 0) (packLe (bs.take 4))] ∧ t.eng.session = .fatal ∧
      t.ctl = { s.ctl with window := s.ctl.window.set 0 (packLe (bs.take 4)) } ∧ t.env = s.env) ∧
  (∀ (c : Nat) (s : State), s.eng.session = .fatal → s.cfg.hasCycleTypeField = true → SfdpReaches s c → SfdpFound s c →
    sfdpHeaders s c ≠ 1 →
    ∃ t, exec .discoverSfdp s = .next t ∧ t.host.result = some (.err .hardwareSequencingDisabled) ∧
      t.host.trace = ptReads s (sfdpReadsBefore s c ++ sfdpHeadReads c) ∧ t.eng.session = .fatal ∧
      t.ctl = { s.ctl with ptidx := sfdpIndexOf c 0x1000 } ∧ t.env = s.env)

/-- A sequencing write while an earlier cycle is in flight and will not end first has no meaning, in every operation that comes
to make one (R45, R347, R382, entry U3; that the write of the address or of a slot is the one that stops is log entry 8). -/
def Obligations.BusyControllerFaults : Prop :=
  ∀ (s : State) (c : InFlight), s.ctl.inflight = some c → c.draw.drains = false → s.eng.session = .enabled →
    (∀ k fla dbc, Admitted s k dbc → exec (cycleInstr k fla dbc) s = .fault .cycleInFlight) ∧
    (∀ a, exec (.erase a) s = .fault .cycleInFlight) ∧ (∀ a n, n ≠ 0 → exec (.read a n) s = .fault .cycleInFlight) ∧
    (∀ a bs, bs ≠ [] → exec (.write a bs) s = .fault .cycleInFlight) ∧
    (s.cfg.hasCycleTypeField = true →
      exec .readJedecId s = .fault .cycleInFlight ∧
      ∀ j, SfdpReaches s j → SfdpFound s j → sfdpHeaders s j ≠ 1 → exec .discoverSfdp s = .fault .cycleInFlight)

/-- `CYCLE.READ` puts flash bytes `FLA .. FLA + dbc` into window bytes `0 .. dbc` (R164, R48; that a count past the top of flash
wraps is the model's choice, log entry 34). -/
def Obligations.ReadCycleFillsWindow : Prop :=
  ∀ (fla : Word) (dbc : Byte) (s : State), s.cfg.wellFormed = true → Ready s → dbc.toNat ≤ 63 →
    s.cycleDraw.inTime = true → s.cycleDraw.effect = .performed →
    ∃ t, exec (.cycleRead fla dbc) s = .next t ∧ t.host.result = some (unitOutcome s.cycleDraw.verdict) ∧
      (∀ j ≤ dbc.toNat, windowByte t.ctl.window j = flashByte s fla j) ∧ t.env.flash = s.env.flash ∧
      t.ctl.inflight = none

/-- `CYCLE.WRITE` stores window bytes `0 .. dbc` to flash addresses `FLA .. FLA + dbc` and to no other; the window keeps its
contents (R165, R48; the wrap past the top of flash: log entry 34). -/
def Obligations.WriteCycleStores : Prop :=
  ∀ (fla : Word) (dbc : Byte) (s : State), s.cfg.wellFormed = true → Ready s → dbc.toNat ≤ 63 → s.env.flash.wf = true →
    s.cycleDraw.inTime = true → s.cycleDraw.effect = .performed →
    ∃ t, exec (.cycleWrite fla dbc) s = .next t ∧ t.host.result = some (unitOutcome s.cycleDraw.verdict) ∧
      (∀ j ≤ dbc.toNat, t.env.flash.get (flashAddr (fla.setWidth 27) j) = windowByte s.ctl.window j) ∧
      (∀ x, (∀ j ≤ dbc.toNat, x ≠ flashAddr (fla.setWidth 27) j) → t.env.flash.get x = s.env.flash.get x) ∧
      t.ctl.window = s.ctl.window ∧ t.ctl.inflight = none

/-- `CYCLE.ERASE` and `ERASE` erase the block of `ERASE_BLOCK_BYTES` that holds the address and no other byte; what the block
then holds is the environment's (R166, R192, entry U6; that blocks are counted from address 0 and cut at the top of flash is
log entry 13); the window is not changed, and the byte count byte of the control
register keeps what it held (R153, R384). -/
def Obligations.EraseErasesBlock : Prop :=
  ∀ (fla : Word) (i : Instr) (s : State), (i = .cycleErase fla ∨ i = .erase fla) → s.cfg.wellFormed = true → Ready s →
    s.env.flash.wf = true → s.cycleDraw.inTime = true → s.cycleDraw.effect = .performed →
    let start := eraseStart s.cfg.eraseBlockBytes (fla.setWidth 27)
    let size := s.cfg.eraseBlockBytes
    start ≤ fla.toNat % 2 ^ 27 ∧ fla.toNat % 2 ^ 27 < start + size ∧ size ∣ start ∧
    ∃ t, exec i s = .next t ∧ t.host.result = some (unitOutcome s.cycleDraw.verdict) ∧
      (∀ x, start ≤ x → x < start + size → x < flashSize →
        t.env.flash.get x = s.cycleDraw.erased.getD (x - start) s.cycleDraw.erasedFill) ∧
      (∀ x, (x < start ∨ start + size ≤ x ∨ flashSize ≤ x) → t.env.flash.get x = s.env.flash.get x) ∧
      t.ctl.window = s.ctl.window ∧ t.ctl.ctl.byte s.cfg.ctl.dbcByte = s.ctl.ctl.byte s.cfg.ctl.dbcByte ∧
      t.ctl.inflight = none

/-- `CYCLE.JEDECID` with `dbc = 3` puts the identity dword into slot 0 (R167, R48, R120). -/
def Obligations.JedecCycleFillsSlot : Prop :=
  ∀ (fla : Word) (s : State), s.cfg.wellFormed = true → s.cfg.hasCycleTypeField = true → Ready s →
    s.cycleDraw.inTime = true → s.cycleDraw.effect = .performed →
    ∃ t, exec (.cycleJedecid fla 3) s = .next t ∧ t.host.result = some (unitOutcome s.cycleDraw.verdict) ∧
      t.ctl.window.get 0 = s.env.jedecRaw ∧ t.env.flash = s.env.flash ∧ t.ctl.inflight = none

/-- `CYCLE.SFDP` puts the bytes of the SFDP area the environment chooses into window bytes `0 .. dbc` (R168, R48, entry U8). -/
def Obligations.SfdpCycleFillsWindow : Prop :=
  ∀ (fla : Word) (dbc : Byte) (s : State), s.cfg.wellFormed = true → s.cfg.hasCycleTypeField = true → Ready s →
    dbc.toNat ≤ 63 → s.cycleDraw.inTime = true → s.cycleDraw.effect = .performed →
    ∃ t, exec (.cycleSfdp fla dbc) s = .next t ∧ t.host.result = some (unitOutcome s.cycleDraw.verdict) ∧
      (∀ j ≤ dbc.toNat, windowByte t.ctl.window j =
        (s.sfdpArea s.cycleDraw.secondComponent).get (fla.toNat % 2 ^ 27 + j)) ∧
      t.env.flash = s.env.flash ∧ t.ctl.inflight = none

/-- What every operation that issues cycles leaves of the controller, whatever the environment does: `BIOS_CTL`, the control
register's bytes but the two it writes, the status bits but the completion and error bits; all but `DISCOVER_SFDP` leave the
index register (R30, R33, R115, R309). That `BIOS_CTL` is left rests on log entry 14: what system-management code does to it
shows at the next read. -/
def Obligations.CycleOperationsFrame : Prop :=
  ∀ (i : Instr) (s t : State), issuesCycles i = true → exec i s = .next t →
    CycleFrame s { t with ctl := { t.ctl with ptidx := s.ctl.ptidx } } ∧ (i ≠ .discoverSfdp → t.ctl.ptidx = s.ctl.ptidx)

/-- The operations that only read leave every byte of flash as it was, from an idle controller, also when a cycle fails or
times out (R48, R164, R167, R168). The model's choices: that a departing cycle of these kinds does not write flash (log entry
11), and that no other flash master does (log entry 36). -/
def Obligations.ReadingLeavesFlash : Prop :=
  ∀ (i : Instr) (s t : State), s.cfg.wellFormed = true → s.ctl.inflight = none →
    ((∃ a n, i = .read a n) ∨ (∃ a d, i = .cycleRead a d) ∨ i = .readJedecId ∨ i = .discoverSfdp ∨
      (∃ a d, i = .cycleSfdp a d) ∨ (∃ a d, i = .cycleJedecid a d)) →
    exec i s = .next t → t.env.flash = s.env.flash

/-- The operations that write or erase leave the window as it was, whatever their cycles do: but for slot 0 in a `WRITE`, no
byte of it changes (R21, R78, R385). -/
def Obligations.WritingLeavesWindow : Prop :=
  ∀ (i : Instr) (s t : State), s.cfg.wellFormed = true → s.ctl.inflight = none → exec i s = .next t →
    ((∃ a d, i = .cycleWrite a d) ∨ (∃ a, i = .cycleErase a) ∨ (∃ a, i = .erase a) → t.ctl.window = s.ctl.window) ∧
    ((∃ a bs, i = .write a bs) → ∀ j : Fin 16, j ≠ 0 → t.ctl.window.get j = s.ctl.window.get j)

/-- Whatever happens, a cycle takes at most 1003 status samples (the check, 1001 polls, the re-sample) and sleeps at most once
(R155, R156, R352). -/
def Obligations.CycleIsBounded : Prop :=
  ∀ (k : CycleKind) (fla : Word) (dbc : Byte) (s t : State), exec (cycleInstr k fla dbc) s = .next t →
    (statusSamples t.host.trace).length ≤ 1003 ∧ sleeps t.host.trace ≤ 1 ∧ (addrWrites t.host.trace).length ≤ 1

/-- THE TRANSITION TABLE IS THE ALGORITHM: running the phase table of R169 from `IDLE` for as many phases as a cycle can take
gives exactly what the sequential text of R160 gives. -/
def Obligations.PhaseTableIsAlgorithm : Prop :=
  ∀ (c : CycleCommand) (s : State),
    runPhases maxPhases ((latchCommand c s).atPhase .idle) = (executeCycle c s).map some

/-- `Ok` does not say that the flash cycle did its work: there is a state satisfying the invariant from which a `WRITE`
returns `Ok` and the byte is not in flash (R383, entry U5). -/
def Obligations.OkDoesNotMeanWritten : Prop :=
  ∃ s t : State, MachineInv s ∧ Ready s ∧ exec (.write 0 [0xAB]) s = .next t ∧ t.host.result = some (.ok .nothing) ∧
    t.env.flash.get 0 ≠ 0xAB

/-! ### Transfers -/

/-- READ DELIVERS FLASH: when the cycles do what R48 says, `READ` returns exactly `length` bytes, byte `j` being the flash
byte at `address + j`, and leaves flash as it was (R180, R184, R185, R187; the wrap past the top of flash: log
entry 34; no other flash master acts between bursts: log entry 36). -/
def Obligations.ReadDeliversFlash : Prop :=
  ∀ (address length : Word) (s : State), s.cfg.wellFormed = true → Ready s →
    NextDraws CycleDraw.faithful (cyclesOf length.toNat (readBurstSize length.toNat)) s →
    ∃ t, exec (.read address length) s = .next t ∧
      t.host.result = some (.ok (.bytes ((List.range length.toNat).map (flashByte s address)))) ∧
      t.env.flash = s.env.flash ∧ t.ctl.inflight = none

/-- The burst plan of `READ`: which addresses, which byte counts and which cycle type, in order, whatever the cycles' outcomes,
and no other write of the address, the control register or a slot. Only the last cycle may be left in flight (R181, R182, R183,
R186, R382). -/
def Obligations.ReadBurstPlan : Prop :=
  ∀ (address length : Word) (s : State),
    let burst := if 64 ≤ length.toNat then 64 else 4
    let n := cyclesOf length.toNat burst
    s.cfg.wellFormed = true → Ready s → NextDraws CycleDraw.settles (n - 1) s →
    ∃ t, exec (.read address length) s = .next t ∧ t.eng.burstIndex = n ∧
      sequencingWrites t.host.trace = (List.range n).flatMap fun i =>
        [.write .addr ((address + BitVec.ofNat 32 (i * burst)) &&& 0x07FFFFFF#32),
          .write8 .ctl s.cfg.ctl.dbcByte (countOf length.toNat burst i), .write8 .ctl 0 (cycByte s.cfg .read)]

/-- The burst plan of `WRITE`: 4 bytes a cycle whatever the length; before each cycle slot 0 is packed little-endian with the
omitted lanes 0, and no other slot is written. Only the last cycle may be left in flight (R188, R189, R190, R382). -/
def Obligations.WriteBurstPlan : Prop :=
  ∀ (address : Word) (bytes : List Byte) (s : State),
    let n := cyclesOf bytes.length 4
    s.cfg.wellFormed = true → Ready s → NextDraws CycleDraw.settles (n - 1) s →
    ∃ t, exec (.write address bytes) s = .next t ∧ t.eng.burstIndex = n ∧
      sequencingWrites t.host.trace = (List.range n).flatMap fun i =>
        [.write (.data 0) (packLe ((bytes.drop (4 * i)).take 4)),
          .write .addr ((address + BitVec.ofNat 32 (i * 4)) &&& 0x07FFFFFF#32),
          .write8 .ctl s.cfg.ctl.dbcByte (countOf bytes.length 4 i), .write8 .ctl 0 (cycByte s.cfg .write)]

/-- A failed burst is recorded and the rest still run; the operation then reports the error of the first failing burst, and
success if none failed. Only the last cycle may be left in flight: a timeout there is reported like any other (R157, R186,
R344, R382, R386). -/
def Obligations.FirstFailureReported : Prop :=
  (∀ (address length : Word) (s : State),
    let n := cyclesOf length.toNat (readBurstSize length.toNat)
    s.cfg.wellFormed = true → Ready s → NextDraws CycleDraw.settles (n - 1) s →
    ∃ t, exec (.read address length) s = .next t ∧ (addrWrites t.host.trace).length = n ∧
      t.eng.failed = (firstError s n).isSome ∧
      match firstError s n with
      | some e => t.host.result = some (.err e)
      | none => ∃ bs, t.host.result = some (.ok (.bytes bs))) ∧
  (∀ (address : Word) (bytes : List Byte) (s : State),
    let n := cyclesOf bytes.length 4
    s.cfg.wellFormed = true → Ready s → NextDraws CycleDraw.settles (n - 1) s →
    ∃ t, exec (.write address bytes) s = .next t ∧ (addrWrites t.host.trace).length = n ∧
      t.eng.failed = (firstError s n).isSome ∧
      t.host.result = some (unitOutcome (firstError s n)))

/-- WRITE STORES THE BYTES: when the cycles do what R48 says, byte `j` of the payload is at flash address `address + j`, every
other byte of flash reads as before, and slots 1 to 15 keep what they held (R189, R191, R385; the wrap past the top of flash:
log entry 34; no other flash master acts: log entry 36). -/
def Obligations.WriteStoresBytes : Prop :=
  ∀ (address : Word) (bytes : List Byte) (s : State), s.cfg.wellFormed = true → Ready s → s.env.flash.wf = true →
    bytes.length ≤ flashSize → NextDraws CycleDraw.faithful (cyclesOf bytes.length 4) s →
    ∃ t, exec (.write address bytes) s = .next t ∧ t.host.result = some (.ok .nothing) ∧
      (∀ j < bytes.length, t.env.flash.get (flashAddr (address.setWidth 27) j) = bytes.getD j 0) ∧
      (∀ x, (∀ j < bytes.length, x ≠ flashAddr (address.setWidth 27) j) →
        t.env.flash.get x = s.env.flash.get x) ∧
      (∀ i : Fin 16, i ≠ 0 → t.ctl.window.get i = s.ctl.window.get i) ∧ t.ctl.inflight = none

/-- ROUND TRIP: `WRITE` followed by `READ` at the same address returns the written bytes unchanged, for every length, when the
cycles do what R48 says (R195; the wrap past the top of flash: log entry 34; no other flash master
acts in between: log entry 36). -/
def Obligations.RoundTrip : Prop :=
  ∀ (address : Word) (bytes : List Byte) (s : State), s.cfg.wellFormed = true → Ready s → s.env.flash.wf = true →
    bytes.length ≤ flashSize →
    NextDraws CycleDraw.faithful (cyclesOf bytes.length 4 + cyclesOf bytes.length (readBurstSize bytes.length)) s →
    ∃ t u, exec (.write address bytes) s = .next t ∧
      exec (.read address (BitVec.ofNat 32 bytes.length)) t = .next u ∧ u.host.result = some (.ok (.bytes bytes))

/-- `READ a, 0` and `WRITE a, []` issue no cycle, make no access, do not perform the check, and return `Ok([])` and `Ok(())`
(R194). -/
def Obligations.ZeroLength : Prop :=
  ∀ (a : Word) (s : State),
    (∃ t, exec (.read a 0) s = .next t ∧ t.host.result = some (.ok (.bytes [])) ∧ t.host.trace = [] ∧ Untouched s t) ∧
    (∃ t, exec (.write a []) s = .next t ∧ t.host.result = some (.ok .nothing) ∧ t.host.trace = [] ∧ Untouched s t)

/-- `ERASE a` is exactly one `CYCLE.ERASE a` (R192). -/
def Obligations.EraseIsOneCycle : Prop := ∀ (a : Word) (s : State), exec (.erase a) s = exec (.cycleErase a) s

/-- NO PERMISSION CHECK: for the same draws of the environment, what an operation that issues cycles does, and what it returns,
does not depend on the protected ranges, the flash regions or `BIOS_CTL` (R92). The controller may well consult them (R91, U5):
that shows in the draws (log entries 6 and 10). -/
def Obligations.ProtectionNotConsulted : Prop :=
  ∀ (i : Instr) (s : State) (freg : Vector Word 12) (pr : Vector Word 5) (bios : Word), issuesCycles i = true →
    let f (s : State) : State := s.modCtl fun c => { c with freg := freg, pr := pr, biosCtl := bios }
    exec i (f s) = match exec i s with
      | .next t => .next (f t)
      | .fault e => .fault e
      | .refused e => .refused e

/-! ### Identity -/

/-- Without the cycle-type field `READ_JEDEC_ID` is `UnsupportedJedecCycle`, with no access and no session check (R211). -/
def Obligations.JedecUnsupported : Prop :=
  ∀ s : State, s.cfg.hasCycleTypeField = false →
    ∃ t, exec .readJedecId s = .next t ∧ t.host.result = some (.err .unsupportedJedecCycle) ∧ t.host.trace = [] ∧
      Untouched s t

/-- `READ_JEDEC_ID` returns the identity the JedecId cycle delivers: manufacturer `raw[7:0]`, device
`(raw[15:8] << 8) | raw[23:16]`; its last access is the one read of slot 0 (R210, R212, R213). -/
def Obligations.JedecIdentity : Prop :=
  ∀ s : State, s.cfg.wellFormed = true → s.cfg.hasCycleTypeField = true → Ready s → s.cycleDraw.faithful = true →
    ∃ t id, exec .readJedecId s = .next t ∧ t.host.result = some (.ok (.jedec id)) ∧
      id.manufacturerCode.toNat = s.env.jedecRaw.toNat % 2 ^ 8 ∧
      id.deviceCode.toNat = s.env.jedecRaw.toNat / 2 ^ 8 % 2 ^ 8 * 2 ^ 8 + s.env.jedecRaw.toNat / 2 ^ 16 % 2 ^ 8 ∧
      t.host.trace = checkTrace s ++ issueTrace s.cfg .jedecId 0 3 ++ pollTrace s s.cycleDraw ++
        [.read (.data 0) s.env.jedecRaw] ∧
      t.env.flash = s.env.flash ∧ t.ctl.inflight = none

/-- A failed JedecId cycle is reported and slot 0 is not read (R215). -/
def Obligations.JedecCycleFails : Prop :=
  ∀ (s : State) (e : OpError), s.cfg.wellFormed = true → s.cfg.hasCycleTypeField = true → Ready s →
    s.cycleDraw.outcome = some e →
    ∃ t, exec .readJedecId s = .next t ∧ t.host.result = some (.err e) ∧ ∀ v, Event.read (.data 0) v ∉ t.host.trace

/-- Neither component answers with the signature: exactly four accesses, two entries "not found" (R217, R219, R229). -/
def Obligations.SfdpBothAbsent : Prop :=
  ∀ s : State, s.env.sfdpIndex.dword 0 ≠ 0x50444653#32 → s.env.sfdpIndex.dword 0x4000 ≠ 0x50444653#32 →
    ∃ t, exec .discoverSfdp s = .next t ∧ t.host.result = some (.ok (.sfdp [(0, none), (1, none)])) ∧
      t.host.trace = ptReads s [0x0000, 0x4000] ∧ t.ctl = { s.ctl with ptidx := 0x4000 } ∧ t.env = s.env ∧
      t.eng.session = s.eng.session

/-- A walk that needs no Sfdp cycle, whichever components answer: an absent one costs one indexed read; a found one, with one
header reported or without the cycle-type field, is described by the version dword, the first header and the table as the index
space holds them, after `3 + L` indexed reads (R217, R219, R220, R221, R222, R226, R227). -/
def Obligations.SfdpFoundWithoutCycle : Prop :=
  ∀ s : State, (∀ c < 2, SfdpFound s c → sfdpHeaders s c = 1 ∨ s.cfg.hasCycleTypeField = false) →
    ∃ t, exec .discoverSfdp s = .next t ∧
      t.host.result = some (.ok (.sfdp [(0, sfdpEntry s 0), (1, sfdpEntry s 1)])) ∧
      t.host.trace = ptReads s (sfdpReads s 0 ++ sfdpReads s 1) ∧
      t.ctl = { s.ctl with ptidx := (sfdpReads s 1).getLastD 0 } ∧ t.env = s.env ∧ t.eng.session = s.eng.session

/-- FURTHER HEADERS COME FROM THE WINDOW: where one component, the first or the second, reports two to seven headers, one Sfdp
cycle is issued after its first header; header `h` is decoded from slots `2 + 2h` and `3 + 2h`, which hold bytes `8 + 8h` on of
the SFDP area, and each slot is read once, in order; the table follows (R222, R223, R224, R225, R226; the other component needs
no cycle). -/
def Obligations.SfdpFurtherHeaders : Prop :=
  ∀ (c : Nat) (s : State),
    let area := s.sfdpArea s.cycleDraw.secondComponent
    let n := sfdpHeaders s c
    let l := s.cfg.sfdpPh
    let d1 (h : Nat) := area.dword (8 + 8 * h)
    let d2 (h : Nat) := area.dword (12 + 8 * h)
    let further := (List.range' 1 (n - 1)).map fun h =>
      ({ id := (field l.idHigh (d2 h) <<< 8) ||| field l.idLow (d1 h)
         majorVersion := (field l.major (d1 h)).setWidth 8
         minorVersion := (field l.minor (d1 h)).setWidth 8
         lengthDwords := (field l.length (d1 h)).setWidth 8
         tablePointer := some (field l.pointer (d2 h)) } : SfdpParameterHeader)
    let entry (j : Nat) := if j = c then some (sfdpRecord s c further) else sfdpEntry s j
    s.cfg.wellFormed = true → s.cfg.hasCycleTypeField = true → s.cfg.sfdpCycleFla = 0 → s.cfg.sfdpCycleCount = 64 →
    l.slotBase = 2 → l.slotStride = 2 → Ready s → s.cycleDraw.faithful = true → c < 2 → SfdpFound s c → 2 ≤ n → n ≤ 7 →
    (SfdpFound s (1 - c) → sfdpHeaders s (1 - c) = 1) →
    ∃ t, exec .discoverSfdp s = .next t ∧ t.host.result = some (.ok (.sfdp [(0, entry 0), (1, entry 1)])) ∧
      t.host.trace = ptReads s (sfdpReadsBefore s c ++ sfdpHeadReads c) ++
        (checkTrace s ++ issueTrace s.cfg .sfdp 0 63 ++ pollTrace s s.cycleDraw) ++
        ((List.range' 1 (n - 1)).flatMap fun h =>
          [.read (.data (Fin.ofNat 16 (2 + 2 * h))) (d1 h), .read (.data (Fin.ofNat 16 (3 + 2 * h))) (d2 h)]) ++
        ptReads s (sfdpTableReads s c ++ sfdpReadsAfter s c) ∧
      t.env.flash = s.env.flash ∧ t.ctl.inflight = none

/-- Errors end the walk at either component, and what was gathered before is not returned: an error of the Sfdp cycle is
returned as it is; eight headers or more cannot be held, and `DataWindowExhausted` is raised after the cycle, with the index
register at the first header's index (R217, R223, R224, R228, R345). -/
def Obligations.SfdpErrorsEndWalk : Prop :=
  ∀ (c : Nat) (s : State), s.cfg.wellFormed = true → s.cfg.hasCycleTypeField = true → Ready s → SfdpReaches s c →
    SfdpFound s c →
    (∀ e, 2 ≤ sfdpHeaders s c → s.cycleDraw.outcome = some e →
      ∃ t, exec .discoverSfdp s = .next t ∧ t.host.result = some (.err e) ∧ t.ctl.ptidx = sfdpIndexOf c 0x1000) ∧
    (8 ≤ sfdpHeaders s c → s.cycleDraw.outcome = none → s.cfg.sfdpPh.slotBase = 2 → s.cfg.sfdpPh.slotStride = 2 →
      ∃ t, exec .discoverSfdp s = .next t ∧ t.host.result = some (.err .dataWindowExhausted) ∧
        t.ctl.ptidx = sfdpIndexOf c 0x1000 ∧ t.ctl.inflight = none)

/-! ### The descriptor parser -/

/-- `PARSE` is a pure function of the image and the configuration: no access, and nothing but the result changes (R269). -/
def Obligations.ParseIsPure : Prop :=
  ∀ (image : List Byte) (s : State),
    ∃ t, exec (.parse image) s = .next t ∧ t.host.trace = [] ∧ Untouched s t ∧
      t.host.result = some (match parseImage s.cfg image with
        | .ok d => .ok (.descriptor d)
        | .error e => .err e)

/-- The signature search finds the least offset at which the bytes `5A A5 F0 0F` stand, aligned or not, and nothing where there
is none: then parsing fails with `SignatureNotFound` (R252). -/
def Obligations.SignatureIsLeast : Prop :=
  ∀ (image : List Byte) (p : Nat),
    (findSignature 0 image = some p ↔
      (p + 4 ≤ image.length ∧ (image.drop p).take 4 = [0x5A, 0xA5, 0xF0, 0x0F]) ∧
        ∀ q < p, (image.drop q).take 4 ≠ [0x5A, 0xA5, 0xF0, 0x0F]) ∧
    (findSignature 0 image = none ↔ ∀ q, (image.drop q).take 4 ≠ [0x5A, 0xA5, 0xF0, 0x0F]) ∧
    (findSignature 0 image = none → ∀ cfg, parseImage cfg image = .error .signatureNotFound)

/-- No signature, or the first one below `0x10`: `SignatureNotFound`; fewer than 4096 bytes from the base: `TruncatedImage`;
else the base is the signature's offset less `0x10`, the sections are decoded from there, and the result says so (R252, R253,
R254). -/
def Obligations.DescriptorBaseErrors : Prop :=
  ∀ (cfg : Config) (image : List Byte),
    (findSignature 0 image = none → parseImage cfg image = .error .signatureNotFound) ∧
    ∀ p, findSignature 0 image = some p →
      (p < 0x10 → parseImage cfg image = .error .signatureNotFound) ∧
      (0x10 ≤ p → image.length < p - 0x10 + 4096 → parseImage cfg image = .error .truncatedImage) ∧
      (0x10 ≤ p → p - 0x10 + 4096 ≤ image.length →
        parseImage cfg image = decodeDescriptor cfg image (p - 0x10) ∧
        ∀ d, parseImage cfg image = .ok d → d.descriptorOffset = p - 0x10)

/-- With the signature at `D + 0x10` and 4096 bytes from `D`, parsing succeeds if every section fits the descriptor, and is
`MalformedDescriptor` if one does not (R254, R268). -/
def Obligations.ParseSucceedsIffSectionsFit : Prop :=
  ∀ (cfg : Config) (image : List Byte) (D : Nat), findSignature 0 image = some (D + 0x10) → D + 4096 ≤ image.length →
    let fd := descriptorWord image D
    let fits := (mapBase cfg.fields.fcba (fd 0x14)).toNat + 12 ≤ 4096 ∧
      ((regionCount cfg (fd 0x14)).toNat = 0 ∨
        (mapBase cfg.fields.frba (fd 0x14)).toNat + 4 * (regionCount cfg (fd 0x14)).toNat ≤ 4096) ∧
      ((field cfg.fields.nm (fd 0x18) + BitVec.ofNat 32 cfg.bias.nm).toNat = 0 ∨
        (mapBase cfg.fields.fmba (fd 0x18)).toNat +
          4 * (field cfg.fields.nm (fd 0x18) + BitVec.ofNat 32 cfg.bias.nm).toNat ≤ 4096)
    (fits → ∃ d, parseImage cfg image = .ok d ∧ d.descriptorOffset = D) ∧
    (¬ fits → parseImage cfg image = .error .malformedDescriptor)

/-- The scalar fields of a parsed descriptor, each from its dword by the injected layout, and the vendor data (R255, R256,
R257, R258, R259, R265, R266, R267). -/
def Obligations.ParsedFields : Prop :=
  ∀ (cfg : Config) (image : List Byte) (d : FlashDescriptor), parseImage cfg image = .ok d →
    let fd := descriptorWord image d.descriptorOffset
    let l := cfg.fields
    findSignature 0 image = some (d.descriptorOffset + 0x10) ∧ d.descriptorOffset + 4096 ≤ image.length ∧
    d.signature = 0x0FF0A55A#32 ∧
    d.componentBase = field l.fcba (fd 0x14) <<< 4 ∧ d.regionBase = field l.frba (fd 0x14) <<< 4 ∧
    d.masterBase = field l.fmba (fd 0x18) <<< 4 ∧
    d.numComponents = field l.nc (fd 0x14) + BitVec.ofNat 32 cfg.bias.nc ∧
    d.numMasters = field l.nm (fd 0x18) + BitVec.ofNat 32 cfg.bias.nm ∧
    d.numRegions = (if cfg.hasRegionCountField then field l.nr (fd 0x14) + BitVec.ofNat 32 cfg.bias.nr else 12) ∧
    d.diagnostics =
      (if cfg.hasRegionCountField = true ∧ field l.nr (fd 0x14) = 0 then [.zeroRegionCount] else []) ∧
    d.pchStrapBase = field l.fpsba (fd 0x18) <<< 4 ∧ d.pchStrapLength = field l.psl (fd 0x18) ∧
    d.cpuStrapBase = field l.fmsba (fd 0x1C) <<< 4 ∧ d.cpuStrapLength = field l.msl (fd 0x1C) ∧
    d.vsccTableBase = field l.vtba (fd 0xEFC) <<< 4 ∧ d.vsccTableLength = field l.vtl (fd 0xEFC) ∧
    d.oem = (image.drop (d.descriptorOffset + 0xF00)).take 256 ∧ d.oem.length = 256

/-- The sections of a parsed descriptor: three component dwords carried raw, every region and every master access entry
(R260, R261, R263, R264). -/
def Obligations.ParsedSections : Prop :=
  ∀ (cfg : Config) (image : List Byte) (d : FlashDescriptor), parseImage cfg image = .ok d →
    let fd := descriptorWord image d.descriptorOffset
    let l := cfg.fields
    d.componentDwords = (List.range 3).map (fun j => fd (d.componentBase.toNat + 4 * j)) ∧
    d.regions = (List.range d.numRegions.toNat).map (fun r =>
      let raw := fd (d.regionBase.toNat + 4 * r)
      { id := r, base := field l.flregRb raw <<< 12, limit := (field l.flregRl raw <<< 12) ||| 0xFFF#32
        rawRegister := raw }) ∧
    (∀ r m, r < d.numRegions.toNat → m < d.numMasters.toNat →
      d.masterAccess.lookup (r, m) = some
        { read := (field l.mrra (fd (d.masterBase.toNat + 4 * m))).getLsbD r
          write := (field l.mrwa (fd (d.masterBase.toNat + 4 * m))).getLsbD r }) ∧
    (∀ r m, (d.numRegions.toNat ≤ r ∨ d.numMasters.toNat ≤ m) → d.masterAccess.lookup (r, m) = none)

/-- A region whose dword is all ones, or whose base is above its limit, stays in `regions` but is in no enumeration of the
present ones; every other region is in it (R262). -/
def Obligations.UnusedRegionsExcluded : Prop :=
  ∀ (cfg : Config) (image : List Byte) (d : FlashDescriptor) (g : FlashRegion), parseImage cfg image = .ok d → g ∈ d.regions →
    (g ∈ presentRegions d ↔ ¬ (g.limit.toNat < g.base.toNat ∨ g.rawRegister = 0xFFFFFFFF#32))

/-- NOTHING OUTSIDE THE DESCRIPTOR IS TRUSTED: once the base is found, the result depends on the 4096 bytes of the slice alone
(R251, R254, R269). -/
def Obligations.ParseReadsTheSliceOnly : Prop :=
  ∀ (cfg : Config) (image : List Byte) (D : Nat), findSignature 0 image = some (D + 0x10) → D + 4096 ≤ image.length →
    parseImage cfg image =
      (parseImage cfg ((image.drop D).take 4096)).map (fun d => { d with descriptorOffset := D })

/-! ### Regions and protection -/

/-- `READ_REGION` makes one read of `FREG[id]` and decodes it by the same rule as the parser; no cycle, no session (R301, R300,
R309). -/
def Obligations.ReadRegionDecodes : Prop :=
  ∀ (id : Fin 12) (s : State),
    let raw := s.ctl.freg.get id
    ∃ t, exec (.readRegion (BitVec.ofNat 8 id.val)) s = .next t ∧ t.host.trace = [.read (.freg id) raw] ∧
      t.host.result = some (.ok (.region
        { id := id.val
          base := field s.cfg.fields.fregRb raw <<< 12
          limit := (field s.cfg.fields.fregRl raw <<< 12) ||| 0xFFF#32
          rawRegister := raw })) ∧
      Untouched s t

/-- `READ_PROTECTED_RANGE` makes one read of `PR[index]`; a range with neither enable is still reported, and is not meaningful
(R303, R304). -/
def Obligations.ReadProtectedRangeDecodes : Prop :=
  ∀ (index : Fin 5) (s : State),
    let raw := s.ctl.pr.get index
    let l := s.cfg.fields
    ∃ t p, exec (.readProtectedRange (BitVec.ofNat 8 index.val)) s = .next t ∧
      t.host.trace = [.read (.pr index) raw] ∧ t.host.result = some (.ok (.range p)) ∧
      p = { index := index.val
            base := field l.prb raw <<< 12
            limit := (field l.prl raw <<< 12) ||| 0xFFF#32
            writeProtectEnabled := decide (field l.wpe raw ≠ 0)
            readProtectEnabled := decide (field l.rpe raw ≠ 0)
            rawRegister := raw } ∧
      (p.meaningful = true ↔ field l.wpe raw ≠ 0 ∨ field l.rpe raw ≠ 0) ∧ Untouched s t

/-- `DISABLE_BIOS_WP` where its first read shows write-enable set: `Ok(true)`, exactly one access, no write (R306, R307, R310).
What that read shows is the stored register at the engine's first access and has a drawn write-enable after it (log entry 14). -/
def Obligations.BiosAlreadyEnabled : Prop :=
  ∀ s : State, s.biosRead.getLsbD s.cfg.fields.we = true →
    ∃ t, exec .disableBiosWp s = .next t ∧ t.host.result = some (.ok (.bool true)) ∧
      t.host.trace = [.read .biosCtl s.biosRead] ∧ FixedPart s t ∧
      t.ctl = { s.ctl with biosCtl := s.biosRead, biosWeOpen := true } ∧ t.env.flash = s.env.flash ∧
      t.eng = { s.eng.rest with failed := false }

/-- `DISABLE_BIOS_WP` where its first read shows write-enable clear: one write that sets that bit and changes no other, then one
read, which alone decides between `Ok(true)` and `ProtectionStateUnverified` with the two flags as they were read first (R306,
R307, R310). What the first read shows, and that no bit but write-enable differs at the second, is log entry 14. -/
def Obligations.BiosAttemptVerified : Prop :=
  ∀ s : State, s.cfg.wellFormed = true → s.biosRead.getLsbD s.cfg.fields.we = false →
    ∃ t raw1, exec .disableBiosWp s = .next t ∧
      t.host.trace = [.read .biosCtl s.biosRead,
        .write .biosCtl (s.biosRead ||| (1#32 <<< s.cfg.fields.we)), .read .biosCtl raw1] ∧
      (∀ n, n ≠ s.cfg.fields.we → raw1.getLsbD n = s.biosRead.getLsbD n) ∧
      t.host.result = some (
        if raw1.getLsbD s.cfg.fields.we then .ok (.bool true)
        else .err (.protectionStateUnverified (s.biosRead.getLsbD s.cfg.fields.le)
          (s.biosRead.getLsbD s.cfg.fields.smmWp))) ∧
      FixedPart s t ∧ t.ctl = { s.ctl with biosCtl := raw1, biosWeOpen := true } ∧ t.env.flash = s.env.flash ∧
      t.eng = { s.eng.rest with failed := false }

/-- Write-enable may not last: after an `Ok(true)`, whether the engine set the bit or found it set, the very next read of
`BIOS_CTL` may show it clear again (R308, R388, R49). -/
def Obligations.BiosEnableMayNotLast : Prop :=
  ∀ found : Bool, ∃ s t u : State, MachineInv s ∧ s.ctl.biosCtl.getLsbD s.cfg.fields.we = found ∧
    exec .disableBiosWp s = .next t ∧ t.host.result = some (.ok (.bool true)) ∧ exec .disableBiosWp t = .next u ∧
    ∃ raw0 rest, u.host.trace = .read .biosCtl raw0 :: rest ∧ raw0.getLsbD s.cfg.fields.we = false
end

