-- ==== Sys2Proof/Laws/Bits.lean ====
section
/-! SUPPORT. Bytes, bits and fields of a dword: what each reads after it is put together or replaced. -/

namespace Sys2Proof.Laws

open Sys2Proof.Machine

theorem getLsbD_ofBytes (a b c d : Byte) (i : Nat) :
    (Word.ofBytes a b c d).getLsbD i =
      if i < 8 then a.getLsbD i else if i < 16 then b.getLsbD (i - 8) else if i < 24 then c.getLsbD (i - 16)
      else d.getLsbD (i - 24) := by
  show (((d ++ c) ++ b) ++ a : BitVec (8 + 8 + 8 + 8)).getLsbD i = _
  rw [BitVec.getLsbD_append, BitVec.getLsbD_append, BitVec.getLsbD_append]
  by_cases h1 : i < 8
  · simp [h1]
  · by_cases h2 : i < 16
    · simp [h1, h2, show i - 8 < 8 by omega]
    · by_cases h3 : i < 24
      · simp [h1, h2, h3, show ¬ i - 8 < 8 by omega, show i - 8 - 8 = i - 16 by omega, show i - 16 < 8 by omega]
      · simp [h1, h2, h3, show ¬ i - 8 < 8 by omega, show ¬ i - 8 - 8 < 8 by omega, show i - 8 - 8 - 8 = i - 24 by omega]

theorem getLsbD_byte (v : Word) (k i : Nat) : (v.byte k).getLsbD i = (decide (i < 8) && v.getLsbD (8 * k + i)) := by
  simp [Word.byte]

@[simp] theorem byte_ofBytes_zero (a b c d : Byte) : (Word.ofBytes a b c d).byte 0 = a := by
  apply BitVec.eq_of_getLsbD_eq; intro i hi; rw [getLsbD_byte, getLsbD_ofBytes]; simp [hi]
@[simp] theorem byte_ofBytes_one (a b c d : Byte) : (Word.ofBytes a b c d).byte 1 = b := by
  apply BitVec.eq_of_getLsbD_eq; intro i hi
  rw [getLsbD_byte, getLsbD_ofBytes]; simp [hi, show 8 + i < 16 by omega]
@[simp] theorem byte_ofBytes_two (a b c d : Byte) : (Word.ofBytes a b c d).byte 2 = c := by
  apply BitVec.eq_of_getLsbD_eq; intro i hi
  rw [getLsbD_byte, getLsbD_ofBytes]; simp [hi, show 16 + i < 24 by omega, show ¬ 16 + i < 8 by omega]
@[simp] theorem byte_ofBytes_three (a b c d : Byte) : (Word.ofBytes a b c d).byte 3 = d := by
  apply BitVec.eq_of_getLsbD_eq; intro i hi
  rw [getLsbD_byte, getLsbD_ofBytes]; simp [hi, show ¬ 24 + i < 16 by omega, show ¬ 24 + i < 8 by omega]

@[simp] theorem ofBytes_byte (v : Word) : Word.ofBytes (v.byte 0) (v.byte 1) (v.byte 2) (v.byte 3) = v := by
  apply BitVec.eq_of_getLsbD_eq; intro i hi
  simp only [getLsbD_byte, getLsbD_ofBytes]
  split
  · simp [*]
  · split
    · simp [show i - 8 < 8 by omega, show 8 + (i - 8) = i by omega]
    · split
      · simp [show i - 16 < 8 by omega, show 16 + (i - 16) = i by omega]
      · simp [show i - 24 < 8 by omega, show 24 + (i - 24) = i by omega]

theorem getLsbD_setByte (v : Word) (k : Nat) (b : Byte) (i : Nat) :
    (v.setByte k b).getLsbD i =
      if 8 * k ≤ i ∧ i < 8 * k + 8 ∧ i < 32 then b.getLsbD (i - 8 * k) else v.getLsbD i := by
  by_cases h32 : i < 32
  · have hff : (255#32).getLsbD (i - 8 * k) = decide (i - 8 * k < 8) := by
      have : (255#32) = (BitVec.allOnes 8).setWidth 32 := by decide
      rw [this, BitVec.getLsbD_setWidth, BitVec.getLsbD_allOnes]; simp; omega
    simp only [Word.setByte, BitVec.getLsbD_or, BitVec.getLsbD_and, BitVec.getLsbD_not, BitVec.getLsbD_shiftLeft, hff,
      BitVec.getLsbD_setWidth, h32, decide_true, Bool.true_and]
    by_cases h1 : 8 * k ≤ i
    · by_cases h2 : i < 8 * k + 8
      · simp [h1, h2, h32, show i - 8 * k < 8 by omega, show ¬ i < 8 * k by omega, show i - 8 * k < 32 by omega]
      · simp [h1, h2, show ¬ i - 8 * k < 8 by omega, BitVec.getLsbD_of_ge b (i - 8 * k) (by omega)]
    · simp [h1, show i < 8 * k by omega]
  · rw [BitVec.getLsbD_of_ge _ i (by omega), BitVec.getLsbD_of_ge _ i (by omega), if_neg (by omega)]

theorem byte_setByte_same (v : Word) (k : Nat) (hk : k < 4) (b : Byte) : (v.setByte k b).byte k = b := by
  apply BitVec.eq_of_getLsbD_eq; intro i hi
  rw [getLsbD_byte, getLsbD_setByte]; simp [hi, show 8 * k + i < 32 by omega]

theorem byte_setByte_other (v : Word) (k j : Nat) (hkj : k ≠ j) (b : Byte) : (v.setByte k b).byte j = v.byte j := by
  apply BitVec.eq_of_getLsbD_eq; intro i hi
  rw [getLsbD_byte, getLsbD_byte, getLsbD_setByte, if_neg (by omega)]

theorem getLsbD_setBit (v : Word) (n : Nat) (b : Bool) (i : Nat) :
    (v.setBit n b).getLsbD i = if i = n ∧ n < 32 then b else v.getLsbD i := by
  have h1 : (1#32 <<< n).getLsbD i = decide (i = n ∧ n < 32) := by
    by_cases h : i < 32
    · rw [BitVec.getLsbD_shiftLeft, BitVec.getLsbD_one]
      by_cases h2 : i < n
      · simp [h, h2]; omega
      · simp only [h, h2, decide_true, Bool.not_false, decide_false, Bool.true_and, ← Bool.decide_and]
        exact decide_eq_decide.mpr (by omega)
    · rw [BitVec.getLsbD_of_ge _ i (by omega : 32 ≤ i)]; simp; omega
  by_cases h32 : i < 32
  · cases b <;> simp only [Word.setBit, if_true, Bool.false_eq_true, if_false, BitVec.getLsbD_or, BitVec.getLsbD_and, BitVec.getLsbD_not, h1, h32] <;>
      by_cases h : i = n ∧ n < 32 <;> simp [h]
  · rw [BitVec.getLsbD_of_ge _ i (by omega), BitVec.getLsbD_of_ge _ i (by omega)]
    split
    · omega
    · rfl
/-- `le_bytes` of a packed dword gives the packed bytes back (R184, R189). -/
theorem leBytes_packLe (bs : List Byte) (h : bs.length ≤ 4) : leBytes (packLe bs) bs.length = bs := by
  match bs, h with
  | [], _ => rfl
  | [a], _ => simp [leBytes, packLe]
  | [a, b], _ => simp [leBytes, packLe]
  | [a, b, c], _ => simp [leBytes, packLe]
  | [a, b, c, d], _ => simp [leBytes, packLe]

theorem byte_packLe (bs : List Byte) (j : Nat) (hj : j < 4) : (packLe bs).byte j = bs.getD j 0 := by
  match j, hj with
  | 0, _ => simp [packLe]
  | 1, _ => simp [packLe]
  | 2, _ => simp [packLe]
  | 3, _ => simp [packLe]

theorem flaMask_eq : flaMask = (BitVec.allOnes 27).setWidth 32 := by decide

theorem getLsbD_maskFla (a : Word) (i : Nat) : (maskFla a).getLsbD i = (decide (i < 27) && a.getLsbD i) := by
  simp only [maskFla, flaMask_eq, BitVec.getLsbD_and, BitVec.getLsbD_setWidth, BitVec.getLsbD_allOnes]
  by_cases h : i < 27
  · simp [h]; omega
  · simp [h]

@[simp] theorem maskFla_maskFla (a : Word) : maskFla (maskFla a) = maskFla a := by
  apply BitVec.eq_of_getLsbD_eq; intro i hi; simp only [getLsbD_maskFla]
  by_cases h : i < 27 <;> simp [h]

@[simp] theorem setWidth_maskFla (a : Word) : (maskFla a).setWidth 27 = a.setWidth 27 := by
  apply BitVec.eq_of_getLsbD_eq; intro i hi; rw [BitVec.getLsbD_setWidth, getLsbD_maskFla, BitVec.getLsbD_setWidth]; simp [hi]

theorem maskFla_toNat (a : Word) : (maskFla a).toNat = a.toNat % 2 ^ 27 := by
  simp only [maskFla, flaMask, BitVec.toNat_and]
  exact Nat.and_two_pow_sub_one_eq_mod _ 27

/-- `Field` is bit extraction (R87). -/
theorem getLsbD_field (f : BitField) (raw : Word) (i : Nat) (hi : i < 32) :
    (field f raw).getLsbD i = (decide (i < f.width) && raw.getLsbD (f.lsb + i)) := by
  simp only [field, BitVec.getLsbD_and, BitVec.getLsbD_ushiftRight, BitVec.getLsbD_ofNat, hi, decide_true, Bool.true_and,
    Nat.testBit_two_pow_sub_one]
  rw [Bool.and_comm]

/-- Two dwords that agree on a field's bits give the same field. -/
theorem field_congr {f : BitField} {v w : Word} (h : ∀ i, i < f.width → v.getLsbD (f.lsb + i) = w.getLsbD (f.lsb + i)) :
    field f v = field f w := by
  apply BitVec.eq_of_getLsbD_eq; intro i hi
  rw [getLsbD_field _ _ _ hi, getLsbD_field _ _ _ hi]
  by_cases hw : i < f.width
  · simp [hw, h i hw]
  · simp [hw]

end Sys2Proof.Laws
end

