-- ==== Sys2Proof/Laws/Flags.lean ====
section
/-! SUPPORT. The status register's bits and the control register's fields under a consistent layout. -/

namespace Sys2Proof.Laws

open Sys2Proof.Machine

/-- What a consistent configuration says of its status layout. -/
theorem sts_of_wellFormed {c : Config} (h : c.wellFormed = true) :
    (c.sts.fdone < 32 ∧ c.sts.fcerr < 32 ∧ c.sts.ael < 32 ∧ c.sts.scip < 32 ∧ c.sts.fdv < 32) ∧
      [c.sts.fdone, c.sts.fcerr, c.sts.ael, c.sts.scip, c.sts.fdv].Nodup ∧
      (c.stsWriteWidth = .four ∨ (c.sts.fdone < 8 ∧ c.sts.fcerr < 8 ∧ c.sts.ael < 8)) := by
  simp only [Config.wellFormed, StsLayout.wellFormed, Bool.and_eq_true, Bool.or_eq_true, decide_eq_true_eq,
    beq_iff_eq] at h
  exact ⟨h.1.1.1.1.1, h.1.1.1.1.2, h.1.1.1.2⟩

/-- The five status positions differ. -/
theorem sts_distinct {c : Config} (h : c.wellFormed = true) :
    c.sts.fdone ≠ c.sts.fcerr ∧ c.sts.fdone ≠ c.sts.ael ∧ c.sts.fdone ≠ c.sts.scip ∧ c.sts.fdone ≠ c.sts.fdv ∧
      c.sts.fcerr ≠ c.sts.ael ∧ c.sts.fcerr ≠ c.sts.scip ∧ c.sts.fcerr ≠ c.sts.fdv ∧
      c.sts.ael ≠ c.sts.scip ∧ c.sts.ael ≠ c.sts.fdv ∧ c.sts.scip ≠ c.sts.fdv := by
  have := (sts_of_wellFormed h).2.1
  simp only [List.nodup_cons, List.mem_cons, List.not_mem_nil, or_false, not_or] at this
  tauto

/-- What a consistent configuration says of its control layout. -/
theorem ctl_of_wellFormed {c : Config} (h : c.wellFormed = true) :
    (c.ctl.fgo < 8 ∧ c.ctl.fcycle.lsb + c.ctl.fcycle.width ≤ 8) ∧
      (c.ctl.fgo < c.ctl.fcycle.lsb ∨ c.ctl.fcycle.lsb + c.ctl.fcycle.width ≤ c.ctl.fgo) ∧
      [c.codes.read, c.codes.write, c.codes.erase, c.codes.jedecId, c.codes.sfdp].Nodup ∧
      (∀ k, cycleCode c.codes k < 2 ^ c.ctl.fcycle.width) ∧
      (1 ≤ c.ctl.dbcByte ∧ c.ctl.dbcByte < 4 ∧ c.ctl.fdbc.lsb = 8 * c.ctl.dbcByte ∧ 6 ≤ c.ctl.fdbc.width ∧
        c.ctl.fdbc.width ≤ 8) := by
  simp only [Config.wellFormed, CtlLayout.wellFormed, Bool.and_eq_true, decide_eq_true_eq, List.all_cons, List.all_nil] at h
  obtain ⟨⟨⟨-, h⟩, -⟩, -⟩ := h
  obtain ⟨⟨⟨⟨h1, h2⟩, h3⟩, h4⟩, h5⟩ := h
  refine ⟨h1, h2, h3, fun k => ?_, h5⟩
  cases k <;> simp only [cycleCode] <;> tauto

theorem getLsbD_endStatus {l : StsLayout} (d : CycleDraw) (v : Word) (i : Nat) (hi : i < 32) :
    (endStatus l d v).getLsbD i =
      if i = l.ael ∧ d.ael = true then true else if i = l.fcerr ∧ d.fcerr = true then true
      else if i = l.fdone then true else v.getLsbD i := by
  unfold endStatus
  cases d.ael <;> cases d.fcerr <;> simp only [Bool.false_eq_true, if_false, if_true, getLsbD_setBit, and_true,
    and_false] <;> (repeat' split) <;> simp_all

theorem getLsbD_clearStatus {l : StsLayout} (p v : Word) (a f : Bool) (i : Nat) (hi : i < 32) :
    (clearStatus l p a f v).getLsbD i =
      if i = l.ael ∧ p.getLsbD l.ael = true then a else if i = l.fcerr ∧ p.getLsbD l.fcerr = true then f
      else if i = l.fdone ∧ p.getLsbD l.fdone = true then false else v.getLsbD i := by
  unfold clearStatus
  cases p.getLsbD l.ael <;> cases p.getLsbD l.fcerr <;> cases p.getLsbD l.fdone <;>
    simp only [Bool.false_eq_true, if_false, if_true, getLsbD_setBit, and_true, and_false] <;> (repeat' split) <;>
    simp_all <;> omega

theorem getLsbD_w1cPattern (l : StsLayout) (i : Nat) (hi : i < 32) :
    (w1cPattern l).getLsbD i = decide (i = l.fdone ∨ i = l.fcerr ∨ i = l.ael) := by
  have h (n : Nat) : (1#32 <<< n).getLsbD i = decide (i = n) := by
    rw [BitVec.getLsbD_shiftLeft, BitVec.getLsbD_one]
    by_cases h2 : i < n
    · simp [hi, h2]; omega
    · simp only [hi, h2, decide_true, Bool.not_false, decide_false, Bool.true_and, ← Bool.decide_and]
      exact decide_eq_decide.mpr (by omega)
  simp only [w1cPattern, BitVec.getLsbD_or, h, ← Bool.decide_or, or_assoc]

/-- Both widths of the clear write hit the same bits (R158). -/
theorem byte_w1cPattern {c : Config} (h : c.wellFormed = true) (hw : c.stsWriteWidth = .one) :
    ((w1cPattern c.sts).byte 0).setWidth 32 <<< (8 * 0) = w1cPattern c.sts := by
  obtain ⟨h1, -, h3⟩ := sts_of_wellFormed h
  have h8 : c.sts.fdone < 8 ∧ c.sts.fcerr < 8 ∧ c.sts.ael < 8 := by
    rcases h3 with h3 | h3
    · rw [hw] at h3; cases h3
    · exact h3
  apply BitVec.eq_of_getLsbD_eq; intro i hi
  rw [Nat.mul_zero, BitVec.shiftLeft_zero, BitVec.getLsbD_setWidth, getLsbD_byte, Nat.mul_zero, Nat.zero_add,
    getLsbD_w1cPattern _ _ hi]
  by_cases h8' : i < 8
  · simp [hi, h8']
  · simp [h8']; omega

/-! ### The status a sample shows -/

theorem inProgress_statusWord {c : Config} (h : c.wellFormed = true) (b : Bool) (v : Word) :
    (cycleStatus c.sts (statusWord c.sts b v)).inProgress = b := by
  simp only [cycleStatus, statusWord, getLsbD_setBit, (sts_of_wellFormed h).1.2.2.2.1, and_self, if_true]

/-- The error bits the re-sample shows are the environment's draws (R46, R159). -/
theorem verifyError_cleared {c : Config} (h : c.wellFormed = true) (b a f : Bool) (v : Word) :
    verifyError c.sts (statusWord c.sts b (clearStatus c.sts (w1cPattern c.sts) a f v)) =
      if a || f then some (.cycleError a f) else none := by
  obtain ⟨⟨_, h1, h2, -, -⟩, -, -⟩ := sts_of_wellFormed h
  obtain ⟨-, -, -, -, h3, h4, -, h5, -, -⟩ := sts_distinct h
  have e1 : (statusWord c.sts b (clearStatus c.sts (w1cPattern c.sts) a f v)).getLsbD c.sts.ael = a := by
    rw [statusWord, getLsbD_setBit, if_neg (fun x => h5 x.1), getLsbD_clearStatus _ _ _ _ _ h2, getLsbD_w1cPattern _ _ h2]
    simp
  have e2 : (statusWord c.sts b (clearStatus c.sts (w1cPattern c.sts) a f v)).getLsbD c.sts.fcerr = f := by
    rw [statusWord, getLsbD_setBit, if_neg (fun x => h4 x.1), getLsbD_clearStatus _ _ _ _ _ h1, getLsbD_w1cPattern _ _ h1,
      getLsbD_w1cPattern _ _ h2]
    simp [h3]
  simp only [verifyError, cycleStatus, e1, e2]

/-- `FDV` survives everything a cycle does to the status register. -/
theorem fdv_cleared {c : Config} (h : c.wellFormed = true) (a f : Bool) (d : CycleDraw) (v : Word) :
    (clearStatus c.sts (w1cPattern c.sts) a f (endStatus c.sts d v)).getLsbD c.sts.fdv = v.getLsbD c.sts.fdv := by
  obtain ⟨⟨_, _, _, -, h0⟩, -, -⟩ := sts_of_wellFormed h
  obtain ⟨-, -, -, h1, -, -, h2, -, h3, -⟩ := sts_distinct h
  rw [getLsbD_clearStatus _ _ _ _ _ h0, if_neg (fun x => h3 x.1.symm), if_neg (fun x => h2 x.1.symm),
    if_neg (fun x => h1 x.1.symm), getLsbD_endStatus _ _ _ h0, if_neg (fun x => h3 x.1.symm), if_neg (fun x => h2 x.1.symm),
    if_neg h1.symm]

/-! ### The fields of the control register -/

theorem getLsbD_cycByte (c : Config) (k : CycleKind) (i : Nat) (hi : i < 8) :
    (cycByte c k).getLsbD i =
      ((decide (c.ctl.fcycle.lsb ≤ i) && (cycleCode c.codes k).testBit (i - c.ctl.fcycle.lsb)) || decide (i = c.ctl.fgo)) := by
  have h1 : (1#8 <<< c.ctl.fgo).getLsbD i = decide (i = c.ctl.fgo) := by
    rw [BitVec.getLsbD_shiftLeft, BitVec.getLsbD_one]
    by_cases h2 : i < c.ctl.fgo
    · simp [hi, h2]; omega
    · simp only [hi, h2, decide_true, Bool.not_false, decide_false, Bool.true_and, ← Bool.decide_and]
      exact decide_eq_decide.mpr (by omega)
  simp only [cycByte, BitVec.getLsbD_or, h1, BitVec.getLsbD_ofNat, hi, decide_true, Bool.true_and, Nat.testBit_shiftLeft, ge_iff_le]

/-- The byte of step 3 holds the go bit (R154). -/
theorem go_cycByte {c : Config} (h : c.wellFormed = true) (k : CycleKind) : (cycByte c k).getLsbD c.ctl.fgo = true := by
  rw [getLsbD_cycByte _ _ _ (ctl_of_wellFormed h).1.1]; simp

/-- The cycle-type field the controller reads after step 3 (R114). -/
theorem field_cycByte {c : Config} (h : c.wellFormed = true) (k : CycleKind) (v : Word) :
    (field c.ctl.fcycle (v.setByte 0 (cycByte c k))).toNat = cycleCode c.codes k := by
  obtain ⟨⟨hgo, hw⟩, hdis, -, hcode, -⟩ := ctl_of_wellFormed h
  have hlt : cycleCode c.codes k < 2 ^ 32 := lt_of_lt_of_le (hcode k) (Nat.pow_le_pow_right (by decide) (by omega))
  have e : field c.ctl.fcycle (v.setByte 0 (cycByte c k)) = BitVec.ofNat 32 (cycleCode c.codes k) := by
    apply BitVec.eq_of_getLsbD_eq; intro i hi
    rw [getLsbD_field _ _ _ hi, BitVec.getLsbD_ofNat, getLsbD_setByte]
    by_cases hiw : i < c.ctl.fcycle.width
    · rw [if_pos (by omega), Nat.mul_zero, Nat.sub_zero, getLsbD_cycByte _ _ _ (by omega)]
      simp [hiw, hi, show ¬ c.ctl.fcycle.lsb + i = c.ctl.fgo by omega]
    · have : (cycleCode c.codes k).testBit i = false :=
        Nat.testBit_lt_two_pow (lt_of_lt_of_le (hcode k) (Nat.pow_le_pow_right (by decide) (by omega)))
      simp [hiw, this]
  rw [e, BitVec.toNat_ofNat, Nat.mod_eq_of_lt hlt]

/-- The kind the controller latches after step 3 (R114). -/
theorem decodeKind_cycByte {c : Config} (h : c.wellFormed = true) (k : CycleKind) (v : Word) :
    decodeKind c (v.setByte 0 (cycByte c k)) = if kindAdmitted c k then some k else none := by
  have hn := (ctl_of_wellFormed h).2.2.1
  simp only [List.nodup_cons, List.mem_cons, List.not_mem_nil, or_false, not_or, not_false_eq_true, List.nodup_nil,
    and_true] at hn
  obtain ⟨⟨a1, a2, a3, a4⟩, ⟨b1, b2, b3⟩, ⟨c1, c2⟩, d1⟩ := hn
  simp only [decodeKind, allKinds, field_cycByte h, List.find?_cons, List.find?_nil]
  cases k <;> cases hf : c.hasCycleTypeField <;>
    simp [kindAdmitted, hf, cycleCode, a1, a2, a3, a4, b1, b2, b3, c1, c2, d1, eq_comm]

/-- The byte count the controller latches after steps 2 and 3 (R129, R153). -/
theorem cycleCount_written {c : Config} (h : c.wellFormed = true) (k : CycleKind) (dbc : Byte) (hd : dbc.toNat ≤ 63)
    (v : Word) : cycleCount c ((v.setByte c.ctl.dbcByte dbc).setByte 0 (cycByte c k)) = dbc.toNat + 1 := by
  obtain ⟨-, -, -, -, h1, h4, hl, h6, h8⟩ := ctl_of_wellFormed h
  have e : field c.ctl.fdbc ((v.setByte c.ctl.dbcByte dbc).setByte 0 (cycByte c k)) = dbc.setWidth 32 := by
    apply BitVec.eq_of_getLsbD_eq; intro i hi
    rw [getLsbD_field _ _ _ hi, getLsbD_setByte, getLsbD_setByte, BitVec.getLsbD_setWidth]
    by_cases hiw : i < c.ctl.fdbc.width
    · rw [if_neg (by omega), if_pos (by omega), hl, Nat.add_sub_cancel_left]; simp [hiw, hi]
    · have hb : dbc.getLsbD i = false := by
        rw [BitVec.getLsbD]
        exact Nat.testBit_lt_two_pow (lt_of_le_of_lt hd (lt_of_lt_of_le (by decide : 63 < 2 ^ 6)
          (Nat.pow_le_pow_right (by decide) (by omega))))
      simp [hiw, hb]
  rw [cycleCount, e, BitVec.toNat_setWidth, Nat.mod_eq_of_lt (by omega)]
  exact Nat.min_eq_right (by simp only [windowBytes]; omega)

theorem cycleCount_bounds (c : Config) (v : Word) : 1 ≤ cycleCount c v ∧ cycleCount c v ≤ windowBytes := by
  simp only [cycleCount, windowBytes]; omega

/-- A byte count below 65, encoded and read back (R129). -/
theorem dbcOf_toNat {n : Nat} (h : n ≤ 64) : (dbcOf n).toNat = n - 1 := by
  simp only [dbcOf, BitVec.toNat_ofNat]; omega

/-- `WE` alone is drawn: every other bit of `BIOS_CTL` reads as stored (R49). -/
theorem biosRead_getLsbD (s : State) (n : Nat) (h : n ≠ s.cfg.fields.we) :
    s.biosRead.getLsbD n = s.ctl.biosCtl.getLsbD n := by
  unfold State.biosRead
  split
  · simp [getLsbD_setBit, h]
  · rfl

end Sys2Proof.Laws
end

