-- ==== Sys2Proof/Laws/State.lean ====
section
/-! SUPPORT. What each update of the state leaves alone: one lemma per part per update, true by `rfl`. -/

namespace Sys2Proof.Laws

open Sys2Proof.Machine

section
variable (s : State) (e : Event) (p : Phase)
  (f : Engine → Engine) (g : Controller → Controller) (h : Environment → Environment) (k : HostPort → HostPort)

@[simp] theorem modEng_cfg : (s.modEng f).cfg = s.cfg := rfl
@[simp] theorem modEng_eng : (s.modEng f).eng = f s.eng := rfl
@[simp] theorem modEng_ctl : (s.modEng f).ctl = s.ctl := rfl
@[simp] theorem modEng_env : (s.modEng f).env = s.env := rfl
@[simp] theorem modEng_host : (s.modEng f).host = s.host := rfl

@[simp] theorem modCtl_cfg : (s.modCtl g).cfg = s.cfg := rfl
@[simp] theorem modCtl_eng : (s.modCtl g).eng = s.eng := rfl
@[simp] theorem modCtl_ctl : (s.modCtl g).ctl = g s.ctl := rfl
@[simp] theorem modCtl_env : (s.modCtl g).env = s.env := rfl
@[simp] theorem modCtl_host : (s.modCtl g).host = s.host := rfl

@[simp] theorem modEnv_cfg : (s.modEnv h).cfg = s.cfg := rfl
@[simp] theorem modEnv_eng : (s.modEnv h).eng = s.eng := rfl
@[simp] theorem modEnv_ctl : (s.modEnv h).ctl = s.ctl := rfl
@[simp] theorem modEnv_env : (s.modEnv h).env = h s.env := rfl
@[simp] theorem modEnv_host : (s.modEnv h).host = s.host := rfl

@[simp] theorem modHost_cfg : (s.modHost k).cfg = s.cfg := rfl
@[simp] theorem modHost_eng : (s.modHost k).eng = s.eng := rfl
@[simp] theorem modHost_ctl : (s.modHost k).ctl = s.ctl := rfl
@[simp] theorem modHost_env : (s.modHost k).env = s.env := rfl
@[simp] theorem modHost_host : (s.modHost k).host = k s.host := rfl

@[simp] theorem log_cfg : (s.log e).cfg = s.cfg := rfl
@[simp] theorem log_eng : (s.log e).eng = s.eng := rfl
@[simp] theorem log_ctl : (s.log e).ctl = s.ctl := rfl
@[simp] theorem log_env : (s.log e).env = s.env := rfl
@[simp] theorem log_trace : (s.log e).host.trace = s.host.trace ++ [e] := rfl
@[simp] theorem log_result : (s.log e).host.result = s.host.result := rfl
@[simp] theorem log_pending : (s.log e).host.pending = s.host.pending := rfl

@[simp] theorem atPhase_cfg : (s.atPhase p).cfg = s.cfg := rfl
@[simp] theorem atPhase_eng : (s.atPhase p).eng = { s.eng with pc := p } := rfl
@[simp] theorem atPhase_ctl : (s.atPhase p).ctl = s.ctl := rfl
@[simp] theorem atPhase_env : (s.atPhase p).env = s.env := rfl
@[simp] theorem atPhase_host : (s.atPhase p).host = s.host := rfl

@[simp] theorem popCycleDraw_cfg : s.popCycleDraw.cfg = s.cfg := rfl
@[simp] theorem popCycleDraw_eng : s.popCycleDraw.eng = s.eng := rfl
@[simp] theorem popCycleDraw_ctl : s.popCycleDraw.ctl = s.ctl := rfl
@[simp] theorem popCycleDraw_host : s.popCycleDraw.host = s.host := rfl
@[simp] theorem popCycleDraw_flash : s.popCycleDraw.env.flash = s.env.flash := rfl
@[simp] theorem popCycleDraw_draws : s.popCycleDraw.env.cycleDraws = s.env.cycleDraws.tail := rfl

@[simp] theorem popWeDraw_cfg : s.popWeDraw.cfg = s.cfg := rfl
@[simp] theorem popWeDraw_eng : s.popWeDraw.eng = s.eng := rfl
@[simp] theorem popWeDraw_ctl : s.popWeDraw.ctl = s.ctl := rfl
@[simp] theorem popWeDraw_host : s.popWeDraw.host = s.host := rfl
@[simp] theorem popWeDraw_flash : s.popWeDraw.env.flash = s.env.flash := rfl

@[simp] theorem cycleDraw_log : (s.log e).cycleDraw = s.cycleDraw := rfl
@[simp] theorem cycleDraw_modEng : (s.modEng f).cycleDraw = s.cycleDraw := rfl
@[simp] theorem cycleDraw_modCtl : (s.modCtl g).cycleDraw = s.cycleDraw := rfl
@[simp] theorem cycleDraw_modHost : (s.modHost k).cycleDraw = s.cycleDraw := rfl
@[simp] theorem weDraw_log : (s.log e).weDraw = s.weDraw := rfl

@[simp] theorem endCycle_cfg (c : InFlight) : (endCycle c s).cfg = s.cfg := rfl
@[simp] theorem endCycle_eng (c : InFlight) : (endCycle c s).eng = s.eng := rfl
@[simp] theorem endCycle_host (c : InFlight) : (endCycle c s).host = s.host := rfl
@[simp] theorem endCycle_inflight (c : InFlight) : (endCycle c s).ctl.inflight = none := rfl
@[simp] theorem endCycle_flash (c : InFlight) : (endCycle c s).env.flash = flashAfter c s := rfl
@[simp] theorem endCycle_window (c : InFlight) : (endCycle c s).ctl.window = windowAfter c s := rfl
@[simp] theorem endCycle_sts (c : InFlight) : (endCycle c s).ctl.sts = endStatus s.cfg.sts c.draw s.ctl.sts := rfl

@[simp] theorem startCycle_cfg : (startCycle s).cfg = s.cfg := rfl
@[simp] theorem startCycle_eng : (startCycle s).eng = s.eng := rfl
@[simp] theorem startCycle_host : (startCycle s).host = s.host := rfl
@[simp] theorem startCycle_flash : (startCycle s).env.flash = s.env.flash := rfl
@[simp] theorem startCycle_window : (startCycle s).ctl.window = s.ctl.window := rfl

@[simp] theorem tickBios_biosCtl : (tickBios s).ctl.biosCtl = s.biosRead := rfl
@[simp] theorem tickBios_biosWeOpen : (tickBios s).ctl.biosWeOpen = true := rfl
@[simp] theorem tickBios_cfg : (tickBios s).cfg = s.cfg := by unfold tickBios; split <;> rfl
@[simp] theorem tickBios_eng : (tickBios s).eng = s.eng := by unfold tickBios; split <;> rfl
@[simp] theorem tickBios_host : (tickBios s).host = s.host := by unfold tickBios; split <;> rfl
@[simp] theorem tickBios_flash : (tickBios s).env.flash = s.env.flash := by unfold tickBios; split <;> rfl
/-- All that a read of `BIOS_CTL` can do to the controller. -/
theorem tickBios_ctl : (tickBios s).ctl = { s.ctl with biosCtl := s.biosRead, biosWeOpen := true } := by
  unfold tickBios
  split <;> rfl

@[simp] theorem clearWrite_cfg (v : Word) : (clearWrite v s).cfg = s.cfg := rfl
@[simp] theorem clearWrite_eng (v : Word) : (clearWrite v s).eng = s.eng := rfl
@[simp] theorem clearWrite_env (v : Word) : (clearWrite v s).env = s.env := rfl
@[simp] theorem clearWrite_host (v : Word) : (clearWrite v s).host = s.host := rfl

@[simp] theorem beginOp_cfg : (beginOp s).cfg = s.cfg := rfl
@[simp] theorem beginOp_eng :
    (beginOp s).eng = { s.eng with busy := true, failed := false, errFirst := none, buf := [] } := rfl
@[simp] theorem beginOp_ctl : (beginOp s).ctl = s.ctl := rfl
@[simp] theorem beginOp_env : (beginOp s).env = s.env := rfl
@[simp] theorem beginOp_trace : (beginOp s).host.trace = [] := rfl

@[simp] theorem deliver_cfg (r : OpResult) : (deliver r s).cfg = s.cfg := rfl
@[simp] theorem deliver_eng (r : OpResult) : (deliver r s).eng = s.eng.rest := rfl
@[simp] theorem deliver_ctl (r : OpResult) : (deliver r s).ctl = s.ctl := rfl
@[simp] theorem deliver_env (r : OpResult) : (deliver r s).env = s.env := rfl
@[simp] theorem deliver_trace (r : OpResult) : (deliver r s).host.trace = s.host.trace := rfl
@[simp] theorem deliver_result (r : OpResult) : (deliver r s).host.result = some r := rfl
@[simp] theorem deliver_pending (r : OpResult) : (deliver r s).host.pending = s.host.pending := rfl

end

end Sys2Proof.Laws
end

