-- ==== Sys2Proof/Laws/Cycle.lean ====
section
/-! SUPPORT. What one cycle does, said once: `executeCycle_eq` gives the error and the whole state that `executeCycle` leaves,
for every draw of the environment. -/

namespace Sys2Proof.Laws

open Sys2Proof.Machine

/-! ### Claiming the controller -/

/-- The engine may write a sequencing register: no cycle is in flight, or the one left by a timeout ends first (R382). -/
def Free (s : State) : Prop := ∀ c ∈ s.ctl.inflight, c.draw.drains = true

/-- The state in which the engine then writes. -/
def settled (s : State) : State :=
  match s.ctl.inflight with
  | none => s
  | some c => endCycle c s

theorem free_of_idle {s : State} (h : s.ctl.inflight = none) : Free s := by intro c hc; rw [h] at hc; cases hc

@[simp] theorem settled_of_idle {s : State} (h : s.ctl.inflight = none) : settled s = s := by simp [settled, h]

@[simp] theorem settled_inflight (s : State) : (settled s).ctl.inflight = none := by
  unfold settled; split
  · assumption
  · rfl

@[simp] theorem settled_cfg (s : State) : (settled s).cfg = s.cfg := by unfold settled; split <;> rfl
@[simp] theorem settled_eng (s : State) : (settled s).eng = s.eng := by unfold settled; split <;> rfl
@[simp] theorem settled_host (s : State) : (settled s).host = s.host := by unfold settled; split <;> rfl
@[simp] theorem settled_draws (s : State) : (settled s).env.cycleDraws = s.env.cycleDraws := by
  unfold settled; split <;> rfl
@[simp] theorem settled_drawCount (s : State) : (settled s).env.drawCount = s.env.drawCount := by
  unfold settled; split <;> rfl
@[simp] theorem settled_addr (s : State) : (settled s).ctl.addr = s.ctl.addr := by unfold settled; split <;> rfl
@[simp] theorem settled_ctl (s : State) : (settled s).ctl.ctl = s.ctl.ctl := by unfold settled; split <;> rfl

theorem claimController_eq {s : State} (h : Free s) : claimController s = .ok (settled s) := by
  cases hi : s.ctl.inflight with
  | none => simp [claimController, settled, hi]
  | some c => simp [claimController, settled, hi, h c hi]

theorem claimController_fault {s : State} {c : InFlight} (h : s.ctl.inflight = some c) (hd : c.draw.drains = false) :
    claimController s = .error .cycleInFlight := by
  simp [claimController, h, hd]

/-! ### Steps 1 to 3 -/

/-- The control register after steps 2 and 3 (R153, R154). -/
def latchedCtl (cfg : Config) (c : CycleCommand) (v : Word) : Word :=
  (if c.kind = .erase then v else v.setByte cfg.ctl.dbcByte c.dbc).setByte 0 (cycByte cfg c.kind)

/-- What the controller latches at the go write (R45). -/
def latched (c : CycleCommand) (s : State) : InFlight :=
  { kind := decodeKind s.cfg (latchedCtl s.cfg c s.ctl.ctl)
    addr := c.fla.setWidth 27
    count := cycleCount s.cfg (latchedCtl s.cfg c s.ctl.ctl)
    remaining := s.cycleDraw.delay
    draw := s.cycleDraw }

/-- The state after the go write, from one with no cycle in flight. -/
def issued (c : CycleCommand) (s : State) : State :=
  { s with
    eng := { s.eng with pc := .go }
    ctl := { s.ctl with
      addr := maskFla c.fla, ctl := latchedCtl s.cfg c s.ctl.ctl, inflight := some (latched c s) }
    env := { s.env with cycleDraws := s.env.cycleDraws.tail, drawCount := s.env.drawCount + 1 }
    host := { s.host with trace := s.host.trace ++ issueTrace s.cfg c.kind c.fla c.dbc } }

theorem goWrite_condition {cfg : Config} (h : cfg.wellFormed = true) (k : CycleKind) :
    cfg.ctl.fgo / 8 = 0 ∧ (cycByte cfg k).getLsbD (cfg.ctl.fgo % 8) = true := by
  have h8 := (ctl_of_wellFormed h).1.1
  rw [Nat.mod_eq_of_lt h8]
  exact ⟨by omega, go_cycByte h k⟩

theorem byteWrite_condition {cfg : Config} (h : cfg.wellFormed = true) (b : Byte) :
    ¬ (cfg.ctl.fgo / 8 = cfg.ctl.dbcByte ∧ b.getLsbD (cfg.ctl.fgo % 8) = true) := by
  have h8 := (ctl_of_wellFormed h).1.1
  have h1 := (ctl_of_wellFormed h).2.2.2.2.1
  omega

theorem regWrite_idle {s : State} (h : s.ctl.inflight = none) (r : Reg) (v : Word) :
    regWrite r v s = .ok (portWrite r v s) := by
  simp only [regWrite, claimController, h]; split <;> rfl

theorem regWrite8_idle {s : State} (h : s.ctl.inflight = none) (r : Reg) (k : Nat) (b : Byte) :
    regWrite8 r k b s = .ok (portWrite8 r k b s) := by
  simp only [regWrite8, claimController, h]; split <;> rfl

/-- Step 1 (R152). -/
theorem phaseAddr_idle {s : State} (h : s.ctl.inflight = none) :
    phaseAddr s = .ok { s with
      eng := { s.eng with pc := .addr }
      ctl := { s.ctl with addr := maskFla s.eng.cmd.fla }
      host := { s.host with trace := s.host.trace ++ [.write .addr (maskFla s.eng.cmd.fla)] } } := by
  rw [phaseAddr, regWrite_idle (s := s.atPhase .addr) h]; rfl

/-- Step 2 (R153). -/
theorem phaseDbc_idle {s : State} (hw : s.cfg.wellFormed = true) (h : s.ctl.inflight = none) :
    phaseDbc s = .ok { s with
      eng := { s.eng with pc := .dbc }
      ctl := { s.ctl with ctl := s.ctl.ctl.setByte s.cfg.ctl.dbcByte s.eng.cmd.dbc }
      host := { s.host with trace := s.host.trace ++ [.write8 .ctl s.cfg.ctl.dbcByte s.eng.cmd.dbc] } } := by
  rw [phaseDbc, regWrite8_idle (s := s.atPhase .dbc) h]
  refine congrArg Except.ok ?_
  exact (if_neg (byteWrite_condition hw s.eng.cmd.dbc)).trans rfl

/-- Step 3 (R154): the go write starts the cycle. -/
theorem phaseGo_idle {s : State} (hw : s.cfg.wellFormed = true) (h : s.ctl.inflight = none) :
    phaseGo s = .ok (startCycle { s with
      eng := { s.eng with pc := .go }
      ctl := { s.ctl with ctl := s.ctl.ctl.setByte 0 (cycByte s.cfg s.eng.cmd.kind) }
      host := { s.host with trace := s.host.trace ++ [.write8 .ctl 0 (cycByte s.cfg s.eng.cmd.kind)] } }) := by
  rw [phaseGo, regWrite8_idle (s := s.atPhase .go) h]
  refine congrArg Except.ok ?_
  exact (if_pos (goWrite_condition hw s.eng.cmd.kind)).trans rfl

theorem issueCycle_idle {s : State} {c : CycleCommand} (hw : s.cfg.wellFormed = true) (hc : s.eng.cmd = c)
    (hi : s.ctl.inflight = none) : issueCycle s = .ok (issued c s) := by
  subst hc
  rw [issueCycle, phaseAddr_idle hi]
  simp only [Except.bind]
  by_cases hk : s.eng.cmd.kind = .erase
  · rw [if_pos hk]
    refine Eq.trans (phaseGo_idle ?_ ?_) ?_
    · exact hw
    · exact hi
    simp [startCycle, issued, issueTrace, latched, latchedCtl, State.popCycleDraw, State.modEnv, State.modCtl,
      State.cycleDraw, if_pos hk]
    rfl
  · rw [if_neg hk]
    refine Eq.trans (congrArg (fun x => Except.bind x phaseGo) (phaseDbc_idle ?_ ?_)) (Eq.trans (phaseGo_idle ?_ ?_) ?_)
    · exact hw
    · exact hi
    · exact hw
    · exact hi
    simp [startCycle, issued, issueTrace, latched, latchedCtl, State.popCycleDraw, State.modEnv, State.modCtl,
      State.cycleDraw, if_neg hk]
    rfl

/-! ### Step 4 -/

/-- `u` after `n` status samples that saw the cycle in flight. -/
def polled (n : Nat) (u : State) (c : Option InFlight) : State :=
  { u with
    eng := { u.eng with
      pollCount := u.eng.pollCount + n, stsSample := if n = 0 then u.eng.stsSample else busySample u }
    ctl := { u.ctl with inflight := c }
    host := { u.host with trace := u.host.trace ++ List.replicate n (.read .sts (busySample u)) } }

/-- `u` after `n` such samples and one that saw the cycle ended. -/
def pollEnded (n : Nat) (u : State) (c : InFlight) : State :=
  { endCycle c u with
    eng := { u.eng with pollCount := u.eng.pollCount + (n + 1), stsSample := idleSample u c.draw }
    host := { u.host with
      trace := u.host.trace ++ List.replicate n (.read .sts (busySample u)) ++ [.read .sts (idleSample u c.draw)] } }

/-- A sample that sees the cycle in flight. -/
theorem pollOnce_busy {u : State} (hw : u.cfg.wellFormed = true) {c : InFlight} {r : Option Nat} (hr : r ≠ some 0)
    (h : u.ctl.inflight = some { c with remaining := r }) :
    pollOnce u = (false, polled 1 u (some { c with remaining := r.map (· - 1) })) := by
  have e : tickStatus u = { u with ctl := { u.ctl with inflight := some { c with remaining := r.map (· - 1) } } } := by
    obtain _ | _ | k := r
    · simp only [tickStatus, h]
      cases u
      simp_all
      rw [← h]
    · exact absurd rfl hr
    · simp [tickStatus, h, State.modCtl]
  have hs := inProgress_statusWord hw true u.ctl.sts
  simp [pollOnce, sampleStatus, regRead, tick, e, State.regValue, hs, polled, busySample, State.modEng, State.log,
    State.modHost]

/-- The sample that sees the cycle ended. -/
theorem pollOnce_end {u : State} (hw : u.cfg.wellFormed = true) {c : InFlight}
    (h : u.ctl.inflight = some { c with remaining := some 0 }) : pollOnce u = (true, pollEnded 0 u c) := by
  have e : tickStatus u = endCycle c u := by simp only [tickStatus, h]; rfl
  have hs := inProgress_statusWord hw false (endStatus u.cfg.sts c.draw u.ctl.sts)
  simp [pollOnce, sampleStatus, regRead, tick, e, State.regValue, hs, pollEnded, idleSample, State.modEng, State.log,
    State.modHost]

theorem polled_polled (n : Nat) (u : State) (c c' : Option InFlight) :
    polled n (polled 1 u c) c' = polled (n + 1) u c' := by
  simp only [polled, busySample, List.replicate_succ, List.replicate_zero]
  by_cases hn : n = 0
  · subst hn; simp
  · simp [hn, Nat.add_assoc, Nat.add_comm 1 n]

theorem pollEnded_polled (n : Nat) (u : State) (c : InFlight) (c' : Option InFlight) :
    pollEnded n (polled 1 u c') c = pollEnded (n + 1) u c := by
  simp only [polled, pollEnded, busySample, idleSample, endCycle, flashAfter, List.replicate_succ,
    List.replicate_zero]
  simp [Nat.add_assoc, Nat.add_comm 1 (n + 1)]
  rfl

/-- A tight loop that sees the cycle end at sample `k + 1` (R155). -/
theorem pollLoop_end {c : InFlight} : ∀ {k fuel : Nat} {u : State}, u.cfg.wellFormed = true → k < fuel →
    u.ctl.inflight = some { c with remaining := some k } → pollLoop fuel u = (true, pollEnded k u c) := by
  intro k
  induction k with
  | zero =>
    intro fuel u hw hk h
    obtain ⟨fuel, rfl⟩ := Nat.exists_eq_succ_of_ne_zero (by omega : fuel ≠ 0)
    simp [pollLoop, pollOnce_end hw h]
  | succ k ih =>
    intro fuel u hw hk h
    obtain ⟨fuel, rfl⟩ := Nat.exists_eq_succ_of_ne_zero (by omega : fuel ≠ 0)
    rw [pollLoop, pollOnce_busy hw (by simp) h]
    simp only [Bool.false_eq_true, if_false]
    rw [ih (by exact hw) (by omega : k < fuel) (by simp [polled]), pollEnded_polled]

/-- A tight loop whose samples all see the cycle in flight (R155). -/
theorem pollLoop_busy {c : InFlight} : ∀ {fuel : Nat} {r : Option Nat} {u : State}, u.cfg.wellFormed = true →
    (∀ k ∈ r, fuel ≤ k) → u.ctl.inflight = some { c with remaining := r } →
    pollLoop fuel u = (false, polled fuel u (some { c with remaining := r.map (· - fuel) })) := by
  intro fuel
  induction fuel with
  | zero =>
    intro r u hw hk h
    cases u
    simp_all [pollLoop, polled]
    rw [← h]
  | succ fuel ih =>
    intro r u hw hk h
    have hr : r ≠ some 0 := by rintro rfl; exact absurd (hk 0 rfl) (by omega)
    rw [pollLoop, pollOnce_busy hw hr h]
    simp only [Bool.false_eq_true, if_false]
    rw [ih (r := r.map (· - 1)) (by exact hw) ?_ (by simp [polled]), polled_polled]
    · cases r <;> simp [Nat.sub_sub, Nat.add_comm 1 fuel]
    · intro k hk'
      obtain ⟨j, hj, rfl⟩ := Option.map_eq_some_iff.mp hk'
      have := hk j hj; omega

/-! ### The whole cycle -/

/-- Samples the tight loop takes (R155). -/
def tightSamples (d : CycleDraw) : Nat :=
  match d.delay with
  | some k => min (k + 1) pollMax
  | none => pollMax

/-- The status register's stored bits after the cycle has ended and been cleared (R46, R158). -/
def clearedSts (s : State) (d : CycleDraw) : Word :=
  clearStatus s.cfg.sts (w1cPattern s.cfg.sts) d.aelAfterClear d.fcerrAfterClear (endStatus s.cfg.sts d s.ctl.sts)

/-- The state a cycle leaves that ended in time, from `s` with no cycle in flight (R158, R159). -/
def cycleDone (c : CycleCommand) (s : State) : State :=
  { s with
    eng := { s.eng with
      pc := .idle, pollCount := tightSamples s.cycleDraw, stsSample := clearedSample s s.cycleDraw }
    ctl := { s.ctl with
      addr := maskFla c.fla, ctl := latchedCtl s.cfg c s.ctl.ctl, inflight := none
      window := windowAfter (latched c s) s, sts := clearedSts s s.cycleDraw
      aelAfterClear := s.cycleDraw.aelAfterClear, fcerrAfterClear := s.cycleDraw.fcerrAfterClear }
    env := { s.env with
      flash := flashAfter (latched c s) s, cycleDraws := s.env.cycleDraws.tail, drawCount := s.env.drawCount + 1 }
    host := { s.host with trace := s.host.trace ++ (issueTrace s.cfg c.kind c.fla c.dbc ++ pollTrace s s.cycleDraw) } }

/-- The state a cycle leaves that timed out (R157). -/
def cycleTimedOut (c : CycleCommand) (s : State) : State :=
  { s with
    eng := { s.eng with pc := .idle, pollCount := pollMax, stsSample := busySample s }
    ctl := { s.ctl with
      addr := maskFla c.fla, ctl := latchedCtl s.cfg c s.ctl.ctl
      inflight := some { latched c s with remaining := s.cycleDraw.delay.map (· - (pollMax + 1)) } }
    env := { s.env with cycleDraws := s.env.cycleDraws.tail, drawCount := s.env.drawCount + 1 }
    host := { s.host with trace := s.host.trace ++ (issueTrace s.cfg c.kind c.fla c.dbc ++ pollTrace s s.cycleDraw) } }

/-- Steps 5 and 6 from any state with no cycle in flight. -/
theorem phaseClear_idle {u : State} (hw : u.cfg.wellFormed = true) (h : u.ctl.inflight = none) :
    phaseClear u = { u with
      eng := { u.eng with
        pc := .clear
        stsSample := statusWord u.cfg.sts false (clearStatus u.cfg.sts (w1cPattern u.cfg.sts) u.ctl.aelAfterClear
          u.ctl.fcerrAfterClear u.ctl.sts) }
      ctl := { u.ctl with
        sts := clearStatus u.cfg.sts (w1cPattern u.cfg.sts) u.ctl.aelAfterClear u.ctl.fcerrAfterClear u.ctl.sts }
      host := { u.host with trace := u.host.trace ++ [clearEvent u.cfg, .read .sts (statusWord u.cfg.sts false
        (clearStatus u.cfg.sts (w1cPattern u.cfg.sts) u.ctl.aelAfterClear u.ctl.fcerrAfterClear u.ctl.sts))] } } := by
  cases hk : u.cfg.stsWriteWidth with
  | one =>
    have e := byte_w1cPattern hw hk
    simp only [Nat.mul_zero, BitVec.shiftLeft_zero] at e
    simp [phaseClear, stsClear, hk, portWrite8, applyWrite8, clearWrite, sampleStatus, regRead, tick, tickStatus, h,
      State.regValue, State.modEng, State.modCtl, State.log, State.modHost, State.atPhase, clearEvent, e]
  | four =>
    simp [phaseClear, stsClear, hk, portWrite, applyWrite, clearWrite, sampleStatus, regRead, tick, tickStatus, h,
      State.regValue, State.modEng, State.modCtl, State.log, State.modHost, State.atPhase, clearEvent]

/-- Step 4 when the cycle ends in the tight loop. -/
theorem awaitIdle_end {u : State} {c : InFlight} {k : Nat} (hw : u.cfg.wellFormed = true) (hk : k < pollMax)
    (h : u.ctl.inflight = some { c with remaining := some k }) :
    awaitIdle u = (true, pollEnded k (startPoll u) c) := by
  simp only [awaitIdle]
  rw [pollLoop_end (u := startPoll u) hw hk h]
  rfl

/-- `u` after a tight loop in vain, the sleep, and a late sample that saw the cycle ended. -/
def lateEnded (u : State) (c : InFlight) : State :=
  { endCycle c u with
    eng := { u.eng with pc := .late, pollCount := pollMax, stsSample := idleSample u c.draw }
    host := { u.host with
      trace := u.host.trace ++ List.replicate pollMax (.read .sts (busySample u)) ++ [.sleep sleepMs] ++
        [.read .sts (idleSample u c.draw)] } }

/-- The late sample (R156) of a cycle still in flight after the tight loop. -/
theorem awaitIdle_late {u : State} {c : InFlight} (hw : u.cfg.wellFormed = true)
    (h : u.ctl.inflight = some { c with remaining := some pollMax }) :
    awaitIdle u = (true, lateEnded u c) := by
  have hs := inProgress_statusWord hw false (endStatus u.cfg.sts c.draw u.ctl.sts)
  have e := pollLoop_busy (c := c) (fuel := pollMax) (r := some pollMax) (u := startPoll u) hw (by simp) h
  simp only [awaitIdle, e]
  simp [phaseLate, phaseSleep, sleepOnce, sampleStatus, regRead, tick, tickStatus, polled, State.regValue, State.log,
    State.modHost, State.modEng, State.atPhase, hs, startPoll, busySample, idleSample, endCycle, flashAfter,
    lateEnded]
  rfl

/-- The late sample of a cycle that is still in flight then, too: a timeout (R157). -/
theorem awaitIdle_timeout {u : State} {c : InFlight} {r : Option Nat} (hw : u.cfg.wellFormed = true)
    (hr : ∀ k ∈ r, pollMax < k) (h : u.ctl.inflight = some { c with remaining := r }) :
    awaitIdle u = (false, { u with
      eng := { u.eng with pc := .late, pollCount := pollMax, stsSample := busySample u }
      ctl := { u.ctl with inflight := some { c with remaining := r.map (· - (pollMax + 1)) } }
      host := { u.host with
        trace := u.host.trace ++ List.replicate pollMax (.read .sts (busySample u)) ++
          [.sleep sleepMs, .read .sts (busySample u)] } }) := by
  have hs := inProgress_statusWord hw true u.ctl.sts
  have e := pollLoop_busy (c := c) (fuel := pollMax) (r := r) (u := startPoll u) hw
    (fun k hk => Nat.le_of_lt (hr k hk)) h
  simp only [awaitIdle, e]
  obtain _ | k := r
  · simp [phaseLate, phaseSleep, sleepOnce, sampleStatus, regRead, tick, tickStatus, polled, State.regValue, State.log,
      State.modHost, State.modEng, State.atPhase, hs, startPoll, busySample]
  · have hk : pollMax < k := hr k rfl
    obtain ⟨j, hj⟩ : ∃ j, k - pollMax = j + 1 := ⟨k - pollMax - 1, by omega⟩
    have hj' : k - (pollMax + 1) = j := by omega
    simp [phaseLate, phaseSleep, sleepOnce, sampleStatus, regRead, tick, tickStatus, polled, State.regValue, State.log,
      State.modHost, State.modEng, State.modCtl, State.atPhase, hs, startPoll, busySample, hj, hj']

/-- Steps 4 to 6 (R155 to R159) after a go write. -/
theorem completeCycle_issued {s : State} (hw : s.cfg.wellFormed = true) (c : CycleCommand) :
    completeCycle (issued c s) =
      (s.cycleDraw.outcome, if s.cycleDraw.inTime then cycleDone c s else cycleTimedOut c s) := by
  have hi : (issued c s).ctl.inflight = some { latched c s with remaining := s.cycleDraw.delay } := rfl
  have hv := verifyError_cleared hw false s.cycleDraw.aelAfterClear s.cycleDraw.fcerrAfterClear
    (endStatus s.cfg.sts s.cycleDraw s.ctl.sts)
  by_cases ht : s.cycleDraw.inTime = true
  · obtain ⟨k, hk, hle⟩ : ∃ k, s.cycleDraw.delay = some k ∧ k ≤ pollMax := by
      unfold CycleDraw.inTime at ht
      split at ht
      · next k hk => exact ⟨k, hk, by simpa using ht⟩
      · cases ht
    rw [hk] at hi
    rw [CycleDraw.outcome, if_pos ht, if_pos ht, CycleDraw.verdict]
    rcases Nat.lt_or_eq_of_le hle with hlt | rfl
    · have e := awaitIdle_end (u := issued c s) hw hlt hi
      simp only [completeCycle, e, if_true]
      rw [phaseClear_idle (u := pollEnded k (startPoll (issued c s)) (latched c s)) hw rfl]
      simp only [phaseVerify]
      refine Prod.ext hv ?_
      simp [cycleDone, tightSamples, hk, pollTrace, hlt, pollEnded, startPoll, issued, State.atPhase, State.modEng, endCycle,
        flashAfter, idleSample, busySample, clearedSample, clearedSts, latched]
      rfl
    · have e := awaitIdle_late (u := issued c s) hw hi
      simp only [completeCycle, e, if_true]
      rw [phaseClear_idle (u := lateEnded (issued c s) (latched c s)) hw rfl]
      simp only [phaseVerify]
      refine Prod.ext hv ?_
      simp [cycleDone, tightSamples, hk, pollTrace, lateEnded, issued, State.atPhase, State.modEng, endCycle, flashAfter,
        idleSample, busySample, clearedSample, clearedSts, latched]
      rfl
  · rw [CycleDraw.outcome, if_neg ht, if_neg ht]
    have hr : ∀ k ∈ s.cycleDraw.delay, pollMax < k := by
      intro k hk
      simp only [CycleDraw.inTime, Option.mem_def.mp hk, decide_eq_true_eq] at ht
      omega
    have e := awaitIdle_timeout (u := issued c s) hw hr hi
    simp only [completeCycle, e, Bool.false_eq_true, if_false]
    refine Prod.ext rfl ?_
    have hp : pollTrace s s.cycleDraw = List.replicate pollMax (.read .sts (busySample s)) ++
        [.sleep sleepMs, .read .sts (busySample s)] := by
      unfold pollTrace
      cases hd : s.cycleDraw.delay with
      | none => rfl
      | some k =>
        have := hr k hd
        simp only [if_neg (show ¬ k < pollMax by omega), if_neg (show ¬ k = pollMax by omega)]
    simp [cycleTimedOut, hp, issued, State.atPhase, State.modEng, latched, busySample]

/-- The controller is claimed at step 1 (R382). -/
theorem issueCycle_free {s : State} (h : Free s) : issueCycle s = issueCycle (settled s) := by
  have e : phaseAddr s = phaseAddr (settled s) := by
    have h1 : Free (s.atPhase .addr) := h
    have h2 : settled (s.atPhase .addr) = (settled s).atPhase .addr := by
      cases hi : s.ctl.inflight with
      | none => simp [settled, hi, State.atPhase, State.modEng]
      | some c =>
        simp only [settled, hi, State.atPhase, State.modEng, endCycle]
        rfl
    rw [phaseAddr, phaseAddr, regWrite_idle (s := (settled s).atPhase .addr) (settled_inflight s)]
    simp only [regWrite, sequencing, if_true, claimController_eq h1, h2, Except.map, settled_eng]
  rw [issueCycle, issueCycle, e]

/-- Who may begin a cycle: the check has passed and the controller can be claimed, or it will pass on an idle one. -/
def CanIssue (s : State) : Prop := (s.eng.session = .enabled ∧ Free s) ∨ Ready s

/-- The state in which step 1 is made: the command latched, the check made, an earlier cycle ended. -/
def checked (c : CycleCommand) (s : State) : State :=
  let t := settled s
  { t with
    eng := { s.eng with
      cmd := c, session := .enabled, pc := if s.eng.session = .unchecked then .check else s.eng.pc
      stsSample := if s.eng.session = .unchecked then s.regValue .sts else s.eng.stsSample }
    host := { s.host with trace := s.host.trace ++ checkTrace s } }

/-- A cycle command that is admitted runs its cycle, an Erase cycle with no byte count (R131, R166). -/
theorem exec_cycleInstr {s : State} {k : CycleKind} {dbc : Byte} (h : Admitted s k dbc) (fla : Word) :
    exec (cycleInstr k fla dbc) s = runCycle ⟨k, fla, if k = .erase then 0 else dbc⟩ s := by
  obtain ⟨hk, hd⟩ := h
  cases k <;> simp [cycleInstr, exec, execCycleRead, execCycleWrite, execCycleErase, execCycleSfdp, execCycleJedecid,
    runSizedCycle, cycleAdmitted, hk, hd]

/-- One that is not admitted is refused (R136; log entry 22). -/
theorem runSizedCycle_refused {s : State} {c : CycleCommand} (h : cycleAdmitted s.cfg c = false) :
    runSizedCycle c s = .next (refuseIllegal s) := by simp [runSizedCycle, h]

/-- ONE CYCLE, WHATEVER IT DRAWS (R150 to R160): its error and the state it leaves. -/
theorem executeCycle_eq {s : State} (hw : s.cfg.wellFormed = true) (h : CanIssue s) (c : CycleCommand) :
    executeCycle c s = .ok ((checked c s).cycleDraw.outcome,
      if (checked c s).cycleDraw.inTime then cycleDone c (checked c s) else cycleTimedOut c (checked c s)) := by
  have key : ∀ t : State, sessionCheck (latchCommand c s) = t → t.eng.session ≠ .fatal → Free t →
      settled t = checked c s →
      executeCycle c s = .ok ((checked c s).cycleDraw.outcome,
        if (checked c s).cycleDraw.inTime then cycleDone c (checked c s) else cycleTimedOut c (checked c s)) := by
    rintro t rfl hf hfree hset
    simp only [executeCycle, if_neg hf]
    rw [issueCycle_free hfree, hset, issueCycle_idle (c := c) (s := checked c s) (by simpa [checked] using hw) rfl
      (by simp [checked])]
    simp only [Except.map]
    rw [completeCycle_issued (by simpa [checked] using hw)]
  by_cases hu : s.eng.session = .unchecked
  · have hr : Ready s := by
      rcases h with h | h
      · rw [hu] at h; cases h.1
      · exact h
    obtain ⟨hi, -, hfdv⟩ := hr
    have hd := hfdv hu
    refine key _ rfl ?_ ?_ ?_
    · simp [sessionCheck, latchCommand, State.modEng, hu, phaseCheck, sampleStatus, regRead, tick, tickStatus, hi, State.log,
        State.modHost, State.atPhase]
      simpa [State.regValue, hi, State.modEng] using hd
    · apply free_of_idle
      simp [sessionCheck, latchCommand, State.modEng, hu, phaseCheck, sampleStatus, regRead, tick, tickStatus, hi, State.log,
        State.modHost, State.atPhase]
    · have hd' : descriptorValid s.cfg.sts (statusWord s.cfg.sts false s.ctl.sts) = true := by
        simpa [State.regValue, hi] using hd
      rw [settled_of_idle (by
        simp [sessionCheck, latchCommand, State.modEng, hu, phaseCheck, sampleStatus, regRead, tick, tickStatus, hi, State.log,
          State.modHost, State.atPhase])]
      simp [sessionCheck, latchCommand, State.modEng, hu, phaseCheck, sampleStatus, regRead, tick, tickStatus, hi, State.log,
        State.modHost, State.atPhase, checked, State.regValue, hd', checkTrace]
  · have hs : s.eng.session = .enabled ∧ Free s := by
      rcases h with h | h
      · exact h
      · refine ⟨?_, free_of_idle h.1⟩
        cases hse : s.eng.session
        · exact absurd hse hu
        · rfl
        · exact absurd hse h.2.1
    refine key (latchCommand c s) (if_neg hu) ?_ hs.2 ?_
    · simp [latchCommand, hs.1]
    · cases hi : s.ctl.inflight with
      | none => simp [latchCommand, State.modEng, settled, hi, checked, checkTrace, hs.1]
      | some d =>
        simp [latchCommand, State.modEng, settled, hi, checked, checkTrace, hs.1, endCycle]
        exact ⟨rfl, rfl⟩

end Sys2Proof.Laws
end

