-- ==== Sys2Proof/Laws/Memory.lean ====
section
/-! SUPPORT. A byte read after a byte written, and the canonical form: every operation over memory keeps it. -/

namespace Sys2Proof.Laws

open Sys2Proof.Machine

/-- Every listed address is above `a`. -/
def Above (a : Nat) (m : Memory) : Prop := ∀ c ∈ m, a < c.1

theorem wfBelow_cons {x : Nat} {v : Byte} {m : Memory} {n : Nat} :
    Memory.wfBelow ((x, v) :: m) n = true ↔ (x < n ∧ v ≠ blankByte) ∧ Above x m ∧ Memory.wfBelow m n = true := by
  simp [Memory.wfBelow, Above, and_assoc]

theorem get_above {a : Nat} {m : Memory} (h : Above a m) : m.get a = blankByte := by
  induction m with
  | nil => rfl
  | cons c m ih =>
    obtain ⟨x, v⟩ := c
    have hx : a < x := h (x, v) (by simp)
    simp only [Memory.get, if_neg (show x ≠ a by omega)]
    exact ih fun c hc => h c (by simp [hc])

theorem above_put {x a : Nat} {b : Byte} {m : Memory} (hxa : x < a) (h : Above x m) : Above x (m.put a b) := by
  induction m with
  | nil => intro c hc; simp only [Memory.put] at hc; split at hc <;> simp_all
  | cons c m ih =>
    obtain ⟨y, v⟩ := c
    have hy : x < y := h (y, v) (by simp)
    have hm : Above x m := fun c hc => h c (by simp [hc])
    intro c hc
    simp only [Memory.put] at hc
    split at hc
    · split at hc
      · exact h c hc
      · rcases List.mem_cons.mp hc with rfl | hc
        · exact hxa
        · exact h c hc
    · split at hc
      · split at hc
        · exact hm c hc
        · rcases List.mem_cons.mp hc with rfl | hc
          · exact hxa
          · exact hm c hc
      · rcases List.mem_cons.mp hc with rfl | hc
        · exact hy
        · exact ih hm c hc

/-- A write below the bound keeps the canonical form. -/
theorem wfBelow_put {m : Memory} {n a : Nat} (b : Byte) (ha : a < n) (h : m.wfBelow n = true) :
    (m.put a b).wfBelow n = true := by
  induction m with
  | nil =>
    simp only [Memory.put]
    split
    · rfl
    · next hb => exact wfBelow_cons.mpr ⟨⟨ha, hb⟩, by simp [Above], rfl⟩
  | cons c m ih =>
    obtain ⟨x, v⟩ := c
    obtain ⟨hxv, hab, hm⟩ := wfBelow_cons.mp h
    simp only [Memory.put]
    split
    · next hlt =>
      split
      · exact h
      · next hb =>
        refine wfBelow_cons.mpr ⟨⟨ha, hb⟩, ?_, h⟩
        intro c hc
        rcases List.mem_cons.mp hc with rfl | hc
        · exact hlt
        · exact lt_trans hlt (hab c hc)
    · split
      · next hlt hxa =>
        split
        · exact hm
        · next hb => exact wfBelow_cons.mpr ⟨⟨ha, hb⟩, hxa ▸ hab, hm⟩
      · next hlt hxa => exact wfBelow_cons.mpr ⟨hxv, above_put (by omega) hab, ih hm⟩

/-- A byte written reads back, every other byte reads as before. -/
theorem get_put {m : Memory} {n : Nat} (h : m.wfBelow n = true) (a : Nat) (b : Byte) (x : Nat) :
    (m.put a b).get x = if x = a then b else m.get x := by
  induction m with
  | nil =>
    simp only [Memory.put]
    split
    · next hb => simp [Memory.get, hb]
    · by_cases hx : x = a
      · simp [Memory.get, hx]
      · simp [Memory.get, hx, Ne.symm hx]
  | cons c m ih =>
    obtain ⟨y, v⟩ := c
    obtain ⟨hyv, hab, hm⟩ := wfBelow_cons.mp h
    simp only [Memory.put]
    split
    · next hlt =>
      have hblank : Memory.get ((y, v) :: m) a = blankByte :=
        get_above fun c hc => by
          rcases List.mem_cons.mp hc with rfl | hc
          · exact hlt
          · exact lt_trans hlt (hab c hc)
      split
      · next hb =>
        split
        · next hx => rw [hx, hblank, hb]
        · rfl
      · by_cases hx : x = a
        · simp [Memory.get, hx]
        · simp only [if_neg hx]; rw [Memory.get, if_neg (Ne.symm hx)]
    · split
      · next hlt hya =>
        subst hya
        split
        · next hb =>
          by_cases hx : x = y
          · simp only [if_pos hx]; rw [hx, get_above hab, hb]
          · simp [Memory.get, hx, Ne.symm hx]
        · by_cases hx : x = y
          · simp [Memory.get, hx]
          · simp [Memory.get, hx, Ne.symm hx]
      · next hlt hya =>
        by_cases hx : x = a
        · simp only [Memory.get, if_neg (show y ≠ x by omega)]; rw [ih hm]
        · by_cases hxy : y = x
          · simp [Memory.get, hx, hxy]
          · simp only [Memory.get, if_neg hxy]; rw [ih hm]

theorem flashAddr_lt (a : BitVec 27) (j : Nat) : flashAddr a j < flashSize := Nat.mod_lt _ (by decide)

/-- A run of fewer bytes than the address space does not meet itself. -/
theorem flashAddr_injective {a : BitVec 27} {i j : Nat} (hi : i < flashSize) (hj : j < flashSize)
    (h : flashAddr a i = flashAddr a j) : i = j := by
  have ha : a.toNat < flashSize := a.isLt
  have h' : (a.toNat + i) % flashSize = (a.toNat + j) % flashSize := h
  have e : flashSize = 134217728 := by decide
  rw [e] at hi hj h' ha
  omega

theorem wf_putRun {m : Memory} (a : BitVec 27) (f : Nat → Byte) (h : m.wf = true) : ∀ n, (m.putRun a f n).wf = true
  | 0 => h
  | n + 1 => wfBelow_put _ (flashAddr_lt a n) (wf_putRun a f h n)

/-- What a run of stores leaves: the bytes of the run, and every other byte as before (R48). -/
theorem get_putRun {m : Memory} (a : BitVec 27) (f : Nat → Byte) (h : m.wf = true) {n : Nat} (hn : n ≤ flashSize) :
    (∀ j < n, (m.putRun a f n).get (flashAddr a j) = f j) ∧
      ∀ x, (∀ j < n, x ≠ flashAddr a j) → (m.putRun a f n).get x = m.get x := by
  induction n with
  | zero => exact ⟨fun j hj => absurd hj (Nat.not_lt_zero j), fun x _ => rfl⟩
  | succ n ih =>
    obtain ⟨ih1, ih2⟩ := ih (by omega)
    have hw := wf_putRun a f h n
    constructor
    · intro j hj
      rw [Memory.putRun, get_put hw]
      split
      · next hx => rw [flashAddr_injective (by omega) (by omega) hx]
      · next hx => exact ih1 j (by rcases Nat.lt_succ_iff_lt_or_eq.mp hj with h | rfl; exact h; exact absurd rfl hx)
    · intro x hx
      rw [Memory.putRun, get_put hw, if_neg (hx n (by omega)), ih2 x fun j hj => hx j (by omega)]

theorem wf_eraseRun {m : Memory} (start : Nat) (f : Nat → Byte) (h : m.wf = true) :
    ∀ n, (m.eraseRun start f n).wf = true
  | 0 => h
  | n + 1 => by
    rw [Memory.eraseRun]
    split
    · next hlt => exact wfBelow_put _ hlt (wf_eraseRun start f h n)
    · exact wf_eraseRun start f h n

/-- What an erase leaves: the block's bytes inside the flash address space, and every other byte as before (R166). -/
theorem get_eraseRun {m : Memory} (start : Nat) (f : Nat → Byte) (h : m.wf = true) (n x : Nat) :
    (m.eraseRun start f n).get x = if start ≤ x ∧ x < start + n ∧ x < flashSize then f (x - start) else m.get x := by
  induction n with
  | zero => rw [Memory.eraseRun, if_neg (by omega)]
  | succ n ih =>
    rw [Memory.eraseRun]
    split
    · next hlt =>
      rw [get_put (wf_eraseRun start f h n), ih]
      by_cases hx : x = start + n
      · rw [if_pos hx, if_pos (by omega), hx, Nat.add_sub_cancel_left]
      · rw [if_neg hx]
        by_cases h2 : start ≤ x ∧ x < start + n ∧ x < flashSize
        · rw [if_pos h2, if_pos (by omega)]
        · rw [if_neg h2, if_neg (by omega)]
    · next hlt =>
      rw [ih]
      by_cases h2 : start ≤ x ∧ x < start + n ∧ x < flashSize
      · rw [if_pos h2, if_pos (by omega)]
      · rw [if_neg h2, if_neg (by omega)]

theorem wf_putCells (cs : List Host.Cell) : ∀ {m : Memory}, m.wf = true → (m.putCells cs).wf = true := by
  induction cs with
  | nil => exact fun h => h
  | cons c cs ih => exact fun h => ih (wfBelow_put _ (Nat.mod_lt _ (by decide)) h)

end Sys2Proof.Laws
end

