-- ==== Sys2Proof/Laws/PerInstr.lean ====
section
/-! SUPPORT. Families of lemmas over the constructors of `Instr`. -/

namespace Sys2Proof.Laws.EncodingFixedLength

/-- Every encoding has the fixed length of its format: a cycle image of six bytes, a frame of three words (30_encoding.md R110,
R113, R132). -/
def Statement (i : Instr) : Prop :=
  match encode i with
  | .cycle image => image.length = 6
  | .frame words _ => words.length = 3

theorem cycleRead (fla : Word) (dbc : Byte) : Statement (.cycleRead fla dbc) := rfl
theorem cycleWrite (fla : Word) (dbc : Byte) : Statement (.cycleWrite fla dbc) := rfl
theorem cycleErase (fla : Word) : Statement (.cycleErase fla) := rfl
theorem cycleSfdp (fla : Word) (dbc : Byte) : Statement (.cycleSfdp fla dbc) := rfl
theorem cycleJedecid (fla : Word) (dbc : Byte) : Statement (.cycleJedecid fla dbc) := rfl
theorem read (address : Word) (length : Word) : Statement (.read address length) := rfl
theorem write (address : Word) (bytes : List Byte) : Statement (.write address bytes) := rfl
theorem erase (address : Word) : Statement (.erase address) := rfl
theorem readJedecId : Statement (.readJedecId) := rfl
theorem discoverSfdp : Statement (.discoverSfdp) := rfl
theorem parse (image : List Byte) : Statement (.parse image) := rfl
theorem readRegion (id : Byte) : Statement (.readRegion id) := rfl
theorem readProtectedRange (index : Byte) : Statement (.readProtectedRange index) := rfl
theorem disableBiosWp : Statement (.disableBiosWp) := rfl

end Sys2Proof.Laws.EncodingFixedLength
end

