-- ==== Sys2Proof/Laws/Runs.lean ====
section
/-! SUPPORT. WHAT AN OPERATION CAN DO, SAID ONCE: `exec_runs` shows every operation as a sequence of the primitive moves of
`Runs`, with the writes that operation may make (`OpAccess`). Frames and invariants are inductions over `Runs`; nothing else
needs to unfold an operation. -/

namespace Sys2Proof.Laws

open Sys2Proof.Machine

/-- What a move of the engine may do to its latches. -/
structure EngStep (e f : Engine) : Prop where
  session : f.session = e.session ∨ e.session = .unchecked
  poll : f.pollCount = e.pollCount ∨ f.pollCount ≤ pollMax
  component : f.component = e.component ∨ f.component < numSfdpComponents
  busy : f.busy = e.busy

/-- The moves an operation is made of; `A` says which register writes it may make, and whether it reads `BIOS_CTL`. -/
inductive Runs (A : Event → Prop) : State → State → Prop
  | refl (s : State) : Runs A s s
  | eng {s t : State} {f : Engine} : Runs A s t → EngStep t.eng f → Runs A s { t with eng := f }
  | log {s t : State} (e : Event) : Runs A s t → Runs A s (t.log e)
  | tick {s t : State} (r : Reg) : Runs A s t → (r = .biosCtl → A (.read .biosCtl 0)) → Runs A s (tick r t)
  | settle {s t : State} {c : InFlight} : Runs A s t → t.ctl.inflight = some c → Runs A s (endCycle c t)
  | write {s t : State} {r : Reg} {v : Word} : Runs A s t → A (.write r v) → Runs A s (applyWrite r v t)
  | write8 {s t : State} {r : Reg} {k : Nat} {b : Byte} : Runs A s t → A (.write8 r k b) → Runs A s (applyWrite8 r k b t)

theorem Runs.trans {A : Event → Prop} {s t u : State} (h : Runs A s t) (h' : Runs A t u) : Runs A s u := by
  induction h' with
  | refl => exact h
  | eng _ he ih => exact ih.eng he
  | log e _ ih => exact ih.log e
  | tick r _ hr ih => exact ih.tick r hr
  | settle _ hc ih => exact ih.settle hc
  | write _ ha ih => exact ih.write ha
  | write8 _ ha ih => exact ih.write8 ha

theorem Runs.mono {A B : Event → Prop} (hab : ∀ e, A e → B e) {s t : State} (h : Runs A s t) : Runs B s t := by
  induction h with
  | refl => exact .refl _
  | eng _ he ih => exact ih.eng he
  | log e _ ih => exact ih.log e
  | tick r _ hr ih => exact ih.tick r fun h => hab _ (hr h)
  | settle _ hc ih => exact ih.settle hc
  | write _ ha ih => exact ih.write (hab _ ha)
  | write8 _ ha ih => exact ih.write8 (hab _ ha)

/-- A change of latches that no move restricts. -/
theorem Runs.latch {A : Event → Prop} (s : State) {f : Engine → Engine} (h1 : (f s.eng).session = s.eng.session)
    (h2 : (f s.eng).pollCount = s.eng.pollCount) (h3 : (f s.eng).component = s.eng.component)
    (h4 : (f s.eng).busy = s.eng.busy) : Runs A s (s.modEng f) :=
  (Runs.refl s).eng ⟨.inl h1, .inl h2, .inl h3, h4⟩

/-! ### Frames every run keeps -/

theorem tick_cfg (r : Reg) (s : State) : (tick r s).cfg = s.cfg := by
  unfold tick tickStatus tickBios
  split
  · split
    · rfl
    · split <;> rfl
  · split <;> rfl
  · rfl

theorem tick_eng (r : Reg) (s : State) : (tick r s).eng = s.eng := by
  unfold tick tickStatus tickBios
  split
  · split
    · rfl
    · split <;> rfl
  · split <;> rfl
  · rfl

theorem tick_fixed (r : Reg) (s : State) : FixedPart s (tick r s) := by
  unfold tick tickStatus tickBios
  split
  · split
    · exact ⟨rfl, rfl, rfl, rfl, rfl, rfl, rfl, rfl⟩
    · split <;> exact ⟨rfl, rfl, rfl, rfl, rfl, rfl, rfl, rfl⟩
  · split <;> exact ⟨rfl, rfl, rfl, rfl, rfl, rfl, rfl, rfl⟩
  · exact ⟨rfl, rfl, rfl, rfl, rfl, rfl, rfl, rfl⟩

theorem startCycle_fixed (s : State) : FixedPart s (startCycle s) := ⟨rfl, rfl, rfl, rfl, rfl, rfl, rfl, rfl⟩

theorem applyWrite_fixed (r : Reg) (v : Word) (s : State) : FixedPart s (applyWrite r v s) := by
  cases r <;> simp only [applyWrite] <;> (try split) <;> exact ⟨rfl, rfl, rfl, rfl, rfl, rfl, rfl, rfl⟩

theorem applyWrite8_fixed (r : Reg) (k : Nat) (b : Byte) (s : State) : FixedPart s (applyWrite8 r k b s) := by
  cases r with
  | ctl => simp only [applyWrite8]; split <;> exact ⟨rfl, rfl, rfl, rfl, rfl, rfl, rfl, rfl⟩
  | sts => exact ⟨rfl, rfl, rfl, rfl, rfl, rfl, rfl, rfl⟩
  | _ => simp only [applyWrite8]; exact applyWrite_fixed _ _ s

theorem fixedPart_refl (s : State) : FixedPart s s := ⟨rfl, rfl, rfl, rfl, rfl, rfl, rfl, rfl⟩

theorem fixedPart_trans {s t u : State} (h : FixedPart s t) (h' : FixedPart t u) : FixedPart s u :=
  ⟨h'.cfg.trans h.cfg, h'.freg.trans h.freg, h'.pr.trans h.pr, h'.sfdpIndex.trans h.sfdpIndex,
    h'.sfdpArea0.trans h.sfdpArea0, h'.sfdpArea1.trans h.sfdpArea1, h'.jedecRaw.trans h.jedecRaw,
    h'.pending.trans h.pending⟩

theorem Runs.fixed {A : Event → Prop} {s t : State} (h : Runs A s t) : FixedPart s t := by
  induction h with
  | refl => exact fixedPart_refl _
  | eng _ _ ih => exact fixedPart_trans ih ⟨rfl, rfl, rfl, rfl, rfl, rfl, rfl, rfl⟩
  | log e _ ih => exact fixedPart_trans ih ⟨rfl, rfl, rfl, rfl, rfl, rfl, rfl, rfl⟩
  | tick r _ _ ih => exact fixedPart_trans ih (tick_fixed r _)
  | settle _ _ ih => exact fixedPart_trans ih ⟨rfl, rfl, rfl, rfl, rfl, rfl, rfl, rfl⟩
  | write _ _ ih => exact fixedPart_trans ih (applyWrite_fixed _ _ _)
  | write8 _ _ ih => exact fixedPart_trans ih (applyWrite8_fixed _ _ _ _)

/-- A run keeps the configuration. -/
theorem Runs.cfg {A : Event → Prop} {s t : State} (h : Runs A s t) : t.cfg = s.cfg := h.fixed.cfg

theorem startCycle_latches (s : State) : (startCycle s).eng = s.eng := rfl

theorem applyWrite_latches (r : Reg) (v : Word) (s : State) : (applyWrite r v s).eng = s.eng := by
  cases r <;> simp only [applyWrite] <;> (try split) <;> rfl

theorem applyWrite8_latches (r : Reg) (k : Nat) (b : Byte) (s : State) : (applyWrite8 r k b s).eng = s.eng := by
  cases r with
  | ctl => simp only [applyWrite8]; split <;> rfl
  | sts => rfl
  | _ => simp only [applyWrite8]; exact applyWrite_latches _ _ s

theorem EngStep.trans {e f g : Engine} (h : EngStep e f) (h' : EngStep f g) : EngStep e g where
  session := by
    rcases h'.session with h1 | h1
    · rw [h1]; exact h.session
    · rcases h.session with h2 | h2
      · right; rw [← h2]; exact h1
      · right; exact h2
  poll := by
    rcases h'.poll with h1 | h1
    · rw [h1]; exact h.poll
    · exact .inr h1
  component := by
    rcases h'.component with h1 | h1
    · rw [h1]; exact h.component
    · exact .inr h1
  busy := h'.busy.trans h.busy

theorem EngStep.refl (e : Engine) : EngStep e e := ⟨.inl rfl, .inl rfl, .inl rfl, rfl⟩

/-- What a run does to the session, the poll counter and the component index. -/
theorem Runs.engStep {A : Event → Prop} {s t : State} (h : Runs A s t) : EngStep s.eng t.eng := by
  induction h with
  | refl => exact .refl _
  | eng _ he ih => exact ih.trans he
  | log e _ ih => exact ih
  | tick r _ _ ih => rw [tick_eng]; exact ih
  | settle _ _ ih => exact ih
  | write _ _ ih => rw [applyWrite_latches]; exact ih
  | write8 _ _ ih => rw [applyWrite8_latches]; exact ih

/-! ### The Register Port -/

theorem regRead_runs {A : Event → Prop} (r : Reg) (s : State) (hr : r = .biosCtl → A (.read .biosCtl 0) := by nofun) :
    Runs A s (regRead r s).2 := ((Runs.refl s).tick r hr).log _

theorem regWrite_runs {A : Event → Prop} {r : Reg} {v : Word} {s t : State} (ha : A (.write r v))
    (h : regWrite r v s = .ok t) : Runs A s t := by
  unfold regWrite at h
  split at h
  · cases hc : claimController s with
    | error f => rw [hc] at h; cases h
    | ok u =>
      rw [hc] at h; cases h
      have hu : Runs A s u := by
        unfold claimController at hc
        split at hc
        · cases hc; exact .refl _
        · next c hi =>
          split at hc
          · cases hc; exact (Runs.refl s).settle hi
          · cases hc
      exact (hu.log _).write ha
  · cases h; exact ((Runs.refl s).log _).write ha

theorem regWrite8_runs {A : Event → Prop} {r : Reg} {k : Nat} {b : Byte} {s t : State} (ha : A (.write8 r k b))
    (h : regWrite8 r k b s = .ok t) : Runs A s t := by
  unfold regWrite8 at h
  split at h
  · cases hc : claimController s with
    | error f => rw [hc] at h; cases h
    | ok u =>
      rw [hc] at h; cases h
      have hu : Runs A s u := by
        unfold claimController at hc
        split at hc
        · cases hc; exact .refl _
        · next c hi =>
          split at hc
          · cases hc; exact (Runs.refl s).settle hi
          · cases hc
      exact (hu.log _).write8 ha
  · cases h; exact ((Runs.refl s).log _).write8 ha

theorem portWrite_runs {A : Event → Prop} {r : Reg} {v : Word} (s : State) (ha : A (.write r v)) :
    Runs A s (portWrite r v s) := ((Runs.refl s).log _).write ha

/-! ### One cycle -/

/-- The writes of a cycle of kind `k` (R152 to R154, R158). -/
def CycleAccess (cfg : Config) (k : CycleKind) : Event → Prop
  | .write .addr v => maskFla v = v
  | .write8 .ctl j b => (j = cfg.ctl.dbcByte ∧ k ≠ .erase) ∨ (j = 0 ∧ b = cycByte cfg k)
  | .write .sts v => v = w1cPattern cfg.sts
  | .write8 .sts j b => j = 0 ∧ b = (w1cPattern cfg.sts).byte 0
  | _ => False

theorem atPhase_runs {A : Event → Prop} (p : Phase) (s : State) : Runs A s (s.atPhase p) := Runs.latch s rfl rfl rfl rfl

theorem sampleStatus_runs {A : Event → Prop} (s : State) : Runs A s (sampleStatus s).2 :=
  (regRead_runs .sts s).trans (Runs.latch _ (f := fun e => { e with stsSample := (regRead .sts s).1 }) rfl rfl rfl rfl)

theorem sampleStatus_latches (s : State) :
    (sampleStatus s).2.eng = { s.eng with stsSample := (sampleStatus s).1 } := by
  simp [sampleStatus, regRead, tick_eng]

theorem sessionCheck_runs {A : Event → Prop} (s : State) : Runs A s (sessionCheck s) := by
  unfold sessionCheck
  split
  · next h =>
    refine ((atPhase_runs .check s).trans (sampleStatus_runs _)).trans ((Runs.refl _).eng ⟨.inr ?_, .inl rfl, .inl rfl, rfl⟩)
    rw [sampleStatus_latches]; exact h
  · exact .refl _

theorem issueCycle_runs {s t : State} (h : issueCycle s = .ok t) : Runs (CycleAccess s.cfg s.eng.cmd.kind) s t := by
  have addr : ∀ {t}, phaseAddr s = .ok t → Runs (CycleAccess s.cfg s.eng.cmd.kind) s t ∧ t.eng.cmd = s.eng.cmd := by
    intro t ht
    refine ⟨(atPhase_runs .addr s).trans (regWrite_runs (by exact maskFla_maskFla _) ht), ?_⟩
    unfold phaseAddr regWrite claimController at ht
    simp only [sequencing, if_true] at ht
    split at ht
    · cases ht; rfl
    · split at ht <;> cases ht; rfl
  have dbc : ∀ {u t}, u.cfg = s.cfg → u.eng.cmd = s.eng.cmd → s.eng.cmd.kind ≠ .erase → phaseDbc u = .ok t →
      Runs (CycleAccess s.cfg s.eng.cmd.kind) u t ∧ t.eng.cmd = s.eng.cmd := by
    intro u t hu hc hk ht
    refine ⟨(atPhase_runs .dbc u).trans (regWrite8_runs (by rw [← hu]; exact Or.inl ⟨rfl, hk⟩) ht), ?_⟩
    unfold phaseDbc regWrite8 claimController at ht
    simp only [sequencing, if_true] at ht
    split at ht
    · cases ht; rw [portWrite8, applyWrite8_latches]; exact hc
    · split at ht <;> cases ht; rw [portWrite8, applyWrite8_latches]; exact hc
  have go : ∀ {u t}, u.cfg = s.cfg → u.eng.cmd = s.eng.cmd → phaseGo u = .ok t →
      Runs (CycleAccess s.cfg s.eng.cmd.kind) u t := by
    intro u t hu hc ht
    exact (atPhase_runs .go u).trans (regWrite8_runs (by rw [← hu, ← hc]; exact Or.inr ⟨rfl, rfl⟩) ht)
  unfold issueCycle at h
  cases h1 : phaseAddr s with
  | error f => rw [h1] at h; cases h
  | ok u =>
    rw [h1] at h
    obtain ⟨r1, c1⟩ := addr h1
    simp only [Except.bind] at h
    by_cases hk : u.eng.cmd.kind = .erase
    · rw [if_pos hk] at h
      exact r1.trans (go r1.cfg c1 h)
    · rw [if_neg hk] at h
      cases h2 : phaseDbc u with
      | error f => rw [h2] at h; cases h
      | ok w =>
        rw [h2] at h
        obtain ⟨r2, c2⟩ := dbc r1.cfg c1 (c1 ▸ hk) h2
        exact (r1.trans r2).trans (go (r2.cfg.trans r1.cfg) c2 h)

theorem pollLoop_runs {A : Event → Prop} : ∀ (k : Nat) (s : State), s.eng.pollCount + k ≤ pollMax →
    Runs A s (pollLoop k s).2
  | 0, s, _ => .refl s
  | k + 1, s, h => by
    have e : (pollOnce s).2.eng.pollCount = s.eng.pollCount + 1 := by
      simp [pollOnce, sampleStatus_latches]
    have h1 : Runs A s (pollOnce s).2 :=
      (sampleStatus_runs s).trans ((Runs.refl _).eng ⟨.inl rfl, .inr (by rw [sampleStatus_latches]; show s.eng.pollCount + 1 ≤ _; omega), .inl rfl, rfl⟩)
    unfold pollLoop
    split
    · exact h1
    · exact h1.trans (pollLoop_runs k _ (by omega))

theorem awaitIdle_runs {A : Event → Prop} (s : State) : Runs A s (awaitIdle s).2 := by
  have h0 : Runs A s (startPoll s) := (Runs.refl s).eng ⟨.inl rfl, .inr (Nat.zero_le _), .inl rfl, rfl⟩
  have h1 : Runs A s (pollLoop pollMax (startPoll s)).2 :=
    h0.trans (pollLoop_runs pollMax _ (by show 0 + pollMax ≤ pollMax; omega))
  unfold awaitIdle
  simp only
  split
  · exact h1
  · exact ((((h1.trans (atPhase_runs .sleep _)).log _).trans (atPhase_runs .late _)).trans (sampleStatus_runs _))

theorem stsClear_runs (k : CycleKind) (s : State) : Runs (CycleAccess s.cfg k) s (stsClear s) := by
  unfold stsClear
  split
  · exact ((Runs.refl s).log _).write8 ⟨rfl, rfl⟩
  · exact ((Runs.refl s).log _).write (by exact rfl)

theorem completeCycle_runs (k : CycleKind) (s : State) : Runs (CycleAccess s.cfg k) s (completeCycle s).2 := by
  have h0 := awaitIdle_runs (A := CycleAccess s.cfg k) s
  unfold completeCycle
  simp only
  split
  · have h1 := h0.trans (atPhase_runs .clear _)
    have h2 := stsClear_runs k ((awaitIdle s).2.atPhase .clear)
    rw [show ((awaitIdle s).2.atPhase .clear).cfg = s.cfg from h0.cfg] at h2
    exact ((h1.trans h2).trans (sampleStatus_runs _)).trans (atPhase_runs .idle _)
  · exact h0.trans (atPhase_runs .idle _)

/-- One cycle, from any state, as a run. -/
theorem executeCycle_runs {c : CycleCommand} {s t : State} {e : Option OpError} (h : executeCycle c s = .ok (e, t)) :
    Runs (CycleAccess s.cfg c.kind) s t := by
  have h0 : Runs (CycleAccess s.cfg c.kind) s (sessionCheck (latchCommand c s)) :=
    (Runs.latch s rfl rfl rfl rfl).trans (sessionCheck_runs _)
  have hc : (sessionCheck (latchCommand c s)).eng.cmd = c := by
    unfold sessionCheck
    split
    · simp [phaseCheck, sampleStatus_latches, latchCommand]
    · rfl
  unfold executeCycle at h
  simp only at h
  split at h
  · cases h; exact h0.trans (atPhase_runs .idle _)
  · cases h1 : issueCycle (sessionCheck (latchCommand c s)) with
    | error f => rw [h1] at h; cases h
    | ok u =>
      rw [h1] at h
      have h2 := issueCycle_runs h1
      rw [hc, h0.cfg] at h2
      have h3 := h0.trans h2
      have h4 := completeCycle_runs c.kind u
      rw [h3.cfg] at h4
      have e2 : completeCycle u = (e, t) := by simpa [Except.map] using h
      rw [e2] at h4
      exact h3.trans h4

/-- The errors a cycle can raise (R330, R341). -/
def IsCycleError (e : OpError) : Prop :=
  e = .hardwareSequencingDisabled ∨ e = .cycleTimeout ∨ ∃ a f, e = .cycleError a f ∧ (a || f) = true

theorem executeCycle_error {c : CycleCommand} {s t : State} {e : OpError} (h : executeCycle c s = .ok (some e, t)) :
    IsCycleError e := by
  unfold executeCycle at h
  simp only at h
  split at h
  · cases h; exact .inl rfl
  · cases h1 : issueCycle (sessionCheck (latchCommand c s)) with
    | error f => rw [h1] at h; cases h
    | ok u =>
      rw [h1] at h
      simp only [Except.map, Except.ok.injEq] at h
      unfold completeCycle at h
      simp only at h
      split at h
      · simp only [phaseVerify, verifyError, Prod.mk.injEq] at h
        obtain ⟨h, -⟩ := h
        split at h
        · next hb => cases h; exact .inr (.inr ⟨_, _, rfl, hb⟩)
        · cases h
      · cases h; exact .inr (.inl rfl)

/-! ### The latches a cycle leaves to its caller -/

/-- The coordinator's latches, which no cycle touches (R22, R24, R27). -/
structure SamePlan (e f : Engine) : Prop where
  failed : f.failed = e.failed
  errFirst : f.errFirst = e.errFirst
  opAddr : f.opAddr = e.opAddr
  opLen : f.opLen = e.opLen
  burst : f.burst = e.burst
  n : f.n = e.n
  r : f.r = e.r
  buf : f.buf = e.buf
  burstIndex : f.burstIndex = e.burstIndex
  component : f.component = e.component
  header : f.header = e.header
  busy : f.busy = e.busy

theorem samePlan_refl (e : Engine) : SamePlan e e := ⟨rfl, rfl, rfl, rfl, rfl, rfl, rfl, rfl, rfl, rfl, rfl, rfl⟩

theorem samePlan_trans {e f g : Engine} (h : SamePlan e f) (h' : SamePlan f g) : SamePlan e g :=
  ⟨h'.failed.trans h.failed, h'.errFirst.trans h.errFirst, h'.opAddr.trans h.opAddr, h'.opLen.trans h.opLen,
    h'.burst.trans h.burst, h'.n.trans h.n, h'.r.trans h.r, h'.buf.trans h.buf, h'.burstIndex.trans h.burstIndex,
    h'.component.trans h.component, h'.header.trans h.header, h'.busy.trans h.busy⟩

theorem claimController_latches {s t : State} (h : claimController s = .ok t) : t.eng = s.eng := by
  unfold claimController at h
  split at h
  · cases h; rfl
  · split at h <;> cases h; rfl

theorem regWrite_latches {r : Reg} {v : Word} {s t : State} (h : regWrite r v s = .ok t) : t.eng = s.eng := by
  unfold regWrite at h
  split at h
  · cases hc : claimController s with
    | error f => rw [hc] at h; cases h
    | ok u => rw [hc] at h; cases h; rw [portWrite, applyWrite_latches, log_eng]; exact claimController_latches hc
  · cases h; rw [portWrite, applyWrite_latches]; rfl

theorem regWrite8_latches {r : Reg} {k : Nat} {b : Byte} {s t : State} (h : regWrite8 r k b s = .ok t) :
    t.eng = s.eng := by
  unfold regWrite8 at h
  split at h
  · cases hc : claimController s with
    | error f => rw [hc] at h; cases h
    | ok u => rw [hc] at h; cases h; rw [portWrite8, applyWrite8_latches, log_eng]; exact claimController_latches hc
  · cases h; rw [portWrite8, applyWrite8_latches]; rfl

theorem sampleStatus_plan (s : State) : SamePlan s.eng (sampleStatus s).2.eng := by
  rw [sampleStatus_latches]; exact ⟨rfl, rfl, rfl, rfl, rfl, rfl, rfl, rfl, rfl, rfl, rfl, rfl⟩

theorem atPhase_plan (p : Phase) (s : State) : SamePlan s.eng (s.atPhase p).eng :=
  ⟨rfl, rfl, rfl, rfl, rfl, rfl, rfl, rfl, rfl, rfl, rfl, rfl⟩

theorem pollLoop_plan : ∀ (k : Nat) (s : State), SamePlan s.eng (pollLoop k s).2.eng
  | 0, s => samePlan_refl _
  | k + 1, s => by
    have h1 : SamePlan s.eng (pollOnce s).2.eng :=
      samePlan_trans (sampleStatus_plan s) ⟨rfl, rfl, rfl, rfl, rfl, rfl, rfl, rfl, rfl, rfl, rfl, rfl⟩
    unfold pollLoop
    split
    · exact h1
    · exact samePlan_trans h1 (pollLoop_plan k _)

theorem completeCycle_plan (s : State) : SamePlan s.eng (completeCycle s).2.eng := by
  have h0 : SamePlan s.eng (awaitIdle s).2.eng := by
    have h1 : SamePlan s.eng (pollLoop pollMax (startPoll s)).2.eng :=
      samePlan_trans (f := (startPoll s).eng) ⟨rfl, rfl, rfl, rfl, rfl, rfl, rfl, rfl, rfl, rfl, rfl, rfl⟩
        (pollLoop_plan pollMax _)
    unfold awaitIdle
    simp only
    split
    · exact h1
    · exact samePlan_trans h1 (samePlan_trans (f := ((phaseSleep (pollLoop pollMax (startPoll s)).2).atPhase .late).eng)
        ⟨rfl, rfl, rfl, rfl, rfl, rfl, rfl, rfl, rfl, rfl, rfl, rfl⟩ (sampleStatus_plan _))
  unfold completeCycle
  simp only
  split
  · have h2 : (stsClear ((awaitIdle s).2.atPhase .clear)).eng = ((awaitIdle s).2.atPhase .clear).eng := by
      unfold stsClear
      split
      · rw [portWrite8, applyWrite8_latches]; rfl
      · rw [portWrite, applyWrite_latches]; rfl
    refine samePlan_trans h0 (samePlan_trans (f := (stsClear ((awaitIdle s).2.atPhase .clear)).eng) ?_
      (samePlan_trans (sampleStatus_plan _) (atPhase_plan .idle _)))
    rw [h2]; exact atPhase_plan _ _
  · exact samePlan_trans h0 (atPhase_plan .idle _)

/-- A cycle leaves its caller's latches as they are. -/
theorem executeCycle_plan {c : CycleCommand} {s t : State} {e : Option OpError} (h : executeCycle c s = .ok (e, t)) :
    SamePlan s.eng t.eng := by
  have h0 : SamePlan s.eng (sessionCheck (latchCommand c s)).eng := by
    unfold sessionCheck
    split
    · refine samePlan_trans (f := ((latchCommand c s).atPhase .check).eng)
        ⟨rfl, rfl, rfl, rfl, rfl, rfl, rfl, rfl, rfl, rfl, rfl, rfl⟩ (samePlan_trans (sampleStatus_plan _)
        ⟨rfl, rfl, rfl, rfl, rfl, rfl, rfl, rfl, rfl, rfl, rfl, rfl⟩)
    · exact ⟨rfl, rfl, rfl, rfl, rfl, rfl, rfl, rfl, rfl, rfl, rfl, rfl⟩
  unfold executeCycle at h
  simp only at h
  split at h
  · cases h; exact samePlan_trans h0 (atPhase_plan _ _)
  · cases h1 : issueCycle (sessionCheck (latchCommand c s)) with
    | error f => rw [h1] at h; cases h
    | ok u =>
      rw [h1] at h
      have h2 : completeCycle u = (e, t) := by simpa [Except.map] using h
      have h3 : SamePlan (sessionCheck (latchCommand c s)).eng u.eng := by
        unfold issueCycle at h1
        cases ha : phaseAddr (sessionCheck (latchCommand c s)) with
        | error f => rw [ha] at h1; cases h1
        | ok v =>
          rw [ha] at h1
          have e1 := regWrite_latches ha
          simp only [Except.bind] at h1
          have p1 : SamePlan (sessionCheck (latchCommand c s)).eng v.eng := by rw [e1]; exact atPhase_plan _ _
          by_cases hk : v.eng.cmd.kind = .erase
          · rw [if_pos hk] at h1
            have e2 := regWrite8_latches h1
            refine samePlan_trans p1 ?_; rw [e2]; exact atPhase_plan _ _
          · rw [if_neg hk] at h1
            cases hd : phaseDbc v with
            | error f => rw [hd] at h1; cases h1
            | ok w =>
              rw [hd] at h1
              have e2 := regWrite8_latches hd
              have e3 := regWrite8_latches h1
              refine samePlan_trans p1 (samePlan_trans (f := w.eng) ?_ ?_)
              · rw [e2]; exact atPhase_plan _ _
              · rw [e3]; exact atPhase_plan _ _
      have h4 := completeCycle_plan u
      rw [h2] at h4
      exact samePlan_trans h0 (samePlan_trans h3 h4)

/-! ### Transfers -/

/-- The failure flag stands exactly when an error is recorded, and that error is one a cycle raises (R27, R186). -/
def FailureRecorded (e : Engine) : Prop := e.failed = e.errFirst.isSome ∧ ∀ x ∈ e.errFirst, IsCycleError x

theorem drainSlots_runs {A : Event → Prop} (k : Nat) : ∀ (count slot : Nat) (s : State),
    Runs A s (drainSlots k count slot s)
  | 0, _, s => .refl s
  | count + 1, slot, s =>
    ((regRead_runs _ s).trans (Runs.latch _
      (f := fun e => { e with buf := e.buf ++ leBytes (regRead (.data (Fin.ofNat 16 slot)) s).1 (min slotBytes (k - slotBytes * slot)) })
      rfl rfl rfl rfl)).trans (drainSlots_runs k count (slot + 1) _)

theorem leBytes_length (v : Word) (n : Nat) : (leBytes v n).length = min n 4 := by simp [leBytes]

/-- Draining appends to the buffer and touches no other latch. -/
theorem drainSlots_latches (k : Nat) : ∀ (count slot : Nat) (s : State), slot + count = slotCount k →
    ∃ bs, (drainSlots k count slot s).eng = { s.eng with buf := s.eng.buf ++ bs } ∧ bs.length = k - 4 * slot
  | 0, slot, s, h => by
    refine ⟨[], by simp [drainSlots], ?_⟩
    simp only [slotCount] at h
    simp; omega
  | count + 1, slot, s, h => by
    obtain ⟨bs, h1, h2⟩ := drainSlots_latches k count (slot + 1)
      ((regRead (.data (Fin.ofNat 16 slot)) s).2.modEng fun e => { e with
        buf := e.buf ++ leBytes (regRead (.data (Fin.ofNat 16 slot)) s).1 (min slotBytes (k - slotBytes * slot)) })
      (by omega)
    refine ⟨leBytes (regRead (.data (Fin.ofNat 16 slot)) s).1 (min slotBytes (k - slotBytes * slot)) ++ bs, ?_, ?_⟩
    · rw [drainSlots]; simp only; rw [h1]; simp [regRead, tick]
    · simp only [slotCount] at h
      rw [List.length_append, leBytes_length, h2]; simp only [slotBytes]; omega

/-- What a burst leaves in the coordinator: success adds `grow` bytes to the buffer, an error is recorded. -/
structure BurstStep (grow : Nat) (s : State) (p : Bool × State) : Prop where
  burst : p.2.eng.burst = s.eng.burst
  n : p.2.eng.n = s.eng.n
  r : p.2.eng.r = s.eng.r
  busy : p.2.eng.busy = s.eng.busy
  recorded : FailureRecorded s.eng → FailureRecorded p.2.eng
  grows : p.1 = false → p.2.eng.failed = false →
    s.eng.failed = false ∧ p.2.eng.buf.length = s.eng.buf.length + grow

theorem recordFailure_recorded {x : OpError} (hx : IsCycleError x) {e : Engine} (h : FailureRecorded e) :
    FailureRecorded { e with failed := true, errFirst := e.errFirst.orElse fun _ => some x } := by
  obtain ⟨-, h2⟩ := h
  cases he : e.errFirst with
  | none => exact ⟨by simp, by simpa using hx⟩
  | some y => exact ⟨by simp, by rw [he] at h2; simpa using h2⟩

theorem afterBurst_step {grow : Nat} {s : State} {p : Option OpError × State} {f : State → State}
    (hp : SamePlan s.eng p.2.eng) (hc : ∀ x ∈ p.1, IsCycleError x)
    (hf : ∃ bs, (f p.2).eng = { p.2.eng with buf := p.2.eng.buf ++ bs } ∧ bs.length = grow) :
    BurstStep grow s (afterBurst f p) := by
  obtain ⟨o, t⟩ := p
  obtain ⟨bs, h1, h2⟩ := hf
  change SamePlan s.eng t.eng at hp
  change (f t).eng = { t.eng with buf := t.eng.buf ++ bs } at h1
  obtain _ | x := o
  · refine ⟨?_, ?_, ?_, ?_, ?_, ?_⟩
    · simp [afterBurst, nextBurst, h1, hp.burst]
    · simp [afterBurst, nextBurst, h1, hp.n]
    · simp [afterBurst, nextBurst, h1, hp.r]
    · simp [afterBurst, nextBurst, h1, hp.busy]
    · intro hr; simpa [afterBurst, nextBurst, h1, FailureRecorded, hp.failed, hp.errFirst] using hr
    · intro _ hfd
      simp only [afterBurst, nextBurst, modEng_eng, h1, hp.failed] at hfd
      simp [afterBurst, nextBurst, h1, hp.buf, hfd, h2]
  · have hx := hc x rfl
    by_cases hs : x = .hardwareSequencingDisabled
    · subst hs
      refine ⟨hp.burst, hp.n, hp.r, hp.busy, ?_, fun h => by cases h⟩
      intro hr; simpa [afterBurst, FailureRecorded, hp.failed, hp.errFirst] using hr
    · have e : afterBurst f (some x, t) = (false, nextBurst (recordFailure x t)) := by
        cases x <;> first | rfl | exact absurd rfl hs
      rw [e]
      refine ⟨hp.burst, hp.n, hp.r, hp.busy, ?_, ?_⟩
      · intro hr
        have := recordFailure_recorded hx hr
        simpa [nextBurst, recordFailure, FailureRecorded, hp.errFirst] using this
      · intro _ hfd; simp [nextBurst, recordFailure] at hfd

theorem afterBurst_runs {A : Event → Prop} {f : State → State} (hf : ∀ s, Runs A s (f s)) (p : Option OpError × State) :
    Runs A p.2 (afterBurst f p).2 := by
  have next : ∀ s, Runs A s (nextBurst s) := fun s => Runs.latch s rfl rfl rfl rfl
  have fail : ∀ x s, Runs A s (recordFailure x s) := fun x s => Runs.latch s rfl rfl rfl rfl
  unfold afterBurst
  split
  · exact (hf _).trans (next _)
  · exact .refl _
  · exact (fail _ _).trans (next _)

theorem readBurst_runs {k : Nat} {s : State} {p : Bool × State} (h : readBurst k s = .ok p) :
    Runs (CycleAccess s.cfg .read) s p.2 ∧ BurstStep k s p := by
  unfold readBurst at h
  cases h1 : executeCycle ⟨.read, burstAddress s.eng.opAddr s.eng.burst s.eng.burstIndex, dbcOf k⟩ s with
  | error f => rw [h1] at h; cases h
  | ok q =>
    rw [h1] at h; cases h
    obtain ⟨e, t⟩ := q
    refine ⟨(executeCycle_runs h1).trans (afterBurst_runs (drainSlots_runs k (slotCount k) 0) (e, t)), ?_⟩
    refine afterBurst_step (executeCycle_plan h1) (fun x hx => ?_) ?_
    · cases hx; exact executeCycle_error h1
    · obtain ⟨bs, hb, hl⟩ := drainSlots_latches k (slotCount k) 0 t (by omega)
      exact ⟨bs, hb, by omega⟩

theorem writeBurst_runs {k : Nat} {s : State} {p : Bool × State} (h : writeBurstOf k s = .ok p) :
    Runs (fun e => CycleAccess s.cfg .write e ∨ ∃ v, e = .write (.data 0) v) s p.2 ∧ BurstStep 0 s p := by
  unfold writeBurstOf at h
  cases h0 : regWrite (.data 0) (packLe (burstBytes s k)) s with
  | error f => rw [h0] at h; cases h
  | ok u =>
    rw [h0] at h
    simp only [Except.bind] at h
    have r0 : Runs (fun e => CycleAccess s.cfg .write e ∨ ∃ v, e = .write (.data 0) v) s u :=
      regWrite_runs (.inr ⟨_, rfl⟩) h0
    have l0 := regWrite_latches h0
    cases h1 : executeCycle ⟨.write, burstAddress s.eng.opAddr s.eng.burst s.eng.burstIndex, dbcOf k⟩ u with
    | error f => rw [h1] at h; cases h
    | ok q =>
      rw [h1] at h; cases h
      obtain ⟨e, t⟩ := q
      have r1 := executeCycle_runs h1
      rw [r0.cfg] at r1
      refine ⟨(r0.trans (r1.mono fun e h => .inl h)).trans (afterBurst_runs (f := id) (fun s => .refl s) (e, t)), ?_⟩
      have hp := executeCycle_plan h1
      rw [l0] at hp
      refine afterBurst_step hp (fun x hx => ?_) ⟨[], by simp, rfl⟩
      cases hx; exact executeCycle_error h1

theorem burstStep_trans {a b : Nat} {s t : State} {p : Bool × State} (h : BurstStep a s (false, t)) (h' : BurstStep b t p) :
    BurstStep (a + b) s p where
  burst := h'.burst.trans h.burst
  n := h'.n.trans h.n
  r := h'.r.trans h.r
  busy := h'.busy.trans h.busy
  recorded hr := h'.recorded (h.recorded hr)
  grows h1 h2 := by
    obtain ⟨h3, h4⟩ := h'.grows h1 h2
    obtain ⟨h5, h6⟩ := h.grows rfl h3
    exact ⟨h5, by rw [h4, h6]; omega⟩

theorem runBursts_runs {A : Event → Prop} {cfg : Config} {grow : Nat} {burst : State → Except Fault (Bool × State)}
    (hb : ∀ s p, s.cfg = cfg → burst s = .ok p → Runs A s p.2 ∧ BurstStep grow s p) :
    ∀ (count : Nat) (s : State) (p : Bool × State), s.cfg = cfg → runBursts burst count s = .ok p →
      Runs A s p.2 ∧ BurstStep (count * grow) s p
  | 0, s, p, _, h => by
    cases h
    exact ⟨.refl _, ⟨rfl, rfl, rfl, rfl, id, fun _ h => ⟨h, by simp⟩⟩⟩
  | count + 1, s, p, hc, h => by
    unfold runBursts at h
    split at h
    · cases h
    · next t ht =>
      cases h
      obtain ⟨r1, b1⟩ := hb s _ hc ht
      exact ⟨r1, ⟨b1.burst, b1.n, b1.r, b1.busy, b1.recorded, fun h => by cases h⟩⟩
    · next t ht =>
      obtain ⟨r1, b1⟩ := hb s _ hc ht
      obtain ⟨r2, b2⟩ := runBursts_runs hb count t p (r1.cfg.trans hc) h
      refine ⟨r1.trans r2, ?_⟩
      have := burstStep_trans b1 b2
      rwa [show (count + 1) * grow = grow + count * grow by rw [Nat.succ_mul]; omega]

theorem runPlan_runs {A : Event → Prop} {g : Nat → Nat} {burst : Nat → State → Except Fault (Bool × State)} {s : State}
    (hb : ∀ k u p, u.cfg = s.cfg → burst k u = .ok p → Runs A u p.2 ∧ BurstStep (g k) u p) {p : Bool × State}
    (h : runPlan burst s = .ok p) :
    Runs A s p.2 ∧ BurstStep (s.eng.n * g s.eng.burst + if s.eng.r = 0 then 0 else g s.eng.r) s p := by
  unfold runPlan at h
  split at h
  · cases h
  · next t ht =>
    cases h
    obtain ⟨r1, b1⟩ := runBursts_runs (hb s.eng.burst) _ _ _ rfl ht
    exact ⟨r1, ⟨b1.burst, b1.n, b1.r, b1.busy, b1.recorded, fun h => by cases h⟩⟩
  · next t ht =>
    obtain ⟨r1, b1⟩ := runBursts_runs (hb s.eng.burst) _ _ _ rfl ht
    have hr : t.eng.r = s.eng.r := b1.r
    split at h
    · next h0 => cases h; rw [hr] at h0; rw [if_pos h0]; exact ⟨r1, b1⟩
    · next h0 =>
      rw [hr] at h0 h; rw [if_neg h0]
      obtain ⟨r2, b2⟩ := hb s.eng.r t p r1.cfg h
      exact ⟨r1.trans r2, burstStep_trans b1 b2⟩

/-- What an operation's run delivers. -/
def toResult (r : Except OpError Value) : OpResult :=
  match r with
  | .ok v => .ok v
  | .error e => .err e

theorem endOp_eq (r : Except OpError Value) (s : State) : endOp (r, s) = deliver (toResult r) s := by
  cases r <;> rfl

theorem transferResult_cases {value : State → Value} {p : Bool × State} (h : FailureRecorded p.2.eng) :
    (∃ x, transferResult value p = (.error x, p.2) ∧ IsCycleError x) ∨
      (transferResult value p = (.ok (value p.2), p.2) ∧ p.1 = false ∧ p.2.eng.failed = false) := by
  obtain ⟨b, t⟩ := p
  obtain ⟨h1, h2⟩ := h
  change t.eng.failed = t.eng.errFirst.isSome at h1
  unfold transferResult
  cases b with
  | true => exact .inl ⟨_, rfl, .inl rfl⟩
  | false =>
    cases he : t.eng.errFirst with
    | none =>
      rw [he] at h1
      refine .inr ⟨?_, rfl, h1⟩
      simp only [h1]
      rfl
    | some x =>
      rw [he] at h1
      refine .inl ⟨x, ?_, h2 x he⟩
      simp only [h1]
      rfl

/-! ### Identity -/

/-- A legal index (R117). -/
def PtAccess : Event → Prop
  | .write .ptidx v => LegalIndex v
  | _ => False

theorem ptRead_runs {A : Event → Prop} {index : Word} (s : State) (ha : A (.write .ptidx index)) :
    Runs A s (ptRead index s).2 := (portWrite_runs s ha).trans (regRead_runs _ _)

theorem sfdpBase_cases {c : Nat} (h : c < numSfdpComponents) : sfdpBase c = 0 ∨ sfdpBase c = 0x4000 := by
  simp only [numSfdpComponents] at h
  interval_cases c <;> decide

theorem legal_table (c k : Nat) (hc : c < numSfdpComponents) (hk : k < 256) :
    LegalIndex ((sfdpBase c ||| sfdpPtSection) + BitVec.ofNat 32 (sfdpIndexStep * k)) := by
  have h : ∀ j : Fin 256, LegalIndex ((0 ||| sfdpPtSection) + BitVec.ofNat 32 (sfdpIndexStep * j.val)) ∧
      LegalIndex ((0x4000 ||| sfdpPtSection) + BitVec.ofNat 32 (sfdpIndexStep * j.val)) := by
    decide +kernel
  rcases sfdpBase_cases hc with e | e <;> rw [e]
  · exact (h ⟨k, hk⟩).1
  · exact (h ⟨k, hk⟩).2

theorem legal_fixed (c : Nat) (hc : c < numSfdpComponents) :
    LegalIndex (sfdpBase c) ∧ LegalIndex (sfdpBase c + sfdpVersionOff) ∧ LegalIndex (sfdpBase c ||| sfdpPhSection) := by
  rcases sfdpBase_cases hc with e | e <;> rw [e] <;> decide

theorem readTable_runs {A : Event → Prop} {c : Nat} (hc : c < numSfdpComponents) (ha : ∀ v, LegalIndex v → A (.write .ptidx v)) :
    ∀ (count k : Nat) (acc : List Word) (s : State), k + count ≤ 256 →
      Runs A s (readTable (sfdpBase c) count k acc s).2
  | 0, _, _, s, _ => .refl s
  | count + 1, k, acc, s, h =>
    (ptRead_runs s (ha _ (legal_table c k hc (by omega)))).trans (readTable_runs hc ha count (k + 1) _ _ (by omega))

theorem readHeaders_runs {A : Event → Prop} : ∀ (count h : Nat) (acc : List SfdpParameterHeader) (s : State),
    Runs A s (readHeaders count h acc s).2 ∧ ∀ e, (readHeaders count h acc s).1 = .error e → e = .dataWindowExhausted
  | 0, _, _, s => ⟨.refl s, fun _ h => by cases h⟩
  | count + 1, h, acc, s => by
    have r0 : Runs A s (s.modEng fun e => { e with header := h }) := Runs.latch s rfl rfl rfl rfl
    unfold readHeaders
    simp only
    split
    · exact ⟨r0, fun e he => by cases he; rfl⟩
    · have ih := readHeaders_runs (A := A) count (h + 1) (acc ++ [pairHeader s.cfg.sfdpPh
        (regRead (.data (Fin.ofNat 16 (headerSlot s.cfg.sfdpPh h))) (s.modEng fun e => { e with header := h })).1
        (regRead (.data (Fin.ofNat 16 (headerSlot s.cfg.sfdpPh h + 1)))
          (regRead (.data (Fin.ofNat 16 (headerSlot s.cfg.sfdpPh h))) (s.modEng fun e => { e with header := h })).2).1])
        (regRead (.data (Fin.ofNat 16 (headerSlot s.cfg.sfdpPh h + 1)))
          (regRead (.data (Fin.ofNat 16 (headerSlot s.cfg.sfdpPh h))) (s.modEng fun e => { e with header := h })).2).2
      exact ⟨((r0.trans (regRead_runs _ _)).trans (regRead_runs _ _)).trans ih.1, ih.2⟩

/-- The writes of `DISCOVER_SFDP`. -/
def SfdpAccess (cfg : Config) (e : Event) : Prop := CycleAccess cfg .sfdp e ∨ PtAccess e

/-- The errors of the SFDP walk (R228). -/
def IsSfdpError (e : OpError) : Prop := e = .dataWindowExhausted ∨ IsCycleError e

theorem allHeaders_runs {nph : Nat} {first : SfdpParameterHeader} {s : State}
    {p : Except OpError (List SfdpParameterHeader) × State} (h : allHeaders nph first s = .ok p) :
    Runs (SfdpAccess s.cfg) s p.2 ∧ ∀ e, p.1 = .error e → IsSfdpError e := by
  unfold allHeaders at h
  split at h
  · cases h1 : executeCycle ⟨.sfdp, s.cfg.sfdpCycleFla, dbcOf s.cfg.sfdpCycleCount⟩ s with
    | error f => rw [h1] at h; cases h
    | ok q =>
      obtain ⟨e, t⟩ := q
      rw [h1] at h
      have r1 : Runs (SfdpAccess s.cfg) s t := (executeCycle_runs h1).mono fun e h => .inl h
      cases e with
      | some x => cases h; exact ⟨r1, fun e he => by cases he; exact .inr (executeCycle_error h1)⟩
      | none =>
        cases h
        obtain ⟨r2, e2⟩ := readHeaders_runs (A := SfdpAccess s.cfg) (nph - 1) 1 [first] t
        exact ⟨r1.trans r2, fun e he => .inl (e2 e he)⟩
  · cases h; exact ⟨.refl s, fun e he => by cases he⟩

theorem discoverComponent_runs {c : Nat} (hc : c < numSfdpComponents) {s : State}
    {p : Except OpError (Option SfdpComponent) × State} (h : discoverComponent c s = .ok p) :
    Runs (SfdpAccess s.cfg) s p.2 ∧ ∀ e, p.1 = .error e → IsSfdpError e := by
  obtain ⟨l1, l2, l3⟩ := legal_fixed c hc
  have ha : ∀ v, LegalIndex v → SfdpAccess s.cfg (.write .ptidx v) := fun v h => .inr h
  have r0 : Runs (SfdpAccess s.cfg) s (s.modEng fun e => { e with component := c }) :=
    (Runs.refl s).eng ⟨.inl rfl, .inl rfl, .inr hc, rfl⟩
  have r1 := r0.trans (ptRead_runs (index := sfdpBase c) _ (ha _ l1))
  unfold discoverComponent at h
  simp only at h
  split at h
  · cases h; exact ⟨r1, fun e he => by cases he⟩
  · have r2 := r1.trans (ptRead_runs (index := sfdpBase c + sfdpVersionOff) _ (ha _ l2))
    have r3 := r2.trans (ptRead_runs (index := sfdpBase c ||| sfdpPhSection) _ (ha _ l3))
    generalize hu : (ptRead (sfdpBase c ||| sfdpPhSection)
      (ptRead (sfdpBase c + sfdpVersionOff) (ptRead (sfdpBase c) (s.modEng fun e => { e with component := c })).2).2) = d
      at h r3
    cases h4 : allHeaders (headerCount (ptRead (sfdpBase c + sfdpVersionOff)
        (ptRead (sfdpBase c) (s.modEng fun e => { e with component := c })).2).1) (firstHeader s.cfg.sfdpPh d.1) d.2 with
    | error f => rw [h4] at h; cases h
    | ok q =>
      rw [h4] at h
      obtain ⟨r4, e4⟩ := allHeaders_runs h4
      rw [r3.cfg] at r4
      cases h
      obtain ⟨q1, q2⟩ := q
      cases q1 with
      | error e => exact ⟨r3.trans r4, fun e' he => by cases he; exact e4 e rfl⟩
      | ok hs =>
        refine ⟨(r3.trans r4).trans ?_, fun e' he => by cases he⟩
        exact readTable_runs hc ha _ _ _ _ (by have := (firstHeader s.cfg.sfdpPh d.1).lengthDwords.isLt; omega)

theorem discoverFrom_runs : ∀ (count c : Nat) (out : List (Nat × Option SfdpComponent)) (s : State)
    (p : Except OpError Value × State), c + count ≤ numSfdpComponents → discoverFrom count c out s = .ok p →
    Runs (SfdpAccess s.cfg) s p.2 ∧ ((∃ o, p.1 = .ok (.sfdp o)) ∨ ∃ e, p.1 = .error e ∧ IsSfdpError e)
  | 0, _, out, s, p, _, h => by cases h; exact ⟨.refl s, .inl ⟨out, rfl⟩⟩
  | count + 1, c, out, s, p, hc, h => by
    unfold discoverFrom at h
    split at h
    · cases h
    · next e t ht =>
      cases h
      obtain ⟨r1, e1⟩ := discoverComponent_runs (by omega) ht
      exact ⟨r1, .inr ⟨e, rfl, e1 e rfl⟩⟩
    · next r t ht =>
      obtain ⟨r1, -⟩ := discoverComponent_runs (by omega) ht
      obtain ⟨r2, e2⟩ := discoverFrom_runs count (c + 1) _ t p (by omega) h
      rw [r1.cfg] at r2
      exact ⟨r1.trans r2, e2⟩

/-! ### The parser -/

/-- The errors of the parser (R341). -/
def IsDescriptorError (e : OpError) : Prop := e = .signatureNotFound ∨ e = .truncatedImage ∨ e = .malformedDescriptor

theorem bind_error {α β : Type} {x : Except OpError α} {f : α → Except OpError β} {P : OpError → Prop}
    (h1 : ∀ e, x = .error e → P e) (h2 : ∀ a e, f a = .error e → P e) : ∀ e, x.bind f = .error e → P e := by
  intro e h
  cases x with
  | error e' => cases h; exact h1 _ rfl
  | ok a => exact h2 a e h

theorem descriptorDword_error {image : List Byte} {base off : Nat} :
    ∀ e, descriptorDword image base off = .error e → IsDescriptorError e := by
  intro e h
  unfold descriptorDword at h
  split at h
  · cases h; exact .inr (.inr rfl)
  · split at h <;> cases h; exact .inr (.inl rfl)

theorem sectionDwords_error {fd : Nat → Except OpError Word} (hfd : ∀ o e, fd o = .error e → IsDescriptorError e) (base : Nat) :
    ∀ (count r : Nat) (e : OpError), sectionDwords fd base count r = .error e → IsDescriptorError e
  | 0, _, e, h => by cases h
  | count + 1, r, e, h => by
    unfold sectionDwords at h
    split at h
    · next h1 => cases h; exact hfd _ _ h1
    · split at h
      · next h2 => cases h; exact sectionDwords_error hfd base count (r + 1) _ h2
      · cases h

theorem parseImage_error (cfg : Config) (image : List Byte) :
    ∀ e, parseImage cfg image = .error e → IsDescriptorError e := by
  refine bind_error ?_ fun D => ?_
  · intro e h
    unfold descriptorBase at h
    split at h
    · cases h; exact .inl rfl
    · split at h
      · cases h; exact .inl rfl
      · split at h <;> cases h; exact .inr (.inl rfl)
  · have hs := sectionDwords_error (fun o => descriptorDword_error (image := image) (base := D) (off := o))
    unfold decodeDescriptor
    refine bind_error descriptorDword_error fun _ => ?_
    refine bind_error descriptorDword_error fun _ => ?_
    refine bind_error descriptorDword_error fun _ => ?_
    refine bind_error descriptorDword_error fun _ => ?_
    refine bind_error (hs _ _ _) fun _ => ?_
    refine bind_error (hs _ _ _) fun _ => ?_
    refine bind_error (hs _ _ _) fun _ => ?_
    refine bind_error descriptorDword_error fun _ => ?_
    intro e h; cases h

/-! ### Every operation -/

/-- The register writes an operation may make, and who reads `BIOS_CTL`. -/
def OpAccess (cfg : Config) : Instr → Event → Prop
  | .cycleRead _ _ => CycleAccess cfg .read
  | .cycleWrite _ _ => CycleAccess cfg .write
  | .cycleErase _ => CycleAccess cfg .erase
  | .cycleSfdp _ _ => CycleAccess cfg .sfdp
  | .cycleJedecid _ _ => CycleAccess cfg .jedecId
  | .read _ _ => CycleAccess cfg .read
  | .write _ _ => fun e => CycleAccess cfg .write e ∨ ∃ v, e = .write (.data 0) v
  | .erase _ => CycleAccess cfg .erase
  | .readJedecId => CycleAccess cfg .jedecId
  | .discoverSfdp => SfdpAccess cfg
  | .parse _ => fun _ => False
  | .readRegion _ => fun _ => False
  | .readProtectedRange _ => fun _ => False
  | .disableBiosWp => fun e => (∃ v, e = .write .biosCtl v) ∨ e = .read .biosCtl 0

/-- What an operation that was accepted did: a run of its own accesses from the accepted state, and its delivered result. -/
def Ran (i : Instr) (s t : State) : Prop :=
  ∃ r u, Runs (OpAccess s.cfg i) (beginOp s) u ∧ t = deliver r u ∧ admitsResult i r = true

theorem admits_cycleError {i : Instr} (hi : issuesCycles i = true) {e : OpError} (he : IsCycleError e) :
    admitsResult i (.err e) = true := by
  rcases he with rfl | rfl | ⟨a, f, rfl, haf⟩ <;> cases i <;> simp_all [admitsResult, issuesCycles]

theorem runCycle_ran {i : Instr} {c : CycleCommand} {s t : State} (ha : OpAccess s.cfg i = CycleAccess s.cfg c.kind)
    (hi : issuesCycles i = true) (hok : admitsResult i (.ok .nothing) = true) (h : runCycle c s = .next t) : Ran i s t := by
  unfold runCycle finish at h
  cases h1 : executeCycle c (beginOp s) with
  | error f => rw [h1] at h; cases h
  | ok p =>
    obtain ⟨e, u⟩ := p
    rw [h1] at h
    have r1 := executeCycle_runs h1
    rw [beginOp_cfg, ← ha] at r1
    cases e with
    | none => cases h; exact ⟨.ok .nothing, u, r1, rfl, hok⟩
    | some x => cases h; exact ⟨.err x, u, r1, rfl, admits_cycleError hi (executeCycle_error h1)⟩

theorem runSizedCycle_ran {i : Instr} {c : CycleCommand} {s t : State} (ha : OpAccess s.cfg i = CycleAccess s.cfg c.kind)
    (hi : issuesCycles i = true) (hok : admitsResult i (.ok .nothing) = true) (h : runSizedCycle c s = .next t) :
    t = refuseIllegal s ∨ Ran i s t := by
  unfold runSizedCycle at h
  split at h
  · exact .inr (runCycle_ran ha hi hok h)
  · cases h; exact .inl rfl

/-- EVERY OPERATION IS A RUN of its own accesses from the accepted state, ended by a result of its own type, or a refusal that
changes nothing. -/
theorem exec_runs {i : Instr} {s t : State} (h : exec i s = .next t) : t = refuseIllegal s ∨ Ran i s t := by
  cases i with
  | cycleRead fla dbc => exact runSizedCycle_ran rfl rfl rfl h
  | cycleWrite fla dbc => exact runSizedCycle_ran rfl rfl rfl h
  | cycleErase fla => exact .inr (runCycle_ran rfl rfl rfl h)
  | cycleSfdp fla dbc => exact runSizedCycle_ran rfl rfl rfl h
  | cycleJedecid fla dbc => exact runSizedCycle_ran rfl rfl rfl h
  | erase a => exact .inr (runCycle_ran (i := .erase a) (c := ⟨.erase, a, 0⟩) rfl rfl rfl h)
  | read a n =>
    right
    have h : finish (readOp a n.toNat (beginOp s)) = .next t := h
    unfold readOp finish at h
    cases h1 : runPlan readBurst (latchPlan a n.toNat (readBurstSize n.toNat) (beginOp s)) with
    | error f => rw [h1] at h; cases h
    | ok p =>
      rw [h1] at h
      obtain ⟨r1, b1⟩ := runPlan_runs (A := CycleAccess s.cfg .read) (g := id)
        (fun k u p hu hp => by have := readBurst_runs hp; rw [hu] at this; exact this) h1
      have r0 : Runs (CycleAccess s.cfg .read) (beginOp s) (latchPlan a n.toNat (readBurstSize n.toNat) (beginOp s)) :=
        Runs.latch _ rfl rfl rfl rfl
      have hrec : FailureRecorded p.2.eng := b1.recorded ⟨rfl, by simp [latchPlan]⟩
      rcases transferResult_cases (value := fun t => .bytes t.eng.buf) hrec with ⟨x, hx, hc⟩ | ⟨hx, hp, hf⟩
      · simp only [Except.map, hx] at h
        cases h
        exact ⟨.err x, p.2, r0.trans r1, rfl, admits_cycleError rfl hc⟩
      · simp only [Except.map, hx] at h
        cases h
        refine ⟨.ok (.bytes p.2.eng.buf), p.2, r0.trans r1, rfl, ?_⟩
        have hl : p.2.eng.buf.length = 0 + (n.toNat / readBurstSize n.toNat * readBurstSize n.toNat +
            if n.toNat % readBurstSize n.toNat = 0 then 0 else n.toNat % readBurstSize n.toNat) := (b1.grows hp hf).2
        have hd := Nat.div_add_mod n.toNat (readBurstSize n.toNat)
        simp only [admitsResult, beq_iff_eq, hl]
        rw [Nat.mul_comm] at hd
        by_cases h0 : n.toNat % readBurstSize n.toNat = 0
        · rw [if_pos h0]; omega
        · rw [if_neg h0]; omega
  | write a bs =>
    right
    have h : finish (writeOp a bs (beginOp s)) = .next t := h
    unfold writeOp finish at h
    cases h1 : runPlan writeBurstOf
        ((latchPlan a bs.length writeBurst (beginOp s)).modEng fun e => { e with buf := bs }) with
    | error f => rw [h1] at h; cases h
    | ok p =>
      rw [h1] at h
      obtain ⟨r1, b1⟩ := runPlan_runs (A := OpAccess s.cfg (.write a bs)) (g := fun _ => 0)
        (fun k u p hu hp => by have := writeBurst_runs hp; rw [hu] at this; exact this) h1
      have r0 : Runs (OpAccess s.cfg (.write a bs)) (beginOp s)
          ((latchPlan a bs.length writeBurst (beginOp s)).modEng fun e => { e with buf := bs }) :=
        (Runs.latch _ rfl rfl rfl rfl).trans (Runs.latch _ rfl rfl rfl rfl)
      have hrec : FailureRecorded p.2.eng := b1.recorded ⟨rfl, by simp [latchPlan]⟩
      rcases transferResult_cases (value := fun _ => .nothing) hrec with ⟨x, hx, hc⟩ | ⟨hx, -, -⟩
      · simp only [Except.map, hx] at h
        cases h
        exact ⟨.err x, p.2, r0.trans r1, rfl, admits_cycleError rfl hc⟩
      · simp only [Except.map, hx] at h
        cases h
        exact ⟨.ok .nothing, p.2, r0.trans r1, rfl, rfl⟩
  | readJedecId =>
    right
    have h : finish (readJedecOp (beginOp s)) = .next t := h
    unfold readJedecOp at h
    split at h
    · cases h1 : executeCycle ⟨.jedecId, 0, dbcOf jedecByteCount⟩ (beginOp s) with
      | error f => rw [h1] at h; cases h
      | ok p =>
        obtain ⟨e, u⟩ := p
        rw [h1] at h
        have r1 := executeCycle_runs h1
        cases e with
        | some x => cases h; exact ⟨.err x, u, r1, rfl, admits_cycleError rfl (executeCycle_error h1)⟩
        | none => cases h; exact ⟨.ok (.jedec _), _, r1.trans (regRead_runs _ _), rfl, rfl⟩
    · cases h; exact ⟨.err .unsupportedJedecCycle, beginOp s, .refl _, rfl, rfl⟩
  | discoverSfdp =>
    right
    have h : finish (discoverFrom numSfdpComponents 0 [] (beginOp s)) = .next t := h
    cases h1 : discoverFrom numSfdpComponents 0 [] (beginOp s) with
    | error f => rw [h1] at h; cases h
    | ok p =>
      rw [h1] at h
      obtain ⟨r1, h2⟩ := discoverFrom_runs _ _ _ _ _ (by decide) h1
      cases h
      obtain ⟨q, u⟩ := p
      rw [endOp_eq]
      refine ⟨toResult q, u, r1, rfl, ?_⟩
      rcases h2 with ⟨o, rfl⟩ | ⟨e, rfl, rfl | he⟩
      · rfl
      · rfl
      · exact admits_cycleError rfl he
  | parse image =>
    right
    have h : finish (.ok ((parseImage s.cfg image).map Value.descriptor, beginOp s)) = .next t := h
    cases h
    rw [endOp_eq]
    refine ⟨toResult ((parseImage s.cfg image).map .descriptor), beginOp s, .refl _, rfl, ?_⟩
    cases hp : parseImage s.cfg image with
    | ok d => rfl
    | error e => rcases parseImage_error _ _ _ hp with rfl | rfl | rfl <;> rfl
  | readRegion id =>
    have h : (if h : id.toNat < 12 then finish (.ok (readRegionOp ⟨id.toNat, h⟩ (beginOp s))) else .next (refuseIllegal s)) =
      .next t := h
    split at h
    · cases h; exact .inr ⟨.ok (.region _), _, regRead_runs _ _, rfl, rfl⟩
    · cases h; exact .inl rfl
  | readProtectedRange index =>
    have h : (if h : index.toNat < 5 then finish (.ok (readProtectedRangeOp ⟨index.toNat, h⟩ (beginOp s)))
      else .next (refuseIllegal s)) = .next t := h
    split at h
    · cases h; exact .inr ⟨.ok (.range _), _, regRead_runs _ _, rfl, rfl⟩
    · cases h; exact .inl rfl
  | disableBiosWp =>
    right
    have h : finish (.ok (disableBiosWpOp (beginOp s))) = .next t := h
    cases h
    unfold disableBiosWpOp
    simp only
    split
    · exact ⟨.ok (.bool true), _, regRead_runs _ _ fun _ => .inr rfl, rfl, rfl⟩
    · unfold attemptWriteEnable
      simp only
      have r1 : Runs (OpAccess s.cfg .disableBiosWp) (beginOp s) (regRead .biosCtl (portWrite .biosCtl
          ((regRead .biosCtl (beginOp s)).1 ||| (1#32 <<< (regRead .biosCtl (beginOp s)).2.cfg.fields.we))
          (regRead .biosCtl (beginOp s)).2)).2 :=
        ((regRead_runs _ _ fun _ => .inr rfl).trans (portWrite_runs _ (.inl ⟨_, rfl⟩))).trans (regRead_runs _ _ fun _ => .inr rfl)
      split
      · exact ⟨.ok (.bool true), _, r1, rfl, rfl⟩
      · exact ⟨.err (.protectionStateUnverified _ _), _, r1, rfl, rfl⟩

end Sys2Proof.Laws
end

