-- ==== Sys2Proof/Laws/Window.lean ====
section
/-! SUPPORT. The bytes of the data window, and what a cycle that has its effect leaves in the window and in flash (R48). -/

namespace Sys2Proof.Laws

open Sys2Proof.Machine

/-- A window byte after bytes have been laid over it. -/
theorem windowByte_overlay (f : Nat → Option Byte) (w : Vector Word 16) {j : Nat} (hj : j < 64) :
    windowByte (overlayWindow f w) j = (f j).getD (windowByte w j) := by
  have h4 : j / slotBytes < 16 := by simp only [slotBytes]; omega
  have e : slotBytes * (j / slotBytes) + j % slotBytes = j := Nat.div_add_mod j slotBytes
  have hf : (Fin.ofNat 16 (j / slotBytes)) = ⟨j / slotBytes, h4⟩ := by
    ext; simp [Fin.ofNat, Nat.mod_eq_of_lt h4]
  have hm : j % slotBytes < 4 := Nat.mod_lt _ (by decide)
  simp only [windowByte, hf, overlayWindow, Vector.get_ofFn]
  generalize j / slotBytes = q at *
  generalize hr : j % slotBytes = r at *
  subst e
  match r, hm with
  | 0, _ => simp
  | 1, _ => simp
  | 2, _ => simp
  | 3, _ => simp

/-- A slot is its four window bytes (R34). -/
theorem slot_eq_bytes (w : Vector Word 16) (i : Fin 16) :
    w.get i = Word.ofBytes (windowByte w (4 * i.val)) (windowByte w (4 * i.val + 1)) (windowByte w (4 * i.val + 2))
      (windowByte w (4 * i.val + 3)) := by
  have h (k : Nat) (hk : k < 4) : windowByte w (4 * i.val + k) = (w.get i).byte k := by
    have e1 : (4 * i.val + k) / slotBytes = i.val := by simp only [slotBytes]; omega
    have e2 : (4 * i.val + k) % slotBytes = k := by simp only [slotBytes]; omega
    have e3 : Fin.ofNat 16 i.val = i := by ext; simp [Fin.ofNat, Nat.mod_eq_of_lt i.isLt]
    simp only [windowByte, e1, e2, e3]
  have h0 := h 0 (by decide)
  simp only [Nat.add_zero] at h0
  rw [h0, h 1 (by decide), h 2 (by decide), h 3 (by decide), ofBytes_byte]

/-- The latched cycle under a consistent configuration (R114, R128, R129, R153). -/
theorem latched_kind {s : State} (hw : s.cfg.wellFormed = true) (c : CycleCommand) :
    (latched c s).kind = if kindAdmitted s.cfg c.kind then some c.kind else none :=
  decodeKind_cycByte hw c.kind _

theorem latched_count {s : State} (hw : s.cfg.wellFormed = true) {c : CycleCommand} (hk : c.kind ≠ .erase)
    (hd : c.dbc.toNat ≤ 63) : (latched c s).count = c.dbc.toNat + 1 := by
  simp only [latched, latchedCtl, if_neg hk]
  exact cycleCount_written hw c.kind c.dbc hd _

/-- A Read cycle's window (R164). -/
theorem windowAfter_read {c : InFlight} {s : State} (hk : c.kind = some .read) (he : c.draw.effect = .performed)
    {j : Nat} (hj : j < c.count) (h64 : j < 64) :
    windowByte (windowAfter c s) j = s.env.flash.get (flashAddr c.addr j) := by
  simp [windowAfter, windowChange, windowFill, he, hk, windowByte_overlay _ _ h64, hj]

/-- A JedecId cycle's window (R167). -/
theorem windowAfter_jedec {c : InFlight} {s : State} (hk : c.kind = some .jedecId) (he : c.draw.effect = .performed)
    {j : Nat} (hj : j < min 4 c.count) : windowByte (windowAfter c s) j = s.env.jedecRaw.byte j := by
  have h4 : j < 4 := lt_of_lt_of_le hj (Nat.min_le_left ..)
  simp only [windowAfter, hk]
  rw [windowByte_overlay _ _ (by omega)]
  simp [windowChange, windowFill, he, hk, slotBytes, lt_min_iff.mp hj]

/-- An Sfdp cycle's window (R168). -/
theorem windowAfter_sfdp {c : InFlight} {s : State} (hk : c.kind = some .sfdp) (he : c.draw.effect = .performed)
    {j : Nat} (hj : j < c.count) (h64 : j < 64) :
    windowByte (windowAfter c s) j = (s.sfdpArea c.draw.secondComponent).get (c.addr.toNat + j) := by
  simp [windowAfter, windowChange, windowFill, he, hk, windowByte_overlay _ _ h64, hj]

/-- A Write or Erase cycle leaves the window as it is, whatever its effect (R21, R78, R385). -/
theorem windowAfter_writing {c : InFlight} {s : State} (hk : c.kind = some .write ∨ c.kind = some .erase) :
    windowAfter c s = s.ctl.window := by
  rcases hk with hk | hk <;> simp [windowAfter, hk]

/-- Flash after any cycle keeps its canonical form. -/
theorem flashAfter_wf {c : InFlight} {s : State} (h : s.env.flash.wf = true) : (flashAfter c s).wf = true := by
  unfold flashAfter
  split
  · exact wf_putCells _ h
  · exact wf_putCells _ h
  · exact wf_putCells _ h
  · exact wf_putRun _ _ h _
  · exact wf_eraseRun _ _ h _
  · exact h

/-- A cycle that only reads leaves flash as it is (log entry 11). -/
theorem flashAfter_reading {c : InFlight} {s : State} (hk : c.kind = some .read ∨ c.kind = some .jedecId ∨ c.kind = some .sfdp) :
    flashAfter c s = s.env.flash := by
  rcases hk with hk | hk | hk <;> cases he : c.draw.effect <;> simp [flashAfter, hk, he]

end Sys2Proof.Laws
end

