-- ==== Sys2Proof/Tests/Slice0.lean ====
section
/-! SUPPORT. Tests of the model on the words and vectors of the spec (30_encoding.md R132; 95_test_vectors.md). Every expected
value is the spec's. -/

namespace Sys2Proof.Tests

open Sys2Proof.Machine

/-! ### Ill-formed operands are refused by WellFormed (R136), and boundary operands are not -/

theorem test_wf_cycleRead : (Instr.cycleRead 0 64).wellFormed = false := by decide
theorem test_wf_cycleRead_max : (Instr.cycleRead 0 63).wellFormed = true := by decide
theorem test_wf_cycleWrite : (Instr.cycleWrite 0 64).wellFormed = false := by decide
theorem test_wf_cycleSfdp : (Instr.cycleSfdp 0 64).wellFormed = false := by decide
theorem test_wf_cycleJedecid : (Instr.cycleJedecid 0 255).wellFormed = false := by decide
theorem test_wf_readRegion : (Instr.readRegion 12).wellFormed = false := by decide
theorem test_wf_readProtectedRange : (Instr.readProtectedRange 5).wellFormed = false := by decide
theorem test_wf_write (bs : List Byte) (h : bs.length = 2 ^ 32) : (Instr.write 0 bs).wellFormed = false := by
  simp [Instr.wellFormed, h]
theorem test_wf_parse (bs : List Byte) (h : bs.length = 2 ^ 32) : (Instr.parse bs).wellFormed = false := by
  simp [Instr.wellFormed, h]
theorem test_wf_config : defaultConfig.wellFormed = true := by decide
theorem test_wf_config_sts : (Config.wellFormed { defaultConfig with sts := { defaultSts with ael := 1 } }) = false := by
  decide
theorem test_wf_config_codes : (Config.wellFormed { defaultConfig with codes := { defaultCodes with erase := 16 } }) = false := by
  decide

/-! ### Decoding: the words of 95_test_vectors.md B9 and the bytes of 30_encoding.md R114 -/

theorem test_decode_cycleRead :
    decode (.cycle [0b00000001, 0x03, 0x00, 0x10, 0x00, 0x00]) = .ok (.cycleRead 0x00001000 3) := by decide
theorem test_decode_cycleWrite :
    decode (.cycle [0b00000101, 0x01, 0x04, 0x20, 0x00, 0x00]) = .ok (.cycleWrite 0x00002004 1) := by decide
theorem test_decode_cycleErase :
    decode (.cycle [0b00000111, 0xFF, 0x00, 0x00, 0x01, 0x00]) = .ok (.cycleErase 0x00010000) := by decide
theorem test_decode_cycleSfdp :
    decode (.cycle [0b00001011, 0x3F, 0x00, 0x00, 0x00, 0x00]) = .ok (.cycleSfdp 0 63) := by decide
theorem test_decode_cycleJedecid :
    decode (.cycle [0b00001101, 0x03, 0x00, 0x00, 0x00, 0x00]) = .ok (.cycleJedecid 0 3) := by decide
theorem test_decode_read :
    decode (.frame [0x00000001, 0x00001000, 0x00000005] []) = .ok (.read 0x1000 5) := by decide
theorem test_decode_write :
    decode (.frame [0x00000002, 0x00001000, 0x00000005] [0xDE, 0xAD, 0xBE, 0xEF, 0x01]) =
      .ok (.write 0x1000 [0xDE, 0xAD, 0xBE, 0xEF, 0x01]) := by decide
theorem test_decode_erase : decode (.frame [0x00000003, 0x00002345, 0] []) = .ok (.erase 0x2345) := by decide
theorem test_decode_readJedecId : decode (.frame [0x00000004, 0, 0] []) = .ok .readJedecId := by decide
theorem test_decode_discoverSfdp : decode (.frame [0x00000005, 0, 0] []) = .ok .discoverSfdp := by decide
theorem test_decode_parse : decode (.frame [0x00000006, 0, 3] [0x5A, 0xA5, 0xF0]) = .ok (.parse [0x5A, 0xA5, 0xF0]) := by
  decide
theorem test_decode_readRegion : decode (.frame [0x00000307, 0, 0] []) = .ok (.readRegion 3) := by decide
theorem test_decode_readProtectedRange :
    decode (.frame [0x00000408, 0, 0] []) = .ok (.readProtectedRange 4) := by decide
theorem test_decode_disableBiosWp : decode (.frame [0x00000009, 0, 0] []) = .ok .disableBiosWp := by decide

/-! Refusals of B9. -/

theorem test_refuse_op0 : decode (.frame [0, 0, 0] []) = .error .unknownOp := by decide
theorem test_refuse_opA : decode (.frame [0x0A, 0, 0] []) = .error .unknownOp := by decide
theorem test_refuse_reserved : decode (.frame [0x00010001, 0, 0] []) = .error .reservedBits := by decide
theorem test_refuse_arg : decode (.frame [0x00000101, 0, 0] []) = .error .unusedArg := by decide
theorem test_refuse_region : decode (.frame [0x00000C07, 0, 0] []) = .error .regionId := by decide
theorem test_refuse_range : decode (.frame [0x00000508, 0, 0] []) = .error .rangeIndex := by decide
theorem test_refuse_eraseLength : decode (.frame [3, 0x2345, 1] []) = .error .unusedLength := by decide
theorem test_refuse_jedecAddress : decode (.frame [4, 0x10, 0] []) = .error .unusedAddress := by decide
theorem test_refuse_byteCount : decode (.cycle [0x01, 64, 0, 0, 0, 0]) = .error .byteCount := by decide
theorem test_refuse_code1 : decode (.cycle [0x03, 0, 0, 0, 0, 0]) = .error .unknownCycle := by decide

/-! ### Small states -/

/-- The reference controller's draws (92_eei_decisions.md D34) with `delay` and `stick` given. -/
def draw (delay : Option Nat) (ael fcerr : Bool) : CycleDraw :=
  { delay := delay, drains := false, fcerr := fcerr, ael := ael, fcerrAfterClear := fcerr, aelAfterClear := ael
    effect := .performed, residue := [], erased := [], erasedFill := 0xFF, secondComponent := false }

/-- `delay = 0`, `stick = none`. -/
def prompt : CycleDraw := draw (some 0) false false

/-- A fresh engine with these draws to come. -/
def fresh (draws : List CycleDraw) : State := State.reset.modEnv fun e => { e with cycleDraws := draws }

/-- "session Enabled": the check has already passed. -/
def enabled (draws : List CycleDraw) : State := (fresh draws).modEng fun e => { e with session := .enabled }

/-- The status register reads 0: hardware sequencing disabled. -/
def noSequencing : State := (fresh []).modCtl fun c => { c with sts := 0 }

/-- A platform without the cycle-type field. -/
def noTypeField : State := { fresh [] with cfg := { defaultConfig with hasCycleTypeField := false } }

def resultOf : Host.Outcome State Fault Refusal → Option OpResult
  | .next t => t.host.result
  | _ => none

def traceOf : Host.Outcome State Fault Refusal → List Event
  | .next t => t.host.trace
  | _ => []

def flashByteOf (a : Nat) : Host.Outcome State Fault Refusal → Byte
  | .next t => t.env.flash.get a
  | _ => 0

def sessionOf : Host.Outcome State Fault Refusal → Option Session
  | .next t => some t.eng.session
  | _ => none

def windowOf : Host.Outcome State Fault Refusal → Option (Vector Word 16)
  | .next t => some t.ctl.window
  | _ => none

def isCycleInFlight : Host.Outcome State Fault Refusal → Bool
  | .fault .cycleInFlight => true
  | _ => false

/-! ### The cycle kinds -/

/-- Example of R164. -/
theorem test_cycleRead_trace :
    traceOf (exec (.cycleRead 0x00001000 3) (enabled [prompt])) =
      [.write .addr 0x00001000, .write8 .ctl 1 0x03, .write8 .ctl 0 0x01, .read .sts 0x00004001, .write8 .sts 0 0x07,
        .read .sts 0x00004000] := by decide

/-- B1.5, second row of stuck bits: `AEL` stuck. -/
theorem test_cycleRead_aelStuck :
    resultOf (exec (.cycleRead 0 3) (enabled [draw (some 0) true false])) = some (.err (.cycleError true false)) := by decide

/-- Example of R165, and its effect on flash: window bytes 0 and 1 are stored, no more. -/
theorem test_cycleWrite_flash :
    let o := exec (.cycleWrite 0x00002004 1)
      ((enabled [prompt]).modCtl fun c => { c with window := c.window.set 0 0x44332211 })
    flashByteOf 0x2004 o = 0x11 ∧ flashByteOf 0x2005 o = 0x22 ∧ flashByteOf 0x2006 o = 0xFF := by decide

theorem test_cycleWrite_byte :
    (traceOf (exec (.cycleWrite 0x00002004 1) (enabled [prompt])))[2]? = some (.write8 .ctl 0 0x05) := by decide

/-- Example of R166: no byte count is written. -/
theorem test_cycleErase_trace :
    traceOf (exec (.cycleErase 0x00010000) (enabled [prompt])) =
      [.write .addr 0x00010000, .write8 .ctl 0 0x07, .read .sts 0x00004001, .write8 .sts 0 0x07, .read .sts 0x00004000] := by
  decide

/-- Fresh engine, `FDV = 0` (B1.3): one access, the session is fatal. -/
theorem test_cycleErase_disabled :
    traceOf (exec (.cycleErase 0) noSequencing) = [.read .sts 0] ∧
      resultOf (exec (.cycleErase 0) noSequencing) = some (.err .hardwareSequencingDisabled) ∧
      sessionOf (exec (.cycleErase 0) noSequencing) = some .fatal := by decide

theorem test_cycleSfdp_bytes :
    (traceOf (exec (.cycleSfdp 0 63) (enabled [prompt]))).take 3 =
      [.write .addr 0, .write8 .ctl 1 0x3F, .write8 .ctl 0 0x0B] := by decide

theorem test_cycleJedecid_bytes :
    (traceOf (exec (.cycleJedecid 0 3) (enabled [prompt]))).take 3 =
      [.write .addr 0, .write8 .ctl 1 0x03, .write8 .ctl 0 0x0D] := by decide

/-- R167, R168: admitted only with the cycle-type field. -/
theorem test_cycleJedecid_notAdmitted :
    resultOf (exec (.cycleJedecid 0 3) noTypeField) = some (.err .illegalCommand) ∧
      traceOf (exec (.cycleJedecid 0 3) noTypeField) = [] := by decide
theorem test_cycleSfdp_notAdmitted :
    resultOf (exec (.cycleSfdp 0 63) noTypeField) = some (.err .illegalCommand) ∧
      traceOf (exec (.cycleSfdp 0 63) noTypeField) = [] := by decide

/-- R385: a Write cycle that departs from its contract still leaves the window. -/
theorem test_cycleWrite_window :
    windowOf (exec (.cycleWrite 0 3) (enabled [{ prompt with effect := .departs [(5, 1)] [7, 7, 7, 7, 7] }])) =
      some (Vector.replicate 16 0) := by decide

/-! ### Transfers -/

/-- Example of R187: flash bytes `11 22 33 44 55 66` at `0x1000`. -/
theorem test_read_six :
    resultOf (exec (.read 0x1000 6) ((enabled [prompt, prompt]).modEnv fun e => { e with
        flash := [(0x1000, 0x11), (0x1001, 0x22), (0x1002, 0x33), (0x1003, 0x44), (0x1004, 0x55), (0x1005, 0x66)] })) =
      some (.ok (.bytes [0x11, 0x22, 0x33, 0x44, 0x55, 0x66])) := by decide

/-- Burst 0 of `READ 0, 8` times out and the controller stays busy: the next go write is the fault of U3 (program P5). -/
theorem test_read_timeoutFault :
    isCycleInFlight (exec (.read 0 8) (enabled [draw none false false])) = true := by decide +kernel

/-- Program P1's write: 15 accesses on a fresh engine. -/
theorem test_write_trace :
    traceOf (exec (.write 0x1000 [0xDE, 0xAD, 0xBE, 0xEF, 0x01]) (fresh [prompt, prompt])) =
      [.write (.data 0) 0xEFBEADDE, .read .sts 0x00004000, .write .addr 0x00001000, .write8 .ctl 1 0x03, .write8 .ctl 0 0x05,
        .read .sts 0x00004001, .write8 .sts 0 0x07, .read .sts 0x00004000,
        .write (.data 0) 0x00000001, .write .addr 0x00001004, .write8 .ctl 1 0x00, .write8 .ctl 0 0x05,
        .read .sts 0x00004001, .write8 .sts 0 0x07, .read .sts 0x00004000] := by decide

/-- Program P5b: slot 0 is written before the check fails, and the second burst is not packed. -/
theorem test_write_disabled :
    traceOf (exec (.write 0 [1, 2, 3, 4, 5]) noSequencing) = [.write (.data 0) 0x04030201, .read .sts 0] := by decide

/-- Program P3 with a block of 16 bytes: the block holding `0x2345` is erased, the bytes around it are not. -/
theorem test_erase_block :
    let s := (fresh [prompt]).modEnv fun e => { e with flash := [(0x233F, 0), (0x2340, 0), (0x234F, 0), (0x2350, 0xA5)] }
    let o := exec (.erase 0x2345) { s with cfg := { s.cfg with eraseBlockBytes := 16 } }
    flashByteOf 0x233F o = 0 ∧ flashByteOf 0x2340 o = 0xFF ∧ flashByteOf 0x234F o = 0xFF ∧ flashByteOf 0x2350 o = 0xA5 := by
  decide

/-- Program P5: 2 writes, 1001 status reads, one sleep, no clear. -/
theorem test_erase_timeout :
    let o := exec (.erase 0x00010000) (enabled [draw none false false])
    resultOf o = some (.err .cycleTimeout) ∧ (traceOf o).length = 1004 := by decide +kernel

/-! ### Identity -/

/-- Program P6. -/
theorem test_readJedecId :
    resultOf (exec .readJedecId ((fresh [prompt]).modEnv fun e => { e with jedecRaw := 0x00124001 })) =
      some (.ok (.jedec ⟨0x01, 0x4012⟩)) := by decide

/-- B5: without the cycle-type field, no access and no session check. -/
theorem test_readJedecId_unsupported :
    let s := noTypeField
    resultOf (exec .readJedecId s) = some (.err .unsupportedJedecCycle) ∧ traceOf (exec .readJedecId s) = [] ∧
      sessionOf (exec .readJedecId s) = some .unchecked := by decide

/-- The environment of program P7: two headers, a table of 16 dwords; bytes `FF` are not listed. -/
def sfdpEnv (s : State) : State := s.modEnv fun e => { e with
  sfdpIndex :=
    [(0, 0x53), (1, 0x46), (2, 0x44), (3, 0x50), (4, 0x06), (5, 0x01), (6, 0x01), (7, 0x00), (0x1000, 0x00), (0x1001, 0x06),
      (0x1002, 0x01), (0x1003, 0x02), (0x2000, 0x00), (0x2001, 0x00), (0x2002, 0x00), (0x2003, 0xA0)]
  sfdpArea0 := [(16, 0xC2), (17, 0x00), (18, 0x01), (19, 0x04), (20, 0x10), (21, 0x01), (22, 0x00)] }

/-- Program P7 with a table of two dwords: two headers, the second from slots 4 and 5, component 1 not found. -/
theorem test_discoverSfdp :
    resultOf (exec .discoverSfdp (sfdpEnv (fresh [prompt]))) =
      some (.ok (.sfdp [(0, some
        { sfdpMinor := 6, sfdpMajor := 1, numHeaders := 2
          headers := [⟨0x00, 1, 6, 2, none⟩, ⟨0xFFC2, 1, 0, 4, some 0x000110⟩]
          table := [0xA0000000, 0xFFFFFFFF] }), (1, none)])) := by decide +kernel

/-- B6.5, first row: both components absent, four accesses. -/
theorem test_discoverSfdp_absent :
    traceOf (exec .discoverSfdp (fresh [])) =
      [.write .ptidx 0, .read .ptdata 0xFFFFFFFF, .write .ptidx 0x4000, .read .ptdata 0xFFFFFFFF] := by decide

/-! ### The descriptor -/

def dword (v : Word) : List Byte := leBytes v 4

/-- The image of program P8. -/
def p8Image : List Byte :=
  List.replicate 0x30 0 ++ dword 0x0FF0A55A ++ dword 0x00040003 ++ dword 0x12100208 ++ dword 0x00000120 ++
  List.replicate 0x10 0 ++ dword 0x11111111 ++ dword 0x22222222 ++ dword 0x33333333 ++ List.replicate 4 0 ++
  dword 0x00000000 ++ dword 0x07FF0500 ++ dword 0x04FF0001 ++ dword 0xFFFFFFFF ++
  (List.replicate 8 (dword 0x00007FFF)).flatten ++ List.replicate 0x10 0 ++ dword 0x00600F00 ++ dword 0xFFFFFF00 ++
  List.replicate (0xEFC - 0x88) 0 ++ dword 0x000004DF ++ (List.range 256).map (BitVec.ofNat 8)

/-- Program P8: the map, the straps, the VSCC table, the present regions, the access table, the vendor data. -/
theorem test_parse_p8 :
    (parseImage defaultConfig p8Image).toOption.map (fun d =>
      [d.componentBase, d.regionBase, d.masterBase, d.numRegions, d.numMasters] == [0x030, 0x040, 0x080, 12, 2] &&
      [d.pchStrapBase, d.pchStrapLength, d.cpuStrapBase, d.cpuStrapLength, d.vsccTableBase, d.vsccTableLength] ==
        [0x100, 0x12, 0x200, 1, 0xDF0, 4] &&
      d.descriptorOffset == 0x20 && d.componentDwords == [0x11111111, 0x22222222, 0x33333333] &&
      (presentRegions d).map FlashRegion.id == [0, 1, 2] && d.masterAccess.lookup (0, 0) == some ⟨true, false⟩ &&
      d.masterAccess.lookup (1, 0) == some ⟨true, true⟩ && d.oem == (List.range 256).map (BitVec.ofNat 8)) =
    some true := by decide +kernel

/-- The example of R270 (B7.4, last row), as an operation. -/
theorem test_parse_malformed :
    resultOf (exec (.parse (List.replicate 16 0xFF ++ dword 0x0FF0A55A ++ List.replicate 4076 0xFF)) (fresh [])) =
      some (.err .malformedDescriptor) := by decide +kernel

/-! ### Regions and protection -/

/-- Example of R301. -/
theorem test_readRegion :
    resultOf (exec (.readRegion 1) ((fresh []).modCtl fun c => { c with freg := c.freg.set 1 0x07FF0500 })) =
      some (.ok (.region ⟨1, 0x00500000, 0x007FFFFF, 0x07FF0500⟩)) := by decide

/-- Example of R303. -/
theorem test_readProtectedRange :
    resultOf (exec (.readProtectedRange 0) ((fresh []).modCtl fun c => { c with pr := c.pr.set 0 0x87FF0500 })) =
      some (.ok (.range ⟨0, 0x00500000, 0x007FFFFF, true, false, 0x87FF0500⟩)) := by decide

/-- `BIOS_CTL` with these contents and this outcome of the confirming read. -/
def bios (v : Word) (we : List Bool) : State :=
  ((fresh []).modCtl fun c => { c with biosCtl := v }).modEnv fun e => { e with weDraws := we }

/-- Program P9, first operation. -/
theorem test_disableBiosWp_refused :
    traceOf (exec .disableBiosWp (bios 0x22 [false])) =
        [.read .biosCtl 0x22, .write .biosCtl 0x23, .read .biosCtl 0x22] ∧
      resultOf (exec .disableBiosWp (bios 0x22 [false])) = some (.err (.protectionStateUnverified true true)) := by decide

/-- B8.3, last row: no other bit changes. -/
theorem test_disableBiosWp_set :
    traceOf (exec .disableBiosWp (bios 0xFFFFFFDC [true])) =
      [.read .biosCtl 0xFFFFFFDC, .write .biosCtl 0xFFFFFFDD, .read .biosCtl 0xFFFFFFDD] := by decide

/-- R388: found set at first, and clear at the next operation's first read. -/
theorem test_disableBiosWp_lost :
    resultOf (exec .disableBiosWp (bios 0x01 [false, false])) = some (.ok (.bool true)) ∧
      traceOf (exec .disableBiosWp ((bios 0x01 [false, false]).modCtl fun c => { c with biosWeOpen := true })) =
        [.read .biosCtl 0x00, .write .biosCtl 0x01, .read .biosCtl 0x00] := by decide

/-! ### The step -/

/-- An illegal frame is refused with no access (B9). -/
theorem test_step_illegal : resultOf (step (State.reset.withFetchWord 96 0x0A)) = some (.err .illegalCommand) := by decide

/-- A command presented while busy is refused (R380). -/
theorem test_step_busy :
    resultOf (step ((present (.frame [9, 0, 0] []) (fresh [])).modEng fun e => { e with busy := true })) =
      some (.err .illegalCommand) := by decide

/-! ### Witnesses: a concrete state and operands for the hypotheses of each statement of Certificates/Slice0

`witness_<Name>` is for `Obligations.<Name>`; several statements share one where their hypotheses are the same. -/

/-- Draws that never end, and end before the next sequencing write. -/
def draining : CycleDraw := { draw none false false with drains := true }

/-- The controller still runs a cycle that will not end. -/
def stuck : State := (enabled []).modCtl fun c => { c with inflight := some ⟨some .read, 0, 4, none, draw none false false⟩ }

/-- The walk of program P7 at component `c`, with `n + 1` headers reported; the other component is absent. -/
def walk (c : Nat) (n : Byte) (d : CycleDraw) : State :=
  (sfdpEnv (fresh [d])).modEnv fun e => { e with
    sfdpIndex := (e.sfdpIndex.put 6 n).map fun x => (x.1 + 0x4000 * c, x.2) }

/-- The session has found hardware sequencing disabled. -/
def fatal (s : State) : State := s.modEng fun e => { e with session := .fatal }

theorem witness_DecodeOfEncode : (Instr.write 0x1000 [0xDE, 0xAD]).wellFormed = true := by decide
theorem witness_DecodedIsEncoded :
    decode (.frame [0x00000B07, 0, 0] []) = .ok (.readRegion 11) ∧
      decode (.cycle [0x07, 0xFF, 0, 0, 1, 0]) = .ok (.cycleErase 0x10000) := by decide

/-- Every clause at its boundary: `op` 0 and 10, reserved bits, `arg`, `address`, `length`, region 12, range 5, count 64. -/
theorem witness_IllegalEncodingsRejected :
    (Word.byte 0x00 0).toNat < 1 ∧ 9 < (Word.byte 0x0A 0).toNat ∧ (0x00010001#32 >>> 16 ≠ 0) ∧
      (Word.byte 0x0101 1 ≠ 0 ∧ (Word.byte 0x0101 0).toNat ≠ 7) ∧ (4 ≤ (Word.byte 0x04 0).toNat) ∧
      ((Word.byte 0x03 0).toNat ≠ 6) ∧ (11 < (Word.byte 0x0C07 1).toNat) ∧ (4 < (Word.byte 0x0508 1).toNat) ∧
      (63 < (64 : Byte).toNat) ∧ (Instr.readRegion 12).wellFormed = false ∧ noTypeField.cfg.hasCycleTypeField = false := by
  decide

theorem witness_IllegalCommandChangesNothing :
    (State.reset.withFetchWord 96 0x0A).host.pending = [.frame [0x0A, 0, 0] []] ∧
      (State.reset.withFetchWord 96 0x0A).eng.busy = false ∧
      decode (.frame [0x0A, 0, 0] []) = .error .unknownOp := by decide
theorem witness_StepRunsDecoded :
    (State.reset.withFetchWord 96 0x0307).host.pending = [.frame [0x0307, 0, 0] []] ∧
      (State.reset.withFetchWord 96 0x0307).eng.busy = false ∧
      decode (.frame [0x0307, 0, 0] []) = .ok (.readRegion 3) := by decide
theorem witness_StepWaitsOrRefuses :
    State.reset.host.pending = [] ∧
      ∃ s : State, s.host.pending = [.frame [9, 0, 0] []] ∧ s.eng.busy = true :=
  ⟨rfl, (present (.frame [9, 0, 0] []) (fresh [])).modEng fun e => { e with busy := true }, rfl, rfl⟩

theorem witness_StepKeepsInvariant :
    ∃ t, MachineInv (State.reset.withFetchWord 96 0x0307) ∧ step (State.reset.withFetchWord 96 0x0307) = .next t ∧
      t.host.result = some (.ok (.region ⟨3, 0, 0xFFF, 0⟩)) :=
  ⟨_, ⟨rfl, by decide, by decide, rfl, by decide, by decide, by decide⟩, rfl, by decide⟩

/-- Also for `SessionLatch`, `ResultsAreTyped`, `CycleOperationsFrame`, `ReadingLeavesFlash` and `CycleIsBounded`. -/
theorem witness_FixedPartKept :
    ∃ t, exec (cycleInstr .read 0x1000 63) (fresh [prompt]) = .next t ∧ t.eng.session = .enabled ∧
      issuesCycles (cycleInstr .read 0x1000 63) = true ∧ (fresh [prompt]).cfg.wellFormed = true ∧
      (fresh [prompt]).ctl.inflight = none :=
  ⟨_, rfl, by decide, rfl, by decide, rfl⟩

theorem witness_WritingLeavesWindow :
    ∃ t, exec (.write 0x1000 [0xAB]) (fresh [prompt]) = .next t ∧ (fresh [prompt]).cfg.wellFormed = true ∧
      (fresh [prompt]).ctl.inflight = none := ⟨_, rfl, rfl, rfl⟩

/-- For every statement about a cycle that begins at an idle controller: `CycleRuns` and those after it; the draws are the last
that end in the tight loop, that end at the late sample, and the first that time out. -/
theorem witness_CycleRuns :
    ∀ k ∈ [some 0, some 999, some 1000, some 1001, none],
      (fresh [draw k false false]).cfg.wellFormed = true ∧ Ready (fresh [draw k false false]) ∧
        Admitted (fresh [draw k false false]) .sfdp 63 ∧ Admitted noTypeField .erase 63 ∧
        (fresh [draw k false false]).cycleDraw.delay = k := by decide

/-- An operation that delivers a result has a next state. -/
theorem next_of_result {o : Host.Outcome State Fault Refusal} (h : resultOf o ≠ none) : ∃ t, o = .next t := by
  cases o <;> simp_all [resultOf]

theorem witness_CycleAccessCounts_loop :
    (draw (some 999) false false).delay = some 999 ∧
      ∃ t, exec (cycleInstr .read 0 63) (fresh [draw (some 999) false false]) = .next t :=
  ⟨rfl, next_of_result (by decide +kernel)⟩
theorem witness_CycleAccessCounts_late :
    (draw (some 1000) false false).delay = some 1000 ∧
      ∃ t, exec (cycleInstr .erase 0 0) (enabled [draw (some 1000) false false]) = .next t :=
  ⟨rfl, next_of_result (by decide +kernel)⟩
theorem witness_CycleAccessCounts_timeout :
    (draw (some 1001) false false).inTime = false ∧
      ∃ t, exec (cycleInstr .erase 0 0) (fresh [draw (some 1001) false false]) = .next t :=
  ⟨rfl, next_of_result (by decide +kernel)⟩

theorem witness_VerdictIsTheResample :
    (fresh [draw (some 1000) true false]).cycleDraw.inTime = true ∧
      (fresh [draw (some 1000) true false]).cycleDraw.verdict = some (.cycleError true false) := by decide
theorem witness_CycleTimesOut : (fresh [draw (some 1001) false false]).cycleDraw.inTime = false := by decide
theorem witness_DisabledSequencingIsFatal :
    noSequencing.eng.session = .unchecked ∧ noSequencing.ctl.inflight = none ∧
      (noSequencing.regValue .sts).getLsbD noSequencing.cfg.sts.fdv = false := by decide
theorem witness_FatalSessionFails :
    (fatal noSequencing).eng.session = .fatal ∧ (fatal noSequencing).ctl.inflight = none ∧
      Admitted (fatal noSequencing) .jedecId 63 ∧ (Instr.read 0 1).wellFormed = true ∧ ([0xAB] : List Byte) ≠ [] ∧
      (∀ c < 2, (fatal (walk c 1 prompt)).eng.session = .fatal ∧ SfdpReaches (fatal (walk c 1 prompt)) c ∧
        SfdpFound (fatal (walk c 1 prompt)) c ∧ sfdpHeaders (fatal (walk c 1 prompt)) c ≠ 1) := by decide
theorem witness_BusyControllerFaults :
    stuck.ctl.inflight = some ⟨some .read, 0, 4, none, draw none false false⟩ ∧ (draw none false false).drains = false ∧
      stuck.eng.session = .enabled ∧ Admitted stuck .sfdp 63 ∧
      ∀ c < 2, let s := { stuck with env := (walk c 1 prompt).env }
        SfdpReaches s c ∧ SfdpFound s c ∧ sfdpHeaders s c ≠ 1 := by decide

/-- For the five statements of what a cycle does to the window and to flash. -/
theorem witness_ReadCycleFillsWindow :
    (fresh [prompt]).cfg.wellFormed = true ∧ (fresh [prompt]).cfg.hasCycleTypeField = true ∧ Ready (fresh [prompt]) ∧
      (fresh [prompt]).env.flash.wf = true ∧ (fresh [prompt]).cycleDraw.inTime = true ∧
      (fresh [prompt]).cycleDraw.effect = .performed := by decide

/-- For the transfers: two bursts of 4 (length 5), one of 64 and one of 1 (length 65), none (length 0), all faithful. -/
theorem witness_ReadDeliversFlash :
    Ready (fresh [prompt, prompt]) ∧
      (∀ i < cyclesOf 5 (readBurstSize 5), CycleDraw.faithful ((fresh [prompt, prompt]).nthDraw i) = true) ∧
      (∀ i < cyclesOf 65 (readBurstSize 65), CycleDraw.faithful ((fresh [prompt, prompt]).nthDraw i) = true) ∧
      cyclesOf 5 4 = 2 ∧ cyclesOf 65 64 = 2 ∧ cyclesOf 0 4 = 0 := by decide

/-- For `ReadBurstPlan`, `WriteBurstPlan` and both cases of `FirstFailureReported`: a burst that never ends before the last one,
no failure, and a last burst that is left in flight. -/
theorem witness_FirstFailureReported :
    NextDraws CycleDraw.settles (2 - 1) (fresh [draining, draw (some 3) true false]) ∧
      firstError (fresh [draining, draw (some 3) true false]) 2 = some .cycleTimeout ∧
      NextDraws CycleDraw.settles (2 - 1) (fresh [prompt, prompt]) ∧ firstError (fresh [prompt, prompt]) 2 = none ∧
      NextDraws CycleDraw.settles (2 - 1) (fresh [prompt, draw none false false]) ∧
      ¬ NextDraws CycleDraw.settles 2 (fresh [prompt, draw none false false]) ∧
      firstError (fresh [prompt, draw none false false]) 2 = some .cycleTimeout := by
  decide

/-- For `WriteStoresBytes` too. -/
theorem witness_RoundTrip :
    Ready (fresh [prompt, prompt, prompt, prompt]) ∧ (fresh [prompt, prompt, prompt, prompt]).env.flash.wf = true ∧
      ([1, 2, 3, 4, 5] : List Byte).length ≤ flashSize ∧
      NextDraws CycleDraw.faithful (cyclesOf 5 4 + cyclesOf 5 (readBurstSize 5)) (fresh [prompt, prompt, prompt, prompt]) := by
  decide

theorem witness_ProtectionNotConsulted : issuesCycles (.write 0 [0xAB]) = true ∧ issuesCycles .discoverSfdp = true := by decide

/-! Identity. -/

theorem witness_JedecUnsupported :
    noTypeField.cfg.hasCycleTypeField = false := rfl
theorem witness_JedecIdentity :
    Ready (fresh [prompt]) ∧ (fresh [prompt]).cfg.hasCycleTypeField = true ∧ (fresh [prompt]).cycleDraw.faithful = true := by
  decide
theorem witness_JedecCycleFails :
    Ready (fresh [draw none false false]) ∧ (fresh [draw none false false]).cycleDraw.outcome = some .cycleTimeout := by decide
theorem witness_SfdpBothAbsent :
    (fresh []).env.sfdpIndex.dword 0 ≠ 0x50444653#32 ∧ (fresh []).env.sfdpIndex.dword 0x4000 ≠ 0x50444653#32 := by decide

/-- Either component found, no cycle needed; and the condition by the missing field. -/
theorem witness_SfdpFoundWithoutCycle :
    (∀ j < 2, ∀ c < 2, SfdpFound (walk j 0 prompt) c → sfdpHeaders (walk j 0 prompt) c = 1) ∧
      SfdpFound (walk 0 0 prompt) 0 ∧ SfdpFound (walk 1 0 prompt) 1 ∧ noTypeField.cfg.hasCycleTypeField = false := by decide

/-- What `SfdpFurtherHeaders` asks of a walk whose component `c` reports `n + 1` headers. -/
def canGoOn (c : Nat) (n : Byte) : Bool :=
  let s := walk c n prompt
  s.cfg.wellFormed && s.cfg.hasCycleTypeField && s.cfg.sfdpCycleFla == 0 && s.cfg.sfdpCycleCount == 64 &&
    s.cfg.sfdpPh.slotBase == 2 && s.cfg.sfdpPh.slotStride == 2 && decide (Ready s) && s.cycleDraw.faithful &&
    decide (SfdpFound s c) && decide (2 ≤ sfdpHeaders s c) && decide (sfdpHeaders s c ≤ 7) && !decide (SfdpFound s (1 - c))

/-- Two and seven headers, the ends of the range, at either component. -/
theorem witness_SfdpFurtherHeaders :
    canGoOn 0 1 = true ∧ canGoOn 0 6 = true ∧ canGoOn 1 1 = true ∧ canGoOn 1 6 = true := by decide

/-- A cycle that fails with two headers reported; eight headers and a cycle that succeeds; at either component. -/
theorem witness_SfdpErrorsEndWalk :
    ∀ c < 2, Ready (walk c 1 (draw none false false)) ∧ SfdpReaches (walk c 1 prompt) c ∧ SfdpFound (walk c 1 prompt) c ∧
      (walk c 1 (draw none false false)).cycleDraw.outcome = some .cycleTimeout ∧
      2 ≤ sfdpHeaders (walk c 1 prompt) c ∧ 8 ≤ sfdpHeaders (walk c 7 prompt) c ∧
      (walk c 7 prompt).cycleDraw.outcome = none := by decide

/-! The parser. -/

/-- `n` bytes of the signature's neighbourhood: the signature at offset `p`, then `k` bytes. -/
def signed (p k : Nat) : List Byte := List.replicate p 0xFF ++ dword 0x0FF0A55A ++ List.replicate k 0xFF

theorem witness_SignatureIsLeast :
    findSignature 0 (signed 3 0) = some 3 ∧ findSignature 0 [0x5A, 0xA5, 0xF0] = none := by decide
theorem witness_DescriptorBaseErrors :
    findSignature 0 (signed 0xF 0) = some 0xF ∧ findSignature 0 (signed 0x10 4075) = some 0x10 ∧
      (signed 0x10 4075).length < 0x10 - 0x10 + 4096 ∧ findSignature 0 (signed 0x10 4076) = some 0x10 ∧
      0x10 - 0x10 + 4096 ≤ (signed 0x10 4076).length := by decide +kernel

/-- An image whose sections fit, and one whose region section does not (`FRBA = 0xFF`). -/
theorem witness_ParseSucceedsIffSectionsFit :
    findSignature 0 p8Image = some (0x20 + 0x10) ∧ 0x20 + 4096 ≤ p8Image.length ∧
      findSignature 0 (signed 0x10 4076) = some (0 + 0x10) ∧ 0 + 4096 ≤ (signed 0x10 4076).length ∧
      ¬ (mapBase defaultFields.frba (descriptorWord (signed 0x10 4076) 0 0x14)).toNat + 4 * 12 ≤ 4096 := by decide +kernel

/-- Also for `ParsedSections`, `UnusedRegionsExcluded` and `ParseReadsTheSliceOnly`. -/
theorem witness_ParsedFields :
    ∃ d, parseImage defaultConfig p8Image = .ok d ∧ d.regions ≠ [] := by
  have h : (parseImage defaultConfig p8Image).toOption.any (fun d => decide (d.regions ≠ [])) = true := by decide +kernel
  cases hp : parseImage defaultConfig p8Image with
  | error e => rw [hp] at h; simp [Except.toOption] at h
  | ok d => rw [hp] at h; exact ⟨d, rfl, by simpa [Except.toOption] using h⟩

/-! `DISABLE_BIOS_WP`. -/

/-- After the engine's first access to `BIOS_CTL`. -/
def reopened (v : Word) (we : List Bool) : State := (bios v we).modCtl fun c => { c with biosWeOpen := true }

/-- The engine's first access, and a later one that sees a drawn bit. -/
theorem witness_BiosAlreadyEnabled :
    (bios 0x21 []).biosRead.getLsbD (bios 0x21 []).cfg.fields.we = true ∧
      (reopened 0x20 [true]).biosRead.getLsbD (reopened 0x20 [true]).cfg.fields.we = true := by decide
theorem witness_BiosAttemptVerified :
    (bios 0x22 [false]).cfg.wellFormed = true ∧ (bios 0x22 [false]).biosRead.getLsbD (bios 0x22 [false]).cfg.fields.we = false ∧
      (reopened 0x21 [false]).biosRead.getLsbD (reopened 0x21 [false]).cfg.fields.we = false := by decide

end Sys2Proof.Tests
end

section
/-! PROOFS. The statements of 10_state.md: what every operation leaves alone, and when the session latch moves. An accepted
operation is accepted, runs its moves (`exec_runs`), and delivers; a refused one only records the refusal. -/

namespace Sys2Proof.Proofs

open Sys2Proof.Machine Sys2Proof.Laws

/-! ### The fixed part around a run: acceptance, delivery, refusal -/

theorem beginOp_fixed (s : State) : FixedPart s (beginOp s) := ⟨rfl, rfl, rfl, rfl, rfl, rfl, rfl, rfl⟩

theorem deliver_fixed (r : OpResult) (s : State) : FixedPart s (deliver r s) := ⟨rfl, rfl, rfl, rfl, rfl, rfl, rfl, rfl⟩

theorem refuseIllegal_fixed (s : State) : FixedPart s (refuseIllegal s) := ⟨rfl, rfl, rfl, rfl, rfl, rfl, rfl, rfl⟩

/-- Settles O11: the moves of a run keep the fixed part (`Runs.fixed`), and so do the acceptance before and the delivery
after them. -/
theorem fixedPartKept : Obligations.FixedPartKept := by
  intro i s t h
  rcases exec_runs h with rfl | ⟨r, u, hrun, rfl, -⟩
  · exact refuseIllegal_fixed s
  · have accepted : FixedPart s u := fixedPart_trans (beginOp_fixed s) hrun.fixed
    exact fixedPart_trans accepted (deliver_fixed r u)

/-! ### Operations that issue no cycle move no latch -/

@[simp] theorem regRead_eng (r : Reg) (s : State) : (regRead r s).2.eng = s.eng := by simp [regRead, tick_eng]

@[simp] theorem portWrite_eng (r : Reg) (v : Word) (s : State) : (portWrite r v s).eng = s.eng := by
  simp [portWrite, applyWrite_latches]

@[simp] theorem attemptWriteEnable_eng (raw0 : Word) (s : State) : (attemptWriteEnable raw0 s).2.eng = s.eng := by
  simp only [attemptWriteEnable]
  split <;> simp

@[simp] theorem disableBiosWpOp_eng (s : State) : (disableBiosWpOp s).2.eng = s.eng := by
  simp only [disableBiosWpOp]
  split <;> simp

/-- An operation that ran to its end leaves the engine's latches at rest. -/
theorem finish_ok_eng {p : Except OpError Value × State} {t : State} (h : finish (.ok p) = .next t) :
    t.eng = p.2.eng.rest := by
  obtain ⟨r, u⟩ := p
  cases h
  rw [endOp_eq, deliver_eng]

/-- `PARSE`, `READ_REGION`, `READ_PROTECTED_RANGE` and `DISABLE_BIOS_WP` look at no latch and change none between
acceptance and delivery (R269, R309). -/
theorem exec_eng_of_no_cycle {i : Instr} {s t : State} (hi : issuesCycles i = false) (h : exec i s = .next t) :
    t.eng = s.eng ∨ t.eng = (beginOp s).eng.rest := by
  cases i with
  | parse image => exact .inr (finish_ok_eng h)
  | readRegion id =>
    simp only [exec, execReadRegion] at h
    split at h
    · exact .inr ((finish_ok_eng h).trans (by simp only [readRegionOp, regRead_eng]))
    · cases h; exact .inl rfl
  | readProtectedRange index =>
    simp only [exec, execReadProtectedRange] at h
    split at h
    · exact .inr ((finish_ok_eng h).trans (by simp only [readProtectedRangeOp, regRead_eng]))
    · cases h; exact .inl rfl
  | disableBiosWp => exact .inr ((finish_ok_eng h).trans (by rw [disableBiosWpOp_eng]))
  | _ => cases hi

/-! ### The session latch -/

theorem exec_session_of_no_cycle {i : Instr} {s t : State} (hi : issuesCycles i = false) (h : exec i s = .next t) :
    t.eng.session = s.eng.session := by
  rcases exec_eng_of_no_cycle hi h with he | he
  · rw [he]
  · rw [he]; rfl

/-- Whatever the operation, the latch moves from `Unchecked` only: the check of R151 is the one move that writes it. -/
theorem exec_session {i : Instr} {s t : State} (h : exec i s = .next t) :
    t.eng.session = s.eng.session ∨ s.eng.session = .unchecked := by
  rcases exec_runs h with rfl | ⟨r, u, hrun, rfl, -⟩
  · exact .inl rfl
  · exact hrun.engStep.session

/-- Settles O12, by whether the operation issues cycles: one that does not keeps the latch, any other moves it from
`Unchecked` only. -/
theorem sessionLatch : Obligations.SessionLatch := by
  intro i s t h
  cases hi : issuesCycles i with
  | false => exact .inl (exec_session_of_no_cycle hi h)
  | true => exact (exec_session h).imp_right fun hu => ⟨hu, rfl⟩

end Sys2Proof.Proofs
end

section
/-! PROOFS. 20_memory.md, the data window: the cycles of an operation that writes or erases only read the window or do not
touch it, so the only slots it can change are those it writes itself. -/

namespace Sys2Proof.Proofs

open Sys2Proof.Machine Sys2Proof.Laws

/-- The kinds whose cycles bring nothing into the window (R21, R78, R385). -/
def IsWriting (k : CycleKind) : Prop := k = .write ∨ k = .erase

/-- The accesses of an operation that issues Write and Erase cycles only, and packs no slot that `keep` holds of. -/
def WritingAccess (cfg : Config) (keep : Fin 16 → Prop) (e : Event) : Prop :=
  (∃ k, IsWriting k ∧ CycleAccess cfg k e) ∨ ∃ i v, ¬ keep i ∧ e = .write (.data i) v

/-- What such an operation keeps along its run: a cycle still in flight is one of its own kinds, and every kept slot holds
what it held in `s`. The first half is what makes the second inductive. -/
structure WindowKept (keep : Fin 16 → Prop) (s t : State) : Prop where
  inflight : ∀ c ∈ t.ctl.inflight, ∃ k, IsWriting k ∧ c.kind = some k
  slots : ∀ j, keep j → t.ctl.window.get j = s.ctl.window.get j

section
variable {keep : Fin 16 → Prop} {s t : State}

theorem windowKept_of_idle (h : s.ctl.inflight = none) : WindowKept keep s s :=
  ⟨fun c hc => by simp [h] at hc, fun _ _ => rfl⟩

/-- An update that leaves the window and the in-flight slot as they are. -/
theorem WindowKept.congr {u : State} (h : WindowKept keep s t) (hw : u.ctl.window = t.ctl.window)
    (hi : u.ctl.inflight = t.ctl.inflight) : WindowKept keep s u :=
  ⟨by rw [hi]; exact h.inflight, by rw [hw]; exact h.slots⟩

/-- The end of a Write or Erase cycle moves no window byte (R21, R78). -/
theorem WindowKept.endCycle {c : InFlight} (h : WindowKept keep s t) (hc : ∃ k, IsWriting k ∧ c.kind = some k) :
    WindowKept keep s (endCycle c t) := by
  obtain ⟨k, hk, hck⟩ := hc
  have hkind : c.kind = some .write ∨ c.kind = some .erase := by
    rcases hk with rfl | rfl
    · exact .inl hck
    · exact .inr hck
  refine ⟨fun d hd => by simp at hd, fun j hj => ?_⟩
  rw [endCycle_window, windowAfter_writing hkind]
  exact h.slots j hj

theorem WindowKept.tickStatus (h : WindowKept keep s t) : WindowKept keep s (tickStatus t) := by
  unfold Machine.tickStatus
  split
  · exact h
  · next c hc =>
    have hkind := h.inflight c hc
    split
    · exact h
    · exact h.endCycle hkind
    · exact ⟨fun d hd => by cases hd; exact hkind, h.slots⟩

theorem WindowKept.tick (r : Reg) (h : WindowKept keep s t) : WindowKept keep s (tick r t) := by
  cases r with
  | sts => exact h.tickStatus
  | biosCtl => exact h.congr (by rw [Machine.tick, tickBios_ctl]) (by rw [Machine.tick, tickBios_ctl])
  | _ => exact h

theorem WindowKept.applyWrite {r : Reg} {v : Word} (h : WindowKept keep s t)
    (ha : WritingAccess t.cfg keep (.write r v)) : WindowKept keep s (applyWrite r v t) := by
  rcases ha with ⟨k, -, ha⟩ | ⟨i, w, hi, hw⟩
  · cases r with
    | addr => exact h.congr rfl rfl
    | sts => exact h.congr rfl rfl
    | _ => exact ha.elim
  · cases hw
    refine ⟨h.inflight, fun j hj => ?_⟩
    have hne : i.val ≠ j.val := fun e => hi (Fin.ext e ▸ hj)
    rw [← h.slots j hj]
    exact Vector.getElem_set_ne i.isLt j.isLt hne

/-- Of the two bytes of the control register a cycle writes, the byte count starts nothing (R153), and the go byte starts a
cycle of its kind (R154). -/
theorem WindowKept.applyWrite8 {r : Reg} {j : Nat} {b : Byte} (hcfg : t.cfg.wellFormed = true) (h : WindowKept keep s t)
    (ha : WritingAccess t.cfg keep (.write8 r j b)) : WindowKept keep s (applyWrite8 r j b t) := by
  rcases ha with ⟨k, hk, ha⟩ | ⟨_, _, -, hw⟩
  · cases r with
    | ctl =>
      simp only [Machine.applyWrite8]
      split
      · next hgo =>
        rcases ha with ⟨rfl, -⟩ | ⟨rfl, rfl⟩
        · exact absurd hgo (byteWrite_condition hcfg b)
        · have hadm : kindAdmitted t.cfg k = true := by rcases hk with rfl | rfl <;> rfl
          refine ⟨fun c hc => ?_, h.slots⟩
          cases hc
          exact ⟨k, hk, (decodeKind_cycByte hcfg k _).trans (if_pos hadm)⟩
      · exact h.congr rfl rfl
    | sts => exact h.congr rfl rfl
    | _ => exact ha.elim
  · cases hw

/-- Every run of such accesses keeps the window, by the moves it is made of. -/
theorem runs_windowKept (hcfg : s.cfg.wellFormed = true) (hi : s.ctl.inflight = none)
    (hr : Runs (WritingAccess s.cfg keep) s t) : WindowKept keep s t := by
  induction hr with
  | refl => exact windowKept_of_idle hi
  | eng _ _ ih => exact ih.congr rfl rfl
  | log _ _ ih => exact ih.congr rfl rfl
  | tick r _ _ ih => exact ih.tick r
  | settle _ hc ih => exact ih.endCycle (ih.inflight _ hc)
  | write hr ha ih => exact ih.applyWrite (by rwa [hr.cfg])
  | write8 hr ha ih => exact ih.applyWrite8 (by rwa [hr.cfg]) (by rwa [hr.cfg])

end

/-- An operation with such accesses only, refused or run, keeps the slots. -/
theorem exec_keeps_slots {keep : Fin 16 → Prop} {i : Instr} {s t : State} (hcfg : s.cfg.wellFormed = true)
    (hi : s.ctl.inflight = none) (ha : ∀ e, OpAccess s.cfg i e → WritingAccess s.cfg keep e) (h : exec i s = .next t) :
    ∀ j, keep j → t.ctl.window.get j = s.ctl.window.get j := by
  rcases exec_runs h with rfl | ⟨r, u, hrun, rfl, -⟩
  · exact fun _ _ => rfl
  · have kept : WindowKept keep (beginOp s) u := runs_windowKept hcfg hi (hrun.mono ha)
    exact kept.slots

theorem window_eq_of_slots {v w : Vector Word 16} (h : ∀ j : Fin 16, v.get j = w.get j) : v = w :=
  Vector.ext fun j hj => h ⟨j, hj⟩

/-- Settles O28: `CYCLE.WRITE`, `CYCLE.ERASE` and `ERASE` write no slot, `WRITE` writes slot 0 only. -/
theorem writingLeavesWindow : Obligations.WritingLeavesWindow := by
  intro i s t hcfg hidle h
  refine ⟨fun hi => window_eq_of_slots fun j => ?_, fun hi => ?_⟩
  · refine exec_keeps_slots (keep := fun _ => True) hcfg hidle (fun e he => .inl ?_) h j trivial
    rcases hi with ⟨a, d, rfl⟩ | ⟨a, rfl⟩ | ⟨a, rfl⟩
    · exact ⟨.write, .inl rfl, he⟩
    · exact ⟨.erase, .inr rfl, he⟩
    · exact ⟨.erase, .inr rfl, he⟩
  · obtain ⟨a, bs, rfl⟩ := hi
    refine exec_keeps_slots (keep := (· ≠ 0)) hcfg hidle (fun e he => ?_) h
    rcases he with he | ⟨v, rfl⟩
    · exact .inl ⟨.write, .inl rfl, he⟩
    · exact .inr ⟨0, v, not_not.mpr rfl, rfl⟩

end Sys2Proof.Proofs
end

section
/-! PROOFS. 20_memory.md, no permission check (R92): replacing the protected ranges, the flash regions and `BIOS_CTL` commutes
with everything an operation that issues cycles is made of, from the Register Port up. -/

namespace Sys2Proof.Proofs

open Sys2Proof.Machine Sys2Proof.Laws

/-- What the protection registers hold (R36 to R38). -/
structure Protection where
  freg : Vector Word 12
  pr : Vector Word 5
  biosCtl : Word

/-- `s` with other protection registers. -/
def reprotect (p : Protection) (s : State) : State :=
  s.modCtl fun c => { c with freg := p.freg, pr := p.pr, biosCtl := p.biosCtl }

/-- The same, beside what a part of an operation returns. -/
def reprotectSnd {α : Type} (p : Protection) (x : α × State) : α × State := (x.1, reprotect p x.2)

/-- The same, in what an operation comes to. -/
def reprotectNext (p : Protection) : Host.Outcome State Fault Refusal → Host.Outcome State Fault Refusal
  | .next t => .next (reprotect p t)
  | .fault e => .fault e
  | .refused e => .refused e

/-- The registers of `Protection`. -/
def isProtection : Reg → Bool
  | .freg _ => true
  | .pr _ => true
  | .biosCtl => true
  | _ => false

/-! ### Where a part may fault -/

section
variable {α β : Type} {f : α → α} {g : β → β}

theorem map_map_comm (x : Except Fault α) {k : α → β} (h : ∀ a, k (f a) = g (k a)) : (x.map f).map k = (x.map k).map g := by
  cases x <;> simp [Except.map, h]

theorem map_bind_comm (x : Except Fault α) {k : α → Except Fault β} (h : ∀ a, k (f a) = (k a).map g) :
    (x.map f).bind k = (x.bind k).map g := by
  cases x <;> simp [Except.map, Except.bind, h]

end

section
variable (p : Protection) (s : State)

/-! ### The parts of the state -/

@[simp] theorem reprotect_cfg : (reprotect p s).cfg = s.cfg := rfl
@[simp] theorem reprotect_eng : (reprotect p s).eng = s.eng := rfl
@[simp] theorem reprotect_env : (reprotect p s).env = s.env := rfl
@[simp] theorem reprotect_inflight : (reprotect p s).ctl.inflight = s.ctl.inflight := rfl

@[simp] theorem reprotectSnd_fst {α : Type} (x : α × State) : (reprotectSnd p x).1 = x.1 := rfl
@[simp] theorem reprotectSnd_snd {α : Type} (x : α × State) : (reprotectSnd p x).2 = reprotect p x.2 := rfl

@[simp] theorem modEng_reprotect (f : Engine → Engine) : (reprotect p s).modEng f = reprotect p (s.modEng f) := rfl
@[simp] theorem atPhase_reprotect (q : Phase) : (reprotect p s).atPhase q = reprotect p (s.atPhase q) := rfl
@[simp] theorem log_reprotect (e : Event) : (reprotect p s).log e = reprotect p (s.log e) := rfl
@[simp] theorem beginOp_reprotect : beginOp (reprotect p s) = reprotect p (beginOp s) := rfl
@[simp] theorem refuseIllegal_reprotect : refuseIllegal (reprotect p s) = reprotect p (refuseIllegal s) := rfl

theorem regValue_reprotect {r : Reg} (hr : isProtection r = false) : (reprotect p s).regValue r = s.regValue r := by
  cases r with
  | freg => cases hr
  | pr => cases hr
  | biosCtl => cases hr
  | _ => rfl

/-! ### The controller and the Register Port -/

@[simp] theorem endCycle_reprotect (c : InFlight) : endCycle c (reprotect p s) = reprotect p (endCycle c s) := rfl

@[simp] theorem startCycle_reprotect : startCycle (reprotect p s) = reprotect p (startCycle s) := rfl

@[simp] theorem tickStatus_reprotect : tickStatus (reprotect p s) = reprotect p (tickStatus s) := by
  simp only [tickStatus, reprotect_inflight]
  split
  · rfl
  · split <;> rfl

theorem tick_reprotect {r : Reg} (hr : isProtection r = false) : tick r (reprotect p s) = reprotect p (tick r s) := by
  cases r with
  | sts => exact tickStatus_reprotect p s
  | biosCtl => cases hr
  | _ => rfl

theorem regRead_reprotect {r : Reg} (hr : isProtection r = false) :
    regRead r (reprotect p s) = reprotectSnd p (regRead r s) := by
  simp only [regRead, tick_reprotect p s hr, regValue_reprotect p _ hr, log_reprotect]
  rfl

theorem claimController_reprotect : claimController (reprotect p s) = (claimController s).map (reprotect p) := by
  simp only [claimController, reprotect_inflight]
  split
  · rfl
  · split <;> rfl

theorem applyWrite_reprotect {r : Reg} (hr : isProtection r = false) (v : Word) :
    applyWrite r v (reprotect p s) = reprotect p (applyWrite r v s) := by
  cases r with
  | ctl =>
    by_cases hgo : v.getLsbD s.cfg.ctl.fgo = true
    · simp only [applyWrite, reprotect_cfg, hgo, if_true]; rfl
    · simp only [applyWrite, reprotect_cfg, hgo, Bool.false_eq_true, if_false]; rfl
  | biosCtl => cases hr
  | _ => rfl

theorem applyWrite8_reprotect {r : Reg} (hr : isProtection r = false) (k : Nat) (b : Byte) :
    applyWrite8 r k b (reprotect p s) = reprotect p (applyWrite8 r k b s) := by
  cases r with
  | ctl =>
    by_cases hgo : s.cfg.ctl.fgo / 8 = k ∧ b.getLsbD (s.cfg.ctl.fgo % 8) = true
    · simp only [applyWrite8, reprotect_cfg, hgo, and_self, if_true]; rfl
    · simp only [applyWrite8, reprotect_cfg, hgo, if_false]; rfl
  | sts => rfl
  | _ => simp only [applyWrite8, regValue_reprotect p s hr, applyWrite_reprotect p s hr]

theorem portWrite_reprotect {r : Reg} (hr : isProtection r = false) (v : Word) :
    portWrite r v (reprotect p s) = reprotect p (portWrite r v s) := applyWrite_reprotect p (s.log _) hr v

theorem portWrite8_reprotect {r : Reg} (hr : isProtection r = false) (k : Nat) (b : Byte) :
    portWrite8 r k b (reprotect p s) = reprotect p (portWrite8 r k b s) := applyWrite8_reprotect p (s.log _) hr k b

theorem regWrite_reprotect {r : Reg} (hr : isProtection r = false) (v : Word) :
    regWrite r v (reprotect p s) = (regWrite r v s).map (reprotect p) := by
  simp only [regWrite]
  split
  · rw [claimController_reprotect]; exact map_map_comm _ fun t => portWrite_reprotect p t hr v
  · rw [portWrite_reprotect p s hr]; rfl

theorem regWrite8_reprotect {r : Reg} (hr : isProtection r = false) (k : Nat) (b : Byte) :
    regWrite8 r k b (reprotect p s) = (regWrite8 r k b s).map (reprotect p) := by
  simp only [regWrite8]
  split
  · rw [claimController_reprotect]; exact map_map_comm _ fun t => portWrite8_reprotect p t hr k b
  · rw [portWrite8_reprotect p s hr]; rfl

/-! ### One cycle -/

@[simp] theorem sampleStatus_reprotect : sampleStatus (reprotect p s) = reprotectSnd p (sampleStatus s) := by
  simp only [sampleStatus, regRead_reprotect p s (r := .sts) rfl]
  rfl

@[simp] theorem sessionCheck_reprotect : sessionCheck (reprotect p s) = reprotect p (sessionCheck s) := by
  simp only [sessionCheck, phaseCheck, reprotect_eng, atPhase_reprotect, sampleStatus_reprotect]
  split <;> rfl

theorem issueCycle_reprotect : issueCycle (reprotect p s) = (issueCycle s).map (reprotect p) := by
  have addr : phaseAddr (reprotect p s) = (phaseAddr s).map (reprotect p) := regWrite_reprotect p (s.atPhase .addr) rfl _
  have dbc : ∀ t, phaseDbc (reprotect p t) = (phaseDbc t).map (reprotect p) := fun t =>
    regWrite8_reprotect p (t.atPhase .dbc) rfl _ _
  have go : ∀ t, phaseGo (reprotect p t) = (phaseGo t).map (reprotect p) := fun t =>
    regWrite8_reprotect p (t.atPhase .go) rfl _ _
  simp only [issueCycle, addr]
  refine map_bind_comm _ fun t => ?_
  by_cases hk : t.eng.cmd.kind = .erase
  · simp only [reprotect_eng, hk, if_true]
    exact go t
  · simp only [reprotect_eng, hk, if_false, dbc]
    exact map_bind_comm _ go

@[simp] theorem pollOnce_reprotect : pollOnce (reprotect p s) = reprotectSnd p (pollOnce s) := by
  simp only [pollOnce, sampleStatus_reprotect]
  rfl

@[simp] theorem pollLoop_reprotect : ∀ (k : Nat) (s : State), pollLoop k (reprotect p s) = reprotectSnd p (pollLoop k s)
  | 0, _ => rfl
  | k + 1, s => by
    simp only [pollLoop, pollOnce_reprotect, reprotectSnd_fst, reprotectSnd_snd, pollLoop_reprotect k]
    split <;> rfl

@[simp] theorem phaseLate_reprotect : phaseLate (reprotect p s) = reprotectSnd p (phaseLate s) := by
  simp only [phaseLate, atPhase_reprotect, sampleStatus_reprotect]
  rfl

@[simp] theorem awaitIdle_reprotect : awaitIdle (reprotect p s) = reprotectSnd p (awaitIdle s) := by
  have start : startPoll (reprotect p s) = reprotect p (startPoll s) := rfl
  have sleep : ∀ t, phaseSleep (reprotect p t) = reprotect p (phaseSleep t) := fun _ => rfl
  simp only [awaitIdle, start, pollLoop_reprotect, reprotectSnd_fst, reprotectSnd_snd, sleep, phaseLate_reprotect]
  split <;> rfl

@[simp] theorem stsClear_reprotect : stsClear (reprotect p s) = reprotect p (stsClear s) := by
  simp only [stsClear, reprotect_cfg]
  split <;> rfl

theorem completeCycle_reprotect : completeCycle (reprotect p s) = reprotectSnd p (completeCycle s) := by
  simp only [completeCycle, phaseClear, awaitIdle_reprotect, reprotectSnd_fst, reprotectSnd_snd, atPhase_reprotect,
    stsClear_reprotect, sampleStatus_reprotect]
  split <;> rfl

/-- ONE CYCLE CONSULTS NO PROTECTION (R92): its outcome stays, and so does all it does. -/
theorem executeCycle_reprotect (c : CycleCommand) :
    executeCycle c (reprotect p s) = (executeCycle c s).map (reprotectSnd p) := by
  have latch : latchCommand c (reprotect p s) = reprotect p (latchCommand c s) := rfl
  simp only [executeCycle, latch, sessionCheck_reprotect, reprotect_eng, atPhase_reprotect]
  split
  · rfl
  · rw [issueCycle_reprotect]; exact map_map_comm _ (completeCycle_reprotect p)

/-! ### Transfers -/

@[simp] theorem drainSlots_reprotect (k : Nat) : ∀ (count slot : Nat) (s : State),
    drainSlots k count slot (reprotect p s) = reprotect p (drainSlots k count slot s)
  | 0, _, _ => rfl
  | count + 1, slot, s => by
    simp only [drainSlots, regRead_reprotect p s (r := .data _) rfl, reprotectSnd_fst, reprotectSnd_snd, modEng_reprotect,
      drainSlots_reprotect k count]

theorem afterBurst_reprotect {f : State → State} (hf : ∀ t, f (reprotect p t) = reprotect p (f t))
    (x : Option OpError × State) : afterBurst f (reprotectSnd p x) = reprotectSnd p (afterBurst f x) := by
  simp only [afterBurst, reprotectSnd_fst, reprotectSnd_snd, hf]
  split <;> rfl

theorem readBurst_reprotect (k : Nat) : readBurst k (reprotect p s) = (readBurst k s).map (reprotectSnd p) := by
  simp only [readBurst, reprotect_eng, executeCycle_reprotect]
  exact map_map_comm _ (afterBurst_reprotect p (drainSlots_reprotect p k _ _))

theorem writeBurstOf_reprotect (k : Nat) : writeBurstOf k (reprotect p s) = (writeBurstOf k s).map (reprotectSnd p) := by
  have bytes : burstBytes (reprotect p s) k = burstBytes s k := rfl
  simp only [writeBurstOf, reprotect_eng, bytes, regWrite_reprotect p s (r := .data 0) rfl]
  refine map_bind_comm _ fun t => ?_
  rw [executeCycle_reprotect]
  exact map_map_comm _ (afterBurst_reprotect p fun _ => rfl)

theorem runBursts_reprotect {burst : State → Except Fault (Bool × State)}
    (hb : ∀ t, burst (reprotect p t) = (burst t).map (reprotectSnd p)) :
    ∀ (count : Nat) (s : State), runBursts burst count (reprotect p s) = (runBursts burst count s).map (reprotectSnd p)
  | 0, _ => rfl
  | count + 1, s => by
    simp only [runBursts, hb]
    rcases burst s with f | ⟨_ | _, t⟩
    · rfl
    · exact runBursts_reprotect hb count t
    · rfl

theorem runPlan_reprotect {burst : Nat → State → Except Fault (Bool × State)}
    (hb : ∀ k t, burst k (reprotect p t) = (burst k t).map (reprotectSnd p)) :
    runPlan burst (reprotect p s) = (runPlan burst s).map (reprotectSnd p) := by
  simp only [runPlan, reprotect_eng, runBursts_reprotect p (hb _)]
  rcases runBursts (burst s.eng.burst) s.eng.n s with f | ⟨_ | _, t⟩
  · rfl
  · by_cases hr : t.eng.r = 0
    · simp [Except.map, reprotectSnd, hr]
    · simpa [Except.map, reprotectSnd, hr] using hb t.eng.r t
  · rfl

theorem transferResult_reprotect {value : State → Value} (hv : ∀ t, value (reprotect p t) = value t) (x : Bool × State) :
    transferResult value (reprotectSnd p x) = reprotectSnd p (transferResult value x) := by
  simp only [transferResult, reprotectSnd_fst, reprotectSnd_snd, reprotect_eng, hv]
  split
  · rfl
  · split <;> rfl

theorem readOp_reprotect (a : Word) (n : Nat) : readOp a n (reprotect p s) = (readOp a n s).map (reprotectSnd p) := by
  have plan : ∀ b, latchPlan a n b (reprotect p s) = reprotect p (latchPlan a n b s) := fun _ => rfl
  simp only [readOp, plan, runPlan_reprotect p _ fun k t => readBurst_reprotect p t k]
  exact map_map_comm _ (transferResult_reprotect p fun _ => rfl)

theorem writeOp_reprotect (a : Word) (bs : List Byte) : writeOp a bs (reprotect p s) = (writeOp a bs s).map (reprotectSnd p) := by
  have plan : ∀ b, latchPlan a bs.length b (reprotect p s) = reprotect p (latchPlan a bs.length b s) := fun _ => rfl
  simp only [writeOp, plan, modEng_reprotect, runPlan_reprotect p _ fun k t => writeBurstOf_reprotect p t k]
  exact map_map_comm _ (transferResult_reprotect p fun _ => rfl)

/-! ### Identity -/

theorem jedecTail_reprotect (x : Option OpError × State) : jedecTail (reprotectSnd p x) = reprotectSnd p (jedecTail x) := by
  obtain ⟨_ | e, t⟩ := x <;> rfl

theorem readJedecOp_reprotect : readJedecOp (reprotect p s) = (readJedecOp s).map (reprotectSnd p) := by
  simp only [readJedecOp, reprotect_cfg, executeCycle_reprotect]
  split
  · exact map_map_comm _ (jedecTail_reprotect p)
  · rfl

@[simp] theorem ptRead_reprotect (index : Word) : ptRead index (reprotect p s) = reprotectSnd p (ptRead index s) := rfl

theorem readTable_reprotect (base : Word) : ∀ (count k : Nat) (acc : List Word) (s : State),
    readTable base count k acc (reprotect p s) = reprotectSnd p (readTable base count k acc s)
  | 0, _, _, _ => rfl
  | count + 1, k, acc, s => by
    simp only [readTable, ptRead_reprotect, reprotectSnd_fst, reprotectSnd_snd, readTable_reprotect base count]

theorem readHeaders_reprotect : ∀ (count h : Nat) (acc : List SfdpParameterHeader) (s : State),
    readHeaders count h acc (reprotect p s) = reprotectSnd p (readHeaders count h acc s)
  | 0, _, _, _ => rfl
  | count + 1, h, acc, s => by
    simp only [readHeaders, reprotect_cfg, modEng_reprotect, regRead_reprotect p _ (r := .data _) rfl, reprotectSnd_fst,
      reprotectSnd_snd, readHeaders_reprotect count]
    split <;> rfl

theorem allHeaders_reprotect (nph : Nat) (first : SfdpParameterHeader) :
    allHeaders nph first (reprotect p s) = (allHeaders nph first s).map (reprotectSnd p) := by
  simp only [allHeaders, reprotect_cfg, executeCycle_reprotect]
  split
  · refine map_map_comm _ fun x => ?_
    obtain ⟨_ | e, t⟩ := x
    · exact readHeaders_reprotect p _ _ _ t
    · rfl
  · rfl

theorem finishComponent_reprotect (base ver : Word) (nph : Nat) (length : Byte)
    (x : Except OpError (List SfdpParameterHeader) × State) :
    finishComponent base ver nph length (reprotectSnd p x) = reprotectSnd p (finishComponent base ver nph length x) := by
  obtain ⟨e | headers, t⟩ := x
  · rfl
  · simp only [finishComponent, reprotectSnd, readTable_reprotect]

theorem discoverComponent_reprotect (c : Nat) :
    discoverComponent c (reprotect p s) = (discoverComponent c s).map (reprotectSnd p) := by
  simp only [discoverComponent, reprotect_cfg, modEng_reprotect, ptRead_reprotect, reprotectSnd_fst, reprotectSnd_snd,
    allHeaders_reprotect]
  split
  · rfl
  · exact map_map_comm _ (finishComponent_reprotect p _ _ _ _)

theorem discoverFrom_reprotect : ∀ (count c : Nat) (out : List (Nat × Option SfdpComponent)) (s : State),
    discoverFrom count c out (reprotect p s) = (discoverFrom count c out s).map (reprotectSnd p)
  | 0, _, _, _ => rfl
  | count + 1, c, out, s => by
    simp only [discoverFrom, discoverComponent_reprotect]
    rcases discoverComponent c s with f | ⟨e | r, t⟩
    · rfl
    · rfl
    · exact discoverFrom_reprotect count (c + 1) _ t

/-! ### Every operation that issues cycles -/

theorem finish_reprotect (x : Except Fault (Except OpError Value × State)) :
    finish (x.map (reprotectSnd p)) = reprotectNext p (finish x) := by
  rcases x with f | ⟨e | v, t⟩ <;> rfl

theorem unitResult_reprotect (x : Option OpError × State) : unitResult (reprotectSnd p x) = reprotectSnd p (unitResult x) := by
  obtain ⟨_ | e, t⟩ := x <;> rfl

theorem runCycle_reprotect (c : CycleCommand) : runCycle c (reprotect p s) = reprotectNext p (runCycle c s) := by
  rw [runCycle, beginOp_reprotect, executeCycle_reprotect, map_map_comm _ (unitResult_reprotect p), finish_reprotect]
  rfl

theorem runSizedCycle_reprotect (c : CycleCommand) : runSizedCycle c (reprotect p s) = reprotectNext p (runSizedCycle c s) := by
  simp only [runSizedCycle, reprotect_cfg, runCycle_reprotect, refuseIllegal_reprotect]
  split <;> rfl

theorem exec_reprotect {i : Instr} (hi : issuesCycles i = true) : exec i (reprotect p s) = reprotectNext p (exec i s) := by
  cases i with
  | cycleRead fla dbc => exact runSizedCycle_reprotect p s _
  | cycleWrite fla dbc => exact runSizedCycle_reprotect p s _
  | cycleErase fla => exact runCycle_reprotect p s _
  | cycleSfdp fla dbc => exact runSizedCycle_reprotect p s _
  | cycleJedecid fla dbc => exact runSizedCycle_reprotect p s _
  | read a n => exact (congrArg finish (readOp_reprotect p (beginOp s) a n.toNat)).trans (finish_reprotect p _)
  | write a bs => exact (congrArg finish (writeOp_reprotect p (beginOp s) a bs)).trans (finish_reprotect p _)
  | erase a => exact runCycle_reprotect p s ⟨.erase, a, 0⟩
  | readJedecId => exact (congrArg finish (readJedecOp_reprotect p (beginOp s))).trans (finish_reprotect p _)
  | discoverSfdp => exact (congrArg finish (discoverFrom_reprotect p _ _ _ (beginOp s))).trans (finish_reprotect p _)
  | _ => cases hi

end

/-- Settles O40: replacing the protection registers before the operation or after it is the same (`exec_reprotect`). -/
theorem protectionNotConsulted : Obligations.ProtectionNotConsulted := by
  intro i s freg pr bios hi
  refine (exec_reprotect ⟨freg, pr, bios⟩ s hi).trans ?_
  cases exec i s <;> rfl

end Sys2Proof.Proofs
end

section
/-! PROOFS. 30_encoding.md: what the decoder and the operations refuse (R136), and what every operation delivers (R134). -/

namespace Sys2Proof.Proofs

open Sys2Proof.Machine Sys2Proof.Laws

/-! ### Frames -/

/-- What R136 asks of the three words of a frame. -/
structure LegalFrame (w0 address length : Word) : Prop where
  op : 1 ≤ (w0.byte 0).toNat ∧ (w0.byte 0).toNat ≤ 9
  reserved : w0 >>> 16 = 0
  arg : w0.byte 1 = 0 ∨ (w0.byte 0).toNat = 7 ∨ (w0.byte 0).toNat = 8
  address : address = 0 ∨ (w0.byte 0).toNat < 4
  length : length = 0 ∨ (w0.byte 0).toNat = 1 ∨ (w0.byte 0).toNat = 2 ∨ (w0.byte 0).toNat = 6
  region : (w0.byte 0).toNat = 7 → (w0.byte 1).toNat ≤ 11
  range : (w0.byte 0).toNat = 8 → (w0.byte 1).toNat ≤ 4

/-- An operation that passes both checks has its unused operands 0. -/
theorem unused_of_checks {arg : Byte} {address length n : Word} {p : List Byte} {i j : Instr}
    (h : (checkUnused arg address length i).bind (checkPayload n p) = .ok j) : arg = 0 ∧ address = 0 ∧ length = 0 := by
  unfold checkUnused at h
  split at h
  · cases h
  next harg =>
  split at h
  · cases h
  next ha =>
  split at h
  · cases h
  next hl => exact ⟨not_not.mp harg, not_not.mp ha, not_not.mp hl⟩

/-- A frame of three words that decodes obeys R136: each operation's arm tests the operands it does not have. -/
theorem legalFrame_of_decode {w0 address length : Word} {p : List Byte} {i : Instr}
    (h : decodeFrame w0 address length p = .ok i) : LegalFrame w0 address length := by
  unfold decodeFrame at h
  dsimp only at h
  split at h
  · cases h
  next hreserved =>
  have hreserved : w0 >>> 16 = 0 := not_not.mp hreserved
  split at h
  case h_7 hop =>
    split at h
    · cases h
    · next hid =>
      obtain ⟨-, ha, hl⟩ := unused_of_checks h
      exact ⟨by omega, hreserved, by omega, .inl ha, .inl hl, by omega, by omega⟩
  case h_8 hop =>
    split at h
    · cases h
    · next hindex =>
      obtain ⟨-, ha, hl⟩ := unused_of_checks h
      exact ⟨by omega, hreserved, by omega, .inl ha, .inl hl, by omega, by omega⟩
  case h_10 => cases h
  case h_1 hop | h_2 hop =>
    obtain ⟨harg, -, -⟩ := unused_of_checks h
    exact ⟨by omega, hreserved, .inl harg, by omega, by omega, by omega, by omega⟩
  case h_3 hop =>
    obtain ⟨harg, -, hl⟩ := unused_of_checks h
    exact ⟨by omega, hreserved, .inl harg, by omega, .inl hl, by omega, by omega⟩
  case h_6 hop =>
    obtain ⟨harg, ha, -⟩ := unused_of_checks h
    exact ⟨by omega, hreserved, .inl harg, .inl ha, by omega, by omega, by omega⟩
  case h_4 hop | h_5 hop | h_9 hop =>
    obtain ⟨harg, ha, hl⟩ := unused_of_checks h
    exact ⟨by omega, hreserved, .inl harg, .inl ha, .inl hl, by omega, by omega⟩

theorem decode_frame_error {w0 w1 w2 : Word} {p : List Byte} (h : ¬ LegalFrame w0 w1 w2) :
    ∃ e, decode (.frame [w0, w1, w2] p) = .error e := by
  cases hd : decodeFrame w0 w1 w2 p with
  | error e => exact ⟨e, hd⟩
  | ok i => exact absurd (legalFrame_of_decode hd) h

/-! ### Cycle images -/

theorem checkByteCount_error {dbc : Byte} (h : 63 < dbc.toNat) (i : Instr) : checkByteCount dbc i = .error .byteCount :=
  if_pos h

/-- Only an Erase cycle's byte count is ignored (R166). -/
theorem decodeCycle_error {cyc dbc : Byte} (hd : 63 < dbc.toNat) (hc : cyc ≠ 0x07) (fla : Word) :
    ∃ e, decodeCycle cyc dbc fla = .error e := by
  unfold decodeCycle
  split
  case h_3 h => exact absurd (BitVec.eq_of_toNat_eq h) hc
  case h_6 => exact ⟨_, rfl⟩
  all_goals exact ⟨_, checkByteCount_error hd _⟩

/-! ### Operations presented directly -/

theorem cycleAdmitted_of_count {cfg : Config} {c : CycleCommand} (h : 63 < c.dbc.toNat) : cycleAdmitted cfg c = false := by
  rw [cycleAdmitted, decide_eq_false (by omega), Bool.and_false]

theorem cycleAdmitted_of_kind {cfg : Config} {c : CycleCommand} (h : kindAdmitted cfg c.kind = false) :
    cycleAdmitted cfg c = false := by
  rw [cycleAdmitted, h, Bool.false_and]

/-- The operand ranges of R136, met by each operation before its first access. -/
theorem exec_refuses_operand {i : Instr} (hi : i.wellFormed = false) (hwrite : ∀ a bs, i ≠ .write a bs)
    (hparse : ∀ im, i ≠ .parse im) (s : State) : exec i s = .next (refuseIllegal s) := by
  cases i with
  | cycleRead fla dbc | cycleWrite fla dbc | cycleSfdp fla dbc | cycleJedecid fla dbc =>
    have hd : 63 < dbc.toNat := not_le.mp (of_decide_eq_false hi)
    exact runSizedCycle_refused (cycleAdmitted_of_count hd)
  | readRegion id =>
    have hid : ¬ id.toNat ≤ 11 := of_decide_eq_false hi
    exact dif_neg (by omega)
  | readProtectedRange index =>
    have hindex : ¬ index.toNat ≤ 4 := of_decide_eq_false hi
    exact dif_neg (by omega)
  | write a bs => exact absurd rfl (hwrite a bs)
  | parse im => exact absurd rfl (hparse im)
  | _ => cases hi

/-- Without a cycle-type field a JedecId or Sfdp cycle cannot be expressed (R167, R168). -/
theorem exec_refuses_kind {i : Instr} {s : State} (hcfg : s.cfg.hasCycleTypeField = false)
    (hi : ∃ fla dbc, i = .cycleJedecid fla dbc ∨ i = .cycleSfdp fla dbc) : exec i s = .next (refuseIllegal s) := by
  obtain ⟨fla, dbc, rfl | rfl⟩ := hi
  · exact runSizedCycle_refused (cycleAdmitted_of_kind hcfg)
  · exact runSizedCycle_refused (cycleAdmitted_of_kind hcfg)

/-- Settles O4, by its three parts: a frame that decodes is legal, a byte count above 63 passes for Erase only, and an operand
out of range or a cycle kind the platform lacks is refused before anything else is done. -/
theorem illegalEncodingsRejected : Obligations.IllegalEncodingsRejected := by
  refine ⟨fun w0 w1 w2 p hill => decode_frame_error fun hlegal => ?_, fun c d a0 a1 a2 a3 hd hc => ?_,
    fun i s h => ⟨refuseIllegal s, ?_, rfl, rfl, rfl, rfl, rfl, rfl⟩⟩
  · obtain ⟨hop, hreserved, harg, haddress, hlength, hregion, hrange⟩ := hlegal
    rcases hill with h | h | h | ⟨h, h7, h8⟩ | ⟨h, h4⟩ | ⟨h, h1, h2, h6⟩ | ⟨h7, h⟩ | ⟨h8, h⟩
    · exact absurd hop.1 (not_le.mpr h)
    · exact absurd hop.2 (not_le.mpr h)
    · exact h hreserved
    · exact harg.elim h fun h => h.elim h7 h8
    · exact haddress.elim h (not_lt.mpr h4)
    · exact hlength.elim h fun h => h.elim h1 fun h => h.elim h2 h6
    · exact absurd (hregion h7) (not_le.mpr h)
    · exact absurd (hrange h8) (not_le.mpr h)
  · exact decodeCycle_error hd hc _
  · rcases h with ⟨hi, hwrite, hparse⟩ | ⟨hcfg, hi⟩
    · exact exec_refuses_operand hi hwrite hparse s
    · exact exec_refuses_kind hcfg hi

/-! ### Results -/

/-- Every operation may answer `IllegalCommand` (R136, R340). -/
theorem admits_illegalCommand (i : Instr) : admitsResult i (.err .illegalCommand) = true := by cases i <;> rfl

/-- Settles O13: a refused operation answers `IllegalCommand`; one that ran delivers a result it admits (`exec_runs`), and
delivery rests the engine's latches (R345). -/
theorem resultsAreTyped : Obligations.ResultsAreTyped := by
  intro i s t h
  rcases exec_runs h with rfl | ⟨r, u, -, rfl, hr⟩
  · exact ⟨.err .illegalCommand, rfl, admits_illegalCommand i, fun hne => absurd rfl hne⟩
  · exact ⟨r, deliver_result u r, hr, fun _ => ⟨rfl, rfl⟩⟩

end Sys2Proof.Proofs
end

section
/-! PROOFS. 40_cycle_engine.md, one cycle as an operation of its own: `runCycle_ready` gives the state every presented cycle
leaves from an idle controller, and the lemmas after it read its parts. -/

namespace Sys2Proof.Proofs

open Sys2Proof.Machine Sys2Proof.Laws

/-! ### The state a presented cycle leaves -/

/-- The state in which a presented cycle makes its first write: accepted, its command latched, the check made. -/
def begun (c : CycleCommand) (s : State) : State := checked c (beginOp s)

/-- The state after a presented cycle has delivered its outcome. -/
def afterCycle (c : CycleCommand) (s : State) : State :=
  deliver (unitOutcome s.cycleDraw.outcome)
    (if s.cycleDraw.inTime then cycleDone c (begun c s) else cycleTimedOut c (begun c s))

/-- Accepting a cycle and making the check leave the configuration, the controller and the environment of an idle machine. -/
theorem begun_eq {s : State} (hidle : s.ctl.inflight = none) (c : CycleCommand) :
    begun c s = { s with eng := (begun c s).eng, host := (begun c s).host } := by
  have hsettled : settled (beginOp s) = beginOp s := settled_of_idle hidle
  simp only [begun, checked, hsettled]
  rfl

theorem endOp_unitResult (e : Option OpError) (s : State) : endOp (unitResult (e, s)) = deliver (unitOutcome e) s := by
  cases e <;> rfl

/-- ONE PRESENTED CYCLE (R150 to R160), whatever it draws. -/
theorem runCycle_ready {s : State} (hcfg : s.cfg.wellFormed = true) (hready : Ready s) (c : CycleCommand) :
    runCycle c s = .next (afterCycle c s) := by
  have hdraw : (checked c (beginOp s)).cycleDraw = s.cycleDraw := by
    rw [show checked c (beginOp s) = begun c s from rfl, begun_eq hready.1]
    rfl
  have hrun := executeCycle_eq (s := beginOp s) hcfg (.inr hready) c
  rw [hdraw] at hrun
  rw [runCycle, hrun]
  exact congrArg Host.Outcome.next (endOp_unitResult _ _)

/-- The same for the five cycle kinds as operations; an Erase cycle has no byte count. -/
theorem exec_cycle_ready {s : State} {k : CycleKind} {dbc : Byte} (hcfg : s.cfg.wellFormed = true) (hready : Ready s)
    (hadm : Admitted s k dbc) (fla : Word) :
    exec (cycleInstr k fla dbc) s = .next (afterCycle ⟨k, fla, if k = .erase then 0 else dbc⟩ s) := by
  rw [exec_cycleInstr hadm, runCycle_ready hcfg hready]

@[simp] theorem afterCycle_result (c : CycleCommand) (s : State) :
    (afterCycle c s).host.result = some (unitOutcome s.cycleDraw.outcome) := rfl

@[simp] theorem afterCycle_pc (c : CycleCommand) (s : State) : (afterCycle c s).eng.pc = .idle := rfl

@[simp] theorem afterCycle_cfg (c : CycleCommand) (s : State) : (afterCycle c s).cfg = s.cfg := by
  unfold afterCycle
  split <;> exact settled_cfg (beginOp s)

/-- The accesses of a presented cycle: the check's sample, steps 1 to 3, steps 4 and 5 (R151 to R158). -/
theorem afterCycle_trace {s : State} (hidle : s.ctl.inflight = none) (c : CycleCommand) :
    (afterCycle c s).host.trace =
      checkTrace s ++ (issueTrace s.cfg c.kind c.fla c.dbc ++ pollTrace s s.cycleDraw) := by
  have hsettled : settled (beginOp s) = beginOp s := settled_of_idle hidle
  have hbegun : (begun c s).host.trace = checkTrace s := by simp only [begun, checked, hsettled]; rfl
  have hpoll : pollTrace (begun c s) (begun c s).cycleDraw = pollTrace s s.cycleDraw := by rw [begun_eq hidle]; rfl
  have hcfg : (begun c s).cfg = s.cfg := by rw [begun_eq hidle]
  have hend : (afterCycle c s).host.trace = (begun c s).host.trace ++
      (issueTrace (begun c s).cfg c.kind c.fla c.dbc ++ pollTrace (begun c s) (begun c s).cycleDraw) := by
    unfold afterCycle
    split <;> rfl
  rw [hend, hbegun, hpoll, hcfg]

/-! ### A cycle that ended in time -/

section
variable {s : State} (hidle : s.ctl.inflight = none) (hin : s.cycleDraw.inTime = true)
include hidle hin

theorem afterCycle_window (c : CycleCommand) : (afterCycle c s).ctl.window = windowAfter (latched c s) s := by
  rw [afterCycle, if_pos hin, begun_eq hidle]
  rfl

theorem afterCycle_flash (c : CycleCommand) : (afterCycle c s).env.flash = flashAfter (latched c s) s := by
  rw [afterCycle, if_pos hin, begun_eq hidle]
  rfl

theorem afterCycle_ctl (c : CycleCommand) : (afterCycle c s).ctl.ctl = latchedCtl s.cfg c s.ctl.ctl := by
  rw [afterCycle, if_pos hin, begun_eq hidle]
  rfl

omit hidle in
theorem afterCycle_inflight (c : CycleCommand) : (afterCycle c s).ctl.inflight = none := by
  rw [afterCycle, if_pos hin]
  rfl

omit hidle in
theorem afterCycle_verdict (c : CycleCommand) :
    (afterCycle c s).host.result = some (unitOutcome s.cycleDraw.verdict) := by
  rw [afterCycle_result, CycleDraw.outcome, if_pos hin]

end

/-! ### A cycle that did not -/

/-- A timeout leaves the stored status, the window and flash, and the cycle in flight (R157). -/
theorem afterCycle_timedOut {s : State} (hidle : s.ctl.inflight = none) (hlate : s.cycleDraw.inTime = false)
    (c : CycleCommand) :
    let t := afterCycle c s
    t.host.result = some (.err .cycleTimeout) ∧ t.ctl.inflight.isSome = true ∧ t.ctl.sts = s.ctl.sts ∧
      t.ctl.window = s.ctl.window ∧ t.env.flash = s.env.flash := by
  have hne : ¬ s.cycleDraw.inTime = true := by simp [hlate]
  have hout : s.cycleDraw.outcome = some .cycleTimeout := if_neg hne
  simp only [afterCycle_result, hout]
  rw [afterCycle, if_neg hne, begun_eq hidle]
  exact ⟨rfl, rfl, rfl, rfl, rfl⟩

/-! ### Steps 4 and 5 by the draw -/

theorem inTime_iff (d : CycleDraw) : d.inTime = true ↔ ∃ j, d.delay = some j ∧ j ≤ pollMax := by
  unfold CycleDraw.inTime
  split
  · next j hj => simp [hj]
  · next hj => simp [hj]

/-- The last three accesses of a cycle that ended: the sample that shows idle, the clear write, the re-sample (R158). -/
def endTrace (s : State) (d : CycleDraw) : List Event :=
  [.read .sts (idleSample s d), clearEvent s.cfg, .read .sts (clearedSample s d)]

/-- The samples of the tight loop and the sleep, when every sample still saw the cycle (R155, R156). -/
def vainTrace (s : State) : List Event := List.replicate pollMax (.read .sts (busySample s)) ++ [.sleep sleepMs]

theorem pollTrace_loop (s : State) {d : CycleDraw} {j : Nat} (hd : d.delay = some j) (hj : j < pollMax) :
    pollTrace s d = List.replicate j (.read .sts (busySample s)) ++ endTrace s d := by
  simp only [pollTrace, hd, if_pos hj, endTrace]

theorem pollTrace_late (s : State) {d : CycleDraw} (hd : d.delay = some pollMax) :
    pollTrace s d = vainTrace s ++ endTrace s d := by
  simp only [pollTrace, hd, if_neg (Nat.lt_irrefl pollMax), if_true, endTrace, vainTrace]

theorem pollTrace_timeout (s : State) {d : CycleDraw} (hd : d.inTime = false) :
    pollTrace s d = vainTrace s ++ [.read .sts (busySample s)] := by
  have hne : ¬ ∃ j, d.delay = some j ∧ j ≤ pollMax := by simp [← inTime_iff, hd]
  unfold pollTrace
  cases hdelay : d.delay with
  | none => simp [vainTrace]
  | some j =>
    have hj : pollMax < j := by
      by_contra hle
      exact hne ⟨j, hdelay, by omega⟩
    simp only [if_neg (show ¬ j < pollMax by omega), if_neg (show ¬ j = pollMax by omega), vainTrace]
    simp

/-- Whenever a cycle ends in time, its accesses end with `endTrace`. -/
theorem pollTrace_inTime (s : State) {d : CycleDraw} (hd : d.inTime = true) : ∃ l, pollTrace s d = l ++ endTrace s d := by
  obtain ⟨j, hj, hle⟩ := (inTime_iff d).mp hd
  rcases Nat.lt_or_eq_of_le hle with hlt | rfl
  · exact ⟨_, pollTrace_loop s hj hlt⟩
  · exact ⟨_, pollTrace_late s hj⟩

end Sys2Proof.Proofs
end

section
/-! PROOFS. 40_cycle_engine.md section 4 (R163): how many samples, accesses and sleeps the parts of a trace hold. -/

namespace Sys2Proof.Proofs

open Sys2Proof.Machine Sys2Proof.Laws

/-- A part of a trace with `reads` status samples, `accesses` accesses and `naps` suspensions. -/
structure HasCounts (l : List Event) (reads accesses naps : Nat) : Prop where
  reads : (statusSamples l).length = reads
  length : l.length = accesses + naps
  sleeps : sleeps l = naps

@[simp] theorem statusSamples_append (l l' : List Event) : statusSamples (l ++ l') = statusSamples l ++ statusSamples l' :=
  List.filterMap_append

@[simp] theorem sleeps_append (l l' : List Event) : sleeps (l ++ l') = sleeps l + sleeps l' := List.countP_append

theorem HasCounts.append {l l' : List Event} {r r' a a' n n' : Nat} (h : HasCounts l r a n) (h' : HasCounts l' r' a' n') :
    HasCounts (l ++ l') (r + r') (a + a') (n + n') where
  reads := by rw [statusSamples_append, List.length_append, h.reads, h'.reads]
  length := by rw [List.length_append, h.length, h'.length]; omega
  sleeps := by rw [sleeps_append, h.sleeps, h'.sleeps]

theorem hasCounts_replicate (v : Word) (j : Nat) : HasCounts (List.replicate j (.read .sts v)) j j 0 := by
  induction j with
  | zero => exact ⟨rfl, rfl, rfl⟩
  | succ j ih =>
    have hone : HasCounts [.read .sts v] 1 1 0 := ⟨rfl, rfl, rfl⟩
    exact List.replicate_succ' ▸ ih.append hone

theorem hasCounts_check (s : State) :
    HasCounts (checkTrace s) (if s.eng.session = .unchecked then 1 else 0) (if s.eng.session = .unchecked then 1 else 0) 0 := by
  unfold checkTrace
  split <;> exact ⟨rfl, rfl, rfl⟩

/-- Steps 1 to 3 are three writes, without step 2 two (R152 to R154). -/
theorem hasCounts_issue (cfg : Config) (k : CycleKind) (fla : Word) (dbc : Byte) :
    HasCounts (issueTrace cfg k fla dbc) 0 (2 + if k = .erase then 0 else 1) 0 := by
  unfold issueTrace
  split <;> exact ⟨rfl, rfl, rfl⟩

theorem hasCounts_end (s : State) (d : CycleDraw) : HasCounts (endTrace s d) 2 3 0 := by
  unfold endTrace clearEvent
  split <;> exact ⟨rfl, rfl, rfl⟩

theorem hasCounts_vain (s : State) : HasCounts (vainTrace s) pollMax pollMax 1 :=
  (hasCounts_replicate _ pollMax).append (l' := [.sleep sleepMs]) (r' := 0) (a' := 0) (n' := 1) ⟨rfl, rfl, rfl⟩

/-- The counts of a presented cycle from those of its steps 4 and 5. -/
theorem hasCounts_afterCycle {s : State} (hidle : s.ctl.inflight = none) {r a n : Nat}
    (hpoll : HasCounts (pollTrace s s.cycleDraw) r a n) (k : CycleKind) (fla : Word) (dbc : Byte) :
    HasCounts (afterCycle ⟨k, fla, dbc⟩ s).host.trace ((if s.eng.session = .unchecked then 1 else 0) + (0 + r))
      ((if s.eng.session = .unchecked then 1 else 0) + (2 + (if k = .erase then 0 else 1) + a)) (0 + (0 + n)) := by
  rw [afterCycle_trace hidle]
  exact (hasCounts_check s).append ((hasCounts_issue s.cfg k fla dbc).append hpoll)

/-- Settles O15, by when the cycle ends: within the tight loop, at the late sample, or not in time. -/
theorem cycleAccessCounts : Obligations.CycleAccessCounts := by
  intro k fla dbc s t hcfg hready hadm h
  rw [exec_cycle_ready hcfg hready hadm] at h
  obtain rfl := Host.Outcome.next.inj h
  refine ⟨fun j hj hlt => ?_, fun hj => ?_, fun hlate => ?_⟩
  · have hpoll : HasCounts (pollTrace s s.cycleDraw) (j + 2) (j + 3) (0 + 0) := by
      rw [pollTrace_loop s hj hlt]
      exact (hasCounts_replicate _ j).append (hasCounts_end s _)
    obtain ⟨hreads, hlength, hsleeps⟩ := hasCounts_afterCycle hready.1 hpoll k fla (if k = .erase then 0 else dbc)
    omega
  · have hpoll : HasCounts (pollTrace s s.cycleDraw) (pollMax + 2) (pollMax + 3) (1 + 0) := by
      rw [pollTrace_late s hj]
      exact (hasCounts_vain s).append (hasCounts_end s _)
    obtain ⟨hreads, hlength, hsleeps⟩ := hasCounts_afterCycle hready.1 hpoll k fla (if k = .erase then 0 else dbc)
    simp only [pollMax] at hreads hlength
    omega
  · have hpoll : HasCounts (pollTrace s s.cycleDraw) (pollMax + 1) (pollMax + 1) (1 + 0) := by
      rw [pollTrace_timeout s hlate]
      exact (hasCounts_vain s).append ⟨rfl, rfl, rfl⟩
    obtain ⟨hreads, hlength, hsleeps⟩ := hasCounts_afterCycle hready.1 hpoll k fla (if k = .erase then 0 else dbc)
    simp only [pollMax] at hreads hlength
    omega

end Sys2Proof.Proofs
end

section
/-! PROOFS. 40_cycle_engine.md sections 2 and 3: the verdict of a cycle that ended (R159), and the timeout of one that did
not (R157). -/

namespace Sys2Proof.Proofs

open Sys2Proof.Machine Sys2Proof.Laws

theorem unitOutcome_errorBits (a f : Bool) :
    unitOutcome (if a || f then some (.cycleError a f) else none) =
      if a = false ∧ f = false then .ok .nothing else .err (.cycleError a f) := by
  cases a <;> cases f <;> rfl

/-- The result the step 6 test gives, read off the bits of the sample (R159). -/
theorem unitOutcome_verifyError (l : StsLayout) (v : Word) :
    unitOutcome (verifyError l v) =
      if v.getLsbD l.ael = false ∧ v.getLsbD l.fcerr = false then .ok .nothing
      else .err (.cycleError (v.getLsbD l.ael) (v.getLsbD l.fcerr)) :=
  unitOutcome_errorBits (v.getLsbD l.ael) (v.getLsbD l.fcerr)

/-- The re-sample shows the verdict of the draws (R46, R159). -/
theorem verifyError_clearedSample {s : State} (hcfg : s.cfg.wellFormed = true) (d : CycleDraw) :
    verifyError s.cfg.sts (clearedSample s d) = d.verdict :=
  verifyError_cleared hcfg false d.aelAfterClear d.fcerrAfterClear _

/-- The last access of a cycle that ended in time is the re-sample (R158). -/
theorem afterCycle_getLast_inTime {s : State} (hidle : s.ctl.inflight = none) (hin : s.cycleDraw.inTime = true)
    (c : CycleCommand) : (afterCycle c s).host.trace.getLast? = some (.read .sts (clearedSample s s.cycleDraw)) := by
  obtain ⟨l, hl⟩ := pollTrace_inTime s hin
  rw [afterCycle_trace hidle, hl]
  simp [endTrace, List.getLast?_append]

/-- Settles O16: the last sample is the re-sample, and its error bits give the verdict delivered. -/
theorem verdictIsTheResample : Obligations.VerdictIsTheResample := by
  intro k fla dbc s hcfg hready hadm hin
  refine ⟨_, clearedSample s s.cycleDraw, exec_cycle_ready hcfg hready hadm fla,
    afterCycle_getLast_inTime hready.1 hin _, ?_⟩
  rw [← unitOutcome_verifyError, verifyError_clearedSample hcfg]
  exact afterCycle_verdict hin _

/-! ### The timeout -/

/-- The last access of a timeout is the late sample, which sees the cycle in flight (R156, R157). -/
theorem afterCycle_getLast_timedOut {s : State} (hidle : s.ctl.inflight = none) (hlate : s.cycleDraw.inTime = false)
    (c : CycleCommand) : (afterCycle c s).host.trace.getLast? = some (.read .sts (busySample s)) := by
  rw [afterCycle_trace hidle, pollTrace_timeout s hlate]
  simp [List.getLast?_append]

/-- An access that writes the status register, as the clear write does. -/
def isStatusWrite : Event → Bool
  | .write .sts _ => true
  | .write8 .sts _ _ => true
  | _ => false

theorem isStatusWrite_clearEvent (cfg : Config) : isStatusWrite (clearEvent cfg) = true := by
  unfold clearEvent
  split <;> rfl

theorem no_statusWrite_check (s : State) : ∀ e ∈ checkTrace s, isStatusWrite e = false := by
  unfold checkTrace
  split <;> simp [isStatusWrite]

theorem no_statusWrite_issue (cfg : Config) (k : CycleKind) (fla : Word) (dbc : Byte) :
    ∀ e ∈ issueTrace cfg k fla dbc, isStatusWrite e = false := by
  unfold issueTrace
  split <;> simp [isStatusWrite]

theorem no_statusWrite_vain (s : State) : ∀ e ∈ vainTrace s, isStatusWrite e = false := by
  intro e he
  rcases List.mem_append.mp he with hread | hsleep
  · rw [List.eq_of_mem_replicate hread]; rfl
  · rw [List.mem_singleton.mp hsleep]; rfl

/-- A timeout writes the status register nowhere, so it clears nothing (R157). -/
theorem clearEvent_not_mem_timedOut {s : State} (hidle : s.ctl.inflight = none) (hlate : s.cycleDraw.inTime = false)
    (c : CycleCommand) : clearEvent s.cfg ∉ (afterCycle c s).host.trace := by
  have hnone : ∀ e ∈ (afterCycle c s).host.trace, isStatusWrite e = false := by
    rw [afterCycle_trace hidle, pollTrace_timeout s hlate]
    simp only [List.forall_mem_append]
    exact ⟨no_statusWrite_check s, no_statusWrite_issue _ _ _ _, no_statusWrite_vain s, by simp [isStatusWrite]⟩
  intro hmem
  exact absurd (isStatusWrite_clearEvent s.cfg) (by simp [hnone _ hmem])

/-- While a cycle is in flight the status register reads `SCIP` 1 (R45). -/
theorem scip_of_inflight {t : State} (hcfg : t.cfg.wellFormed = true) (h : t.ctl.inflight.isSome = true) :
    (t.regValue .sts).getLsbD t.cfg.sts.scip = true :=
  (inProgress_statusWord hcfg t.ctl.inflight.isSome t.ctl.sts).trans h

/-- Settles O17, from the trace and the state of a timeout. -/
theorem cycleTimesOut : Obligations.CycleTimesOut := by
  intro k fla dbc s hcfg hready hadm hlate
  have hrun := exec_cycle_ready hcfg hready hadm fla
  generalize (⟨k, fla, if k = .erase then 0 else dbc⟩ : CycleCommand) = c at hrun
  obtain ⟨hresult, hflight, hsts, hwindow, hflash⟩ := afterCycle_timedOut hready.1 hlate c
  have hscip := scip_of_inflight ((afterCycle_cfg c s).symm ▸ hcfg) hflight
  rw [afterCycle_cfg] at hscip
  exact ⟨_, hrun, hresult, afterCycle_getLast_timedOut hready.1 hlate c, clearEvent_not_mem_timedOut hready.1 hlate c,
    hflight, hscip, hsts, hwindow, hflash, afterCycle_pc c s⟩

end Sys2Proof.Proofs
end

section
/-! PROOFS. 40_cycle_engine.md section 5: what each of the five kinds leaves in the window and in flash when its cycle ends
in time and has its effect (R164 to R168). -/

namespace Sys2Proof.Proofs

open Sys2Proof.Machine Sys2Proof.Laws

/-! ### The cycle the controller latches -/

theorem latched_kind_of_admitted {s : State} (hcfg : s.cfg.wellFormed = true) {c : CycleCommand}
    (hadm : kindAdmitted s.cfg c.kind = true) : (latched c s).kind = some c.kind :=
  (latched_kind hcfg c).trans (if_pos hadm)

/-- Masking the address for `HSQ_ADDR` reduces it modulo the size of flash (R128). -/
theorem toNat_latched_addr (c : CycleCommand) (s : State) : (latched c s).addr.toNat = c.fla.toNat % 2 ^ 27 :=
  BitVec.toNat_setWidth ..

/-- Window byte `j` is inside the count latched from `dbc`, and inside the window. -/
theorem lt_latched_count {s : State} (hcfg : s.cfg.wellFormed = true) {c : CycleCommand} (hk : c.kind ≠ .erase)
    (hd : c.dbc.toNat ≤ 63) {j : Nat} (hj : j ≤ c.dbc.toNat) : j < (latched c s).count ∧ j < 64 := by
  rw [latched_count hcfg hk hd]
  omega

/-! ### The kinds that fill the window -/

/-- Settles O21: the Read cycle's window and flash are those of `windowAfter_read` and `flashAfter_reading`. -/
theorem readCycleFillsWindow : Obligations.ReadCycleFillsWindow := by
  intro fla dbc s hcfg hready hd hin heff
  have hidle := hready.1
  have hkind : (latched ⟨.read, fla, dbc⟩ s).kind = some .read := latched_kind_of_admitted hcfg rfl
  refine ⟨_, exec_cycle_ready (k := .read) hcfg hready ⟨rfl, hd⟩ fla, afterCycle_verdict hin _, fun j hj => ?_, ?_,
    afterCycle_inflight hin _⟩
  · obtain ⟨hcount, h64⟩ := lt_latched_count hcfg (c := ⟨.read, fla, dbc⟩) (by simp) hd hj
    rw [afterCycle_window hidle hin]
    exact windowAfter_read hkind heff hcount h64
  · rw [afterCycle_flash hidle hin]
    exact flashAfter_reading (.inl hkind)

/-- Settles O25: the same for the Sfdp cycle, from the area its draw chooses. -/
theorem sfdpCycleFillsWindow : Obligations.SfdpCycleFillsWindow := by
  intro fla dbc s hcfg hfield hready hd hin heff
  have hidle := hready.1
  have hkind : (latched ⟨.sfdp, fla, dbc⟩ s).kind = some .sfdp := latched_kind_of_admitted hcfg hfield
  refine ⟨_, exec_cycle_ready (k := .sfdp) hcfg hready ⟨hfield, hd⟩ fla, afterCycle_verdict hin _, fun j hj => ?_, ?_,
    afterCycle_inflight hin _⟩
  · obtain ⟨hcount, h64⟩ := lt_latched_count hcfg (c := ⟨.sfdp, fla, dbc⟩) (by simp) hd hj
    rw [afterCycle_window hidle hin, ← toNat_latched_addr ⟨.sfdp, fla, dbc⟩ s]
    exact windowAfter_sfdp hkind heff hcount h64
  · rw [afterCycle_flash hidle hin]
    exact flashAfter_reading (.inr (.inr hkind))

/-- A slot whose four window bytes are those of a dword holds the dword (R34). -/
theorem slot_eq_of_bytes {w : Vector Word 16} {v : Word} (h : ∀ j < 4, windowByte w j = v.byte j) : w.get 0 = v := by
  rw [slot_eq_bytes w 0, ← ofBytes_byte v, ← h 0 (by decide), ← h 1 (by decide), ← h 2 (by decide), ← h 3 (by decide)]
  simp

/-- Settles O24: a count of four brings all four bytes of the identity into slot 0. -/
theorem jedecCycleFillsSlot : Obligations.JedecCycleFillsSlot := by
  intro fla s hcfg hfield hready hin heff
  have hidle := hready.1
  have hkind : (latched ⟨.jedecId, fla, 3⟩ s).kind = some .jedecId := latched_kind_of_admitted hcfg hfield
  have hcount : (latched ⟨.jedecId, fla, 3⟩ s).count = 4 :=
    latched_count hcfg (by simp) (show (3 : Byte).toNat ≤ 63 by decide)
  refine ⟨_, exec_cycle_ready (k := .jedecId) hcfg hready ⟨hfield, by decide⟩ fla, afterCycle_verdict hin _, ?_, ?_,
    afterCycle_inflight hin _⟩
  · rw [afterCycle_window hidle hin]
    exact slot_eq_of_bytes fun j hj => windowAfter_jedec hkind heff (lt_min hj (hcount.symm ▸ hj))
  · rw [afterCycle_flash hidle hin]
    exact flashAfter_reading (.inr (.inl hkind))

/-! ### The kinds that change flash -/

/-- Flash after a Write cycle that has its effect (R48, R165). -/
theorem flashAfter_write {c : InFlight} {s : State} (hk : c.kind = some .write) (he : c.draw.effect = .performed) :
    flashAfter c s = s.env.flash.putRun c.addr (windowByte s.ctl.window) c.count := by
  simp only [flashAfter, hk, he]

/-- Flash after an Erase cycle that has its effect (R48, R166). -/
theorem flashAfter_erase {c : InFlight} {s : State} (hk : c.kind = some .erase) (he : c.draw.effect = .performed) :
    flashAfter c s = s.env.flash.eraseRun (eraseStart s.cfg.eraseBlockBytes c.addr)
      (fun o => c.draw.erased.getD o c.draw.erasedFill) s.cfg.eraseBlockBytes := by
  simp only [flashAfter, hk, he]

/-- Settles O22: the run of stores of `get_putRun`, at most 64 bytes long and so never over itself. -/
theorem writeCycleStores : Obligations.WriteCycleStores := by
  intro fla dbc s hcfg hready hd hwf hin heff
  have hidle := hready.1
  have hkind : (latched ⟨.write, fla, dbc⟩ s).kind = some .write := latched_kind_of_admitted hcfg rfl
  have hcount : (latched ⟨.write, fla, dbc⟩ s).count = dbc.toNat + 1 := latched_count hcfg (by simp) hd
  have hflash := (afterCycle_flash hidle hin ⟨.write, fla, dbc⟩).trans (flashAfter_write hkind heff)
  rw [hcount] at hflash
  have hfits : dbc.toNat + 1 ≤ flashSize := by simp only [flashSize]; omega
  obtain ⟨hstored, hkept⟩ := get_putRun (fla.setWidth 27) (windowByte s.ctl.window) hwf hfits
  refine ⟨_, exec_cycle_ready (k := .write) hcfg hready ⟨rfl, hd⟩ fla, afterCycle_verdict hin _, fun j hj => ?_,
    fun x hx => ?_, ?_, afterCycle_inflight hin _⟩
  · exact (congrArg (Memory.get · _) hflash).trans (hstored j (Nat.lt_succ_of_le hj))
  · exact (congrArg (Memory.get · _) hflash).trans (hkept x fun j hj => hx j (Nat.le_of_lt_succ hj))
  · exact (afterCycle_window hidle hin _).trans (windowAfter_writing (.inl hkind))

/-- The block of an address starts at a multiple of the block size and holds the address (R166). -/
theorem eraseStart_bounds {size : Nat} (hsize : 0 < size) (a : BitVec 27) :
    eraseStart size a ≤ a.toNat ∧ a.toNat < eraseStart size a + size ∧ size ∣ eraseStart size a :=
  ⟨Nat.div_mul_le_self _ _, Nat.lt_div_mul_add hsize, Nat.dvd_mul_left _ _⟩

theorem eraseBlockBytes_pos {c : Config} (h : c.wellFormed = true) : 0 < c.eraseBlockBytes := by
  simp only [Config.wellFormed, Bool.and_eq_true, decide_eq_true_eq] at h
  obtain ⟨-, hsize, -⟩ := h
  exact hsize

/-- Step 3 alone writes the control register of an Erase cycle, and not the byte count byte (R153, R154). -/
theorem latchedCtl_erase_dbcByte {cfg : Config} (h : cfg.wellFormed = true) (fla : Word) (dbc : Byte) (v : Word) :
    (latchedCtl cfg ⟨.erase, fla, dbc⟩ v).byte cfg.ctl.dbcByte = v.byte cfg.ctl.dbcByte := by
  obtain ⟨-, -, -, -, hbyte, -⟩ := ctl_of_wellFormed h
  exact byte_setByte_other v 0 _ (by omega) _

/-- Both ways to ask for an erase run the one Erase cycle (R192). -/
theorem exec_erase_ready {i : Instr} {s : State} {fla : Word} (hi : i = .cycleErase fla ∨ i = .erase fla)
    (hcfg : s.cfg.wellFormed = true) (hready : Ready s) : exec i s = .next (afterCycle ⟨.erase, fla, 0⟩ s) := by
  rcases hi with rfl | rfl <;> exact runCycle_ready hcfg hready _

/-- Settles O23: the block is that of `eraseStart_bounds`, and flash inside and outside it that of `get_eraseRun`. -/
theorem eraseErasesBlock : Obligations.EraseErasesBlock := by
  intro fla i s hi hcfg hready hwf hin heff start size
  have hidle := hready.1
  have hkind : (latched ⟨.erase, fla, 0⟩ s).kind = some .erase := latched_kind_of_admitted hcfg rfl
  have hflash := (afterCycle_flash hidle hin ⟨.erase, fla, 0⟩).trans (flashAfter_erase hkind heff)
  have hget (x : Nat) : (afterCycle ⟨.erase, fla, 0⟩ s).env.flash.get x =
      if start ≤ x ∧ x < start + size ∧ x < flashSize then s.cycleDraw.erased.getD (x - start) s.cycleDraw.erasedFill
      else s.env.flash.get x :=
    (congrArg (Memory.get · x) hflash).trans (get_eraseRun start _ hwf size x)
  obtain ⟨hle, hlt, hdvd⟩ := eraseStart_bounds (eraseBlockBytes_pos hcfg) (fla.setWidth 27)
  rw [BitVec.toNat_setWidth] at hle hlt
  refine ⟨hle, hlt, hdvd, _, exec_erase_ready hi hcfg hready, afterCycle_verdict hin _, fun x h1 h2 h3 => ?_,
    fun x hx => ?_, ?_, ?_, afterCycle_inflight hin _⟩
  · rw [hget, if_pos ⟨h1, h2, h3⟩]
  · rw [hget, if_neg (by omega)]
  · exact (afterCycle_window hidle hin _).trans (windowAfter_writing (.inr hkind))
  · rw [afterCycle_ctl hidle hin]
    exact latchedCtl_erase_dbcByte hcfg fla 0 _

end Sys2Proof.Proofs
end

section
/-! PROOFS. 40_cycle_engine.md section 3, rules R155 and R156: a cycle is bounded, from every state and configuration. What
each phase adds to the trace is bounded once, and the bounds are added up along the algorithm of R160. -/

namespace Sys2Proof.Proofs

open Sys2Proof.Machine Sys2Proof.Laws

/-- From `s` to `t` the trace has gained at most `samples` status samples, `naps` suspensions and `addrs` address writes. -/
def Adds (samples naps addrs : Nat) (s t : State) : Prop :=
  ∃ l, t.host.trace = s.host.trace ++ l ∧ (statusSamples l).length ≤ samples ∧ sleeps l ≤ naps ∧
    (addrWrites l).length ≤ addrs

section
variable {n m a n' m' a' : Nat} {s t u : State}

theorem adds_of_host_eq (h : t.host = s.host) : Adds 0 0 0 s t := ⟨[], by simp [h], by decide, by decide, by decide⟩

/-- One entry adds what it counts for. -/
theorem adds_of_entry {e : Event} (h : t.host.trace = s.host.trace ++ [e]) :
    Adds (statusSamples [e]).length (sleeps [e]) (addrWrites [e]).length s t := ⟨[e], h, le_rfl, le_rfl, le_rfl⟩

theorem Adds.trans (h : Adds n m a s t) (h' : Adds n' m' a' t u) : Adds (n + n') (m + m') (a + a') s u := by
  obtain ⟨l, hl, h1, h2, h3⟩ := h
  obtain ⟨l', hl', h1', h2', h3'⟩ := h'
  have haddr : addrWrites (l ++ l') = addrWrites l ++ addrWrites l' := List.filterMap_append
  refine ⟨l ++ l', by rw [hl', hl, List.append_assoc], ?_, ?_, ?_⟩
  · rw [statusSamples_append, List.length_append]; omega
  · rw [sleeps_append]; omega
  · rw [haddr, List.length_append]; omega

theorem Adds.mono (h : Adds n m a s t) (hn : n ≤ n') (hm : m ≤ m') (ha : a ≤ a') : Adds n' m' a' s t := by
  obtain ⟨l, hl, h1, h2, h3⟩ := h
  exact ⟨l, hl, h1.trans hn, h2.trans hm, h3.trans ha⟩

/-- An update of the latches after the accesses. -/
theorem Adds.modEng (h : Adds n m a s t) (f : Engine → Engine) : Adds n m a s (t.modEng f) := h

end

/-! ### The Register Port records the access and nothing else -/

theorem tickStatus_host (s : State) : (tickStatus s).host = s.host := by
  unfold tickStatus
  split
  · rfl
  · split <;> rfl

theorem applyWrite_host (r : Reg) (v : Word) (s : State) : (applyWrite r v s).host = s.host := by
  cases r with
  | ctl => simp only [applyWrite]; split <;> rfl
  | _ => rfl

theorem applyWrite8_host (r : Reg) (k : Nat) (b : Byte) (s : State) : (applyWrite8 r k b s).host = s.host := by
  cases r with
  | ctl => simp only [applyWrite8]; split <;> rfl
  | sts => rfl
  | _ => exact applyWrite_host ..

theorem claimController_host {s t : State} (h : claimController s = .ok t) : t.host = s.host := by
  unfold claimController at h
  split at h
  · cases h; rfl
  · split at h
    · cases h; rfl
    · cases h

theorem portWrite_trace (r : Reg) (v : Word) (s : State) :
    (portWrite r v s).host.trace = s.host.trace ++ [.write r v] := by
  rw [portWrite, applyWrite_host, log_trace]

theorem portWrite8_trace (r : Reg) (k : Nat) (b : Byte) (s : State) :
    (portWrite8 r k b s).host.trace = s.host.trace ++ [.write8 r k b] := by
  rw [portWrite8, applyWrite8_host, log_trace]

/-! ### The phases -/

theorem sampleStatus_adds (s : State) : Adds 1 0 0 s (sampleStatus s).2 :=
  adds_of_entry (e := .read .sts (sampleStatus s).1)
    (congrArg (fun h : HostPort => h.trace ++ [.read .sts (sampleStatus s).1]) (tickStatus_host s))

theorem sessionCheck_adds (s : State) : Adds 1 0 0 s (sessionCheck s) := by
  unfold sessionCheck
  split
  · exact (sampleStatus_adds (s.atPhase .check)).modEng _
  · exact (adds_of_host_eq rfl).mono (by decide) (by decide) (by decide)

theorem phaseAddr_adds {s t : State} (h : phaseAddr s = .ok t) : Adds 0 0 1 s t := by
  cases hc : claimController (s.atPhase .addr) with
  | error f => simp [phaseAddr, regWrite, sequencing, hc, Except.map] at h
  | ok u =>
    simp only [phaseAddr, regWrite, sequencing, if_true, hc, Except.map, Except.ok.injEq] at h
    subst h
    exact adds_of_entry (e := .write .addr (maskFla s.eng.cmd.fla)) (by rw [portWrite_trace, claimController_host hc]; rfl)

/-- Steps 2 and 3 write the control register only. -/
theorem regWrite8_ctl_adds {k : Nat} {b : Byte} {s t : State} (h : regWrite8 .ctl k b s = .ok t) : Adds 0 0 0 s t := by
  cases hc : claimController s with
  | error f => simp [regWrite8, sequencing, hc, Except.map] at h
  | ok u =>
    simp only [regWrite8, sequencing, if_true, hc, Except.map, Except.ok.injEq] at h
    subst h
    exact adds_of_entry (e := .write8 .ctl k b) (by rw [portWrite8_trace, claimController_host hc])

theorem phaseDbc_adds {s t : State} (h : phaseDbc s = .ok t) : Adds 0 0 0 s t := regWrite8_ctl_adds (s := s.atPhase .dbc) h

theorem phaseGo_adds {s t : State} (h : phaseGo s = .ok t) : Adds 0 0 0 s t := regWrite8_ctl_adds (s := s.atPhase .go) h

theorem issueCycle_adds {s t : State} (h : issueCycle s = .ok t) : Adds 0 0 1 s t := by
  unfold issueCycle at h
  cases haddr : phaseAddr s with
  | error f => rw [haddr] at h; cases h
  | ok u =>
    rw [haddr] at h
    simp only [Except.bind] at h
    have hfirst := phaseAddr_adds haddr
    by_cases hk : u.eng.cmd.kind = .erase
    · rw [if_pos hk] at h
      exact hfirst.trans (phaseGo_adds h)
    · rw [if_neg hk] at h
      cases hdbc : phaseDbc u with
      | error f => rw [hdbc] at h; cases h
      | ok w =>
        rw [hdbc] at h
        exact (hfirst.trans (phaseDbc_adds hdbc)).trans (phaseGo_adds h)

theorem pollOnce_adds (s : State) : Adds 1 0 0 s (pollOnce s).2 := (sampleStatus_adds s).modEng _

/-- A loop of at most `k` samples (R155). -/
theorem pollLoop_adds : ∀ (k : Nat) (s : State), Adds k 0 0 s (pollLoop k s).2
  | 0, _ => adds_of_host_eq rfl
  | k + 1, s => by
    unfold pollLoop
    split
    · exact (pollOnce_adds s).mono (by omega) (by decide) (by decide)
    · exact ((pollOnce_adds s).trans (pollLoop_adds k _)).mono (by omega) (by decide) (by decide)

theorem phaseSleep_adds (s : State) : Adds 0 1 0 s (phaseSleep s) := adds_of_entry (e := .sleep sleepMs) rfl

/-- Step 4: the tight loop, then at most one sleep and one sample (R155, R156). -/
theorem awaitIdle_adds (s : State) : Adds (pollMax + 1) 1 0 s (awaitIdle s).2 := by
  have hloop : Adds pollMax 0 0 s (pollLoop pollMax (startPoll s)).2 := pollLoop_adds pollMax (startPoll s)
  unfold awaitIdle
  simp only
  split
  · exact hloop.mono (by omega) (by decide) (by decide)
  · have hlate : Adds 1 0 0 (phaseSleep (pollLoop pollMax (startPoll s)).2)
        (phaseLate (phaseSleep (pollLoop pollMax (startPoll s)).2)).2 := sampleStatus_adds _
    exact ((hloop.trans (phaseSleep_adds _)).trans hlate).mono (by omega) (by decide) (by decide)

theorem stsClear_adds (s : State) : Adds 0 0 0 s (stsClear s) := by
  unfold stsClear
  split
  · exact adds_of_entry (portWrite8_trace ..)
  · exact adds_of_entry (portWrite_trace ..)

theorem phaseClear_adds (s : State) : Adds 1 0 0 s (phaseClear s) :=
  ((stsClear_adds (s.atPhase .clear)).trans (sampleStatus_adds _)).mono (by decide) (by decide) (by decide)

/-- Steps 4 to 6: 1001 polls and the re-sample (R155 to R159). -/
theorem completeCycle_adds (s : State) : Adds (pollMax + 2) 1 0 s (completeCycle s).2 := by
  unfold completeCycle
  simp only
  split
  · exact ((awaitIdle_adds s).trans (phaseClear_adds _)).mono (by omega) (by decide) (by decide)
  · exact (awaitIdle_adds s).mono (by omega) (by decide) (by decide)

/-- The whole cycle: the check, 1001 polls, the re-sample; one sleep; one address write. -/
theorem executeCycle_adds {c : CycleCommand} {s : State} {p : Option OpError × State} (h : executeCycle c s = .ok p) :
    Adds (pollMax + 3) 1 1 s p.2 := by
  have hcheck : Adds 1 0 0 s (sessionCheck (latchCommand c s)) := sessionCheck_adds (latchCommand c s)
  unfold executeCycle at h
  simp only at h
  split at h
  · cases h
    exact hcheck.mono (by omega) (by decide) (by decide)
  · cases hissue : issueCycle (sessionCheck (latchCommand c s)) with
    | error f => rw [hissue] at h; cases h
    | ok u =>
      rw [hissue] at h
      cases h
      exact ((hcheck.trans (issueCycle_adds hissue)).trans (completeCycle_adds u)).mono (by omega) (by decide) (by decide)

/-! ### The operation -/

/-- A cycle presented as an operation is refused, or runs its cycle (R131, R136). -/
theorem exec_cycleInstr_cases {k : CycleKind} {fla : Word} {dbc : Byte} {s t : State}
    (h : exec (cycleInstr k fla dbc) s = .next t) : t = refuseIllegal s ∨ ∃ c, runCycle c s = .next t := by
  have sized {c : CycleCommand} (h : runSizedCycle c s = .next t) : t = refuseIllegal s ∨ ∃ c, runCycle c s = .next t := by
    unfold runSizedCycle at h
    split at h
    · exact .inr ⟨c, h⟩
    · cases h; exact .inl rfl
  cases k with
  | erase => exact .inr ⟨_, h⟩
  | read => exact sized h
  | write => exact sized h
  | jedecId => exact sized h
  | sfdp => exact sized h

/-- The trace of a presented cycle is what the cycle itself added, since acceptance empties it. -/
theorem runCycle_adds {c : CycleCommand} {s t : State} (h : runCycle c s = .next t) :
    Adds (pollMax + 3) 1 1 (beginOp s) t := by
  unfold runCycle at h
  cases hrun : executeCycle c (beginOp s) with
  | error f => rw [hrun] at h; cases h
  | ok p =>
    rw [hrun] at h
    obtain rfl := Host.Outcome.next.inj h
    obtain ⟨l, hl, hbound⟩ := executeCycle_adds hrun
    exact ⟨l, (congrArg (·.host.trace) (endOp_unitResult p.1 p.2)).trans hl, hbound⟩

/-- Settles O29: a refusal has made no access, and a cycle at most those of `executeCycle_adds`. -/
theorem cycleIsBounded : Obligations.CycleIsBounded := by
  intro k fla dbc s t h
  rcases exec_cycleInstr_cases h with rfl | ⟨c, hrun⟩
  · exact ⟨Nat.zero_le _, Nat.zero_le _, Nat.zero_le _⟩
  · obtain ⟨l, hl, hsamples, hsleeps, haddrs⟩ := runCycle_adds hrun
    rw [beginOp_trace, List.nil_append] at hl
    rw [hl]
    exact ⟨hsamples, hsleeps, haddrs⟩

end Sys2Proof.Proofs
end

section
/-! PROOFS. 41_chunked_transfer.md R192 and R194: an erase is the one cycle it issues, and a transfer of no bytes makes no
access. -/

namespace Sys2Proof.Proofs

open Sys2Proof.Machine Sys2Proof.Laws

/-- Settles O39: `ERASE` and `CYCLE.ERASE` run the same cycle command, `runCycle ⟨.erase, a, 0⟩`. -/
theorem eraseIsOneCycle : Obligations.EraseIsOneCycle := fun _ _ => rfl

/-- A plan for no bytes has no burst, full or final (R182, R194). -/
theorem runPlan_of_no_bytes (burst : Nat → State → Except Fault (Bool × State)) {s : State} (hn : s.eng.n = 0)
    (hr : s.eng.r = 0) : runPlan burst s = .ok (false, s) := by
  simp only [runPlan, hn, runBursts, hr, if_true]

/-- Settles O38: both plans are empty, so what is left is acceptance and delivery. -/
theorem zeroLength : Obligations.ZeroLength := by
  intro a s
  have hread : readOp a 0 (beginOp s) = .ok (.ok (.bytes []), latchPlan a 0 4 (beginOp s)) := by
    rw [readOp, runPlan_of_no_bytes _ (Nat.zero_div _) (Nat.zero_mod _)]; rfl
  have hwrite : writeOp a [] (beginOp s) = .ok (.ok .nothing, latchPlan a 0 4 (beginOp s)) := by
    rw [writeOp, runPlan_of_no_bytes _ (Nat.zero_div _) (Nat.zero_mod _)]; rfl
  exact ⟨⟨_, congrArg finish hread, rfl, rfl, ⟨rfl, rfl, rfl, rfl, rfl, rfl, rfl, rfl⟩, rfl, rfl, rfl⟩,
    ⟨_, congrArg finish hwrite, rfl, rfl, ⟨rfl, rfl, rfl, rfl, rfl, rfl, rfl, rfl⟩, rfl, rfl, rfl⟩⟩

end Sys2Proof.Proofs
end

section
/-! PROOFS. 41_chunked_transfer.md, the cycle of a burst: `ran` is the state `executeCycle` leaves for its caller, and the
lemmas after it read its parts. An earlier cycle may still be in flight when it begins (R382). -/

namespace Sys2Proof.Proofs

open Sys2Proof.Machine Sys2Proof.Laws

/-- The state cycle `c` leaves, in time or not. -/
def ran (c : CycleCommand) (s : State) : State :=
  if s.cycleDraw.inTime then cycleDone c (checked c s) else cycleTimedOut c (checked c s)

@[simp] theorem checked_cycleDraw (c : CycleCommand) (s : State) : (checked c s).cycleDraw = s.cycleDraw := by
  simp [State.cycleDraw, checked]

/-- `executeCycle_eq` with its state named. -/
theorem executeCycle_ran {s : State} (hcfg : s.cfg.wellFormed = true) (h : CanIssue s) (c : CycleCommand) :
    executeCycle c s = .ok (s.cycleDraw.outcome, ran c s) := by
  rw [executeCycle_eq hcfg h, checked_cycleDraw, ran]

/-! ### Whatever the cycle draws -/

@[simp] theorem ran_cfg (c : CycleCommand) (s : State) : (ran c s).cfg = s.cfg := by
  unfold ran
  split <;> exact settled_cfg s

theorem ran_session (c : CycleCommand) (s : State) : (ran c s).eng.session = .enabled := by
  unfold ran
  split <;> rfl

/-- The caller's latches outlive the cycle. -/
theorem ran_plan (c : CycleCommand) (s : State) : SamePlan s.eng (ran c s).eng := by
  unfold ran
  split <;> exact ⟨rfl, rfl, rfl, rfl, rfl, rfl, rfl, rfl, rfl, rfl, rfl, rfl⟩

/-- A cycle uses up one draw (R46). -/
theorem ran_nthDraw (c : CycleCommand) (s : State) (j : Nat) : (ran c s).nthDraw j = s.nthDraw (j + 1) := by
  have hdraws : (ran c s).env.cycleDraws = s.env.cycleDraws.tail := by
    unfold ran
    split <;> exact congrArg List.tail (settled_draws s)
  have hcount : (ran c s).env.drawCount = s.env.drawCount + 1 := by
    unfold ran
    split <;> exact congrArg (· + 1) (settled_drawCount s)
  rw [State.nthDraw, State.nthDraw, hdraws, hcount, List.getElem?_tail, Nat.add_right_comm, Nat.add_assoc]

theorem nthDraw_zero (s : State) : s.nthDraw 0 = s.cycleDraw := by
  rw [State.nthDraw, State.cycleDraw, List.headD_eq_head?_getD, List.head?_eq_getElem?, Nat.add_zero]

/-- A cycle that settles leaves the controller to the next one: it ended, or it ends before the next write (R382). -/
theorem ran_free {s : State} (hsettles : s.cycleDraw.settles = true) (c : CycleCommand) : Free (ran c s) := by
  unfold ran
  split
  · exact free_of_idle rfl
  · next hlate =>
    intro d hd
    cases hd
    simpa [CycleDraw.settles, hlate, latched] using hsettles

/-! ### Its accesses -/

@[simp] theorem sequencingWrites_append (l l' : List Event) :
    sequencingWrites (l ++ l') = sequencingWrites l ++ sequencingWrites l' := List.filter_append ..

@[simp] theorem sequencingWrites_check (s : State) : sequencingWrites (checkTrace s) = [] := by
  unfold checkTrace
  split <;> rfl

@[simp] theorem sequencingWrites_replicate (v : Word) (n : Nat) :
    sequencingWrites (List.replicate n (.read .sts v)) = [] := by
  simp [sequencingWrites]

@[simp] theorem sequencingWrites_vain (s : State) : sequencingWrites (vainTrace s) = [] := by
  rw [vainTrace, sequencingWrites_append, sequencingWrites_replicate]
  rfl

@[simp] theorem sequencingWrites_end (s : State) (d : CycleDraw) : sequencingWrites (endTrace s d) = [] := by
  unfold endTrace clearEvent
  split <;> rfl

/-- The clear write is the only write of steps 4 and 5, and it writes the status register (R158). -/
@[simp] theorem sequencingWrites_poll (s : State) (d : CycleDraw) : sequencingWrites (pollTrace s d) = [] := by
  cases hin : d.inTime with
  | false => rw [pollTrace_timeout s hin, sequencingWrites_append, sequencingWrites_vain]; rfl
  | true =>
    obtain ⟨j, hj, hle⟩ := (inTime_iff d).mp hin
    rcases Nat.lt_or_eq_of_le hle with hlt | rfl
    · simp [pollTrace_loop s hj hlt]
    · simp [pollTrace_late s hj]

/-- Steps 1 to 3 of a cycle that carries a byte count (R152 to R154). -/
def issueWrites (cfg : Config) (k : CycleKind) (fla : Word) (dbc : Byte) : List Event :=
  [.write .addr (fla &&& 0x07FFFFFF#32), .write8 .ctl cfg.ctl.dbcByte dbc, .write8 .ctl 0 (cycByte cfg k)]

theorem sequencingWrites_issue (cfg : Config) {k : CycleKind} (hk : k ≠ .erase) (fla : Word) (dbc : Byte) :
    sequencingWrites (issueTrace cfg k fla dbc) = issueWrites cfg k fla dbc := by
  rw [issueTrace, if_neg hk]
  rfl

/-- A cycle makes the writes of its steps 1 to 3 and no other write of the address, the control register or a slot. -/
theorem ran_writes {c : CycleCommand} (hk : c.kind ≠ .erase) (s : State) :
    sequencingWrites (ran c s).host.trace =
      sequencingWrites s.host.trace ++ issueWrites s.cfg c.kind c.fla c.dbc := by
  have htrace : (ran c s).host.trace = (checked c s).host.trace ++
      (issueTrace (checked c s).cfg c.kind c.fla c.dbc ++ pollTrace (checked c s) (checked c s).cycleDraw) := by
    unfold ran
    split <;> rfl
  have hchecked : (checked c s).host.trace = s.host.trace ++ checkTrace s := by simp [checked]
  have hcfg : (checked c s).cfg = s.cfg := settled_cfg s
  rw [htrace, hchecked, hcfg]
  simp [sequencingWrites_issue s.cfg hk]

/-! ### A cycle that ended in time, from an idle controller -/

/-- The command latch and the check leave an idle controller and the environment as they are. -/
theorem checked_eq {s : State} (hidle : s.ctl.inflight = none) (c : CycleCommand) :
    checked c s = { s with eng := (checked c s).eng, host := (checked c s).host } := by
  simp only [checked, settled_of_idle hidle]

section
variable {s : State} (hidle : s.ctl.inflight = none) (hin : s.cycleDraw.inTime = true)
include hidle hin

theorem ran_window (c : CycleCommand) : (ran c s).ctl.window = windowAfter (latched c s) s := by
  rw [ran, if_pos hin, checked_eq hidle]
  rfl

theorem ran_flash (c : CycleCommand) : (ran c s).env.flash = flashAfter (latched c s) s := by
  rw [ran, if_pos hin, checked_eq hidle]
  rfl

omit hidle in
theorem ran_inflight (c : CycleCommand) : (ran c s).ctl.inflight = none := by
  rw [ran, if_pos hin]
  rfl

end

end Sys2Proof.Proofs
end

section
/-! PROOFS. 41_chunked_transfer.md R184 to R186 and R189: what one burst leaves, whatever its cycle draws. `BurstDone` says it
once for both directions. -/

namespace Sys2Proof.Proofs

open Sys2Proof.Machine Sys2Proof.Laws

/-! ### Gathering the bytes of a burst -/

/-- From `t` to `v` the coordinator has gathered bytes in its buffer, writing no sequencing register. -/
structure Gathers (t v : State) : Prop where
  cfg : v.cfg = t.cfg
  ctl : v.ctl = t.ctl
  env : v.env = t.env
  eng : ∃ bs, v.eng = { t.eng with buf := t.eng.buf ++ bs }
  writes : sequencingWrites v.host.trace = sequencingWrites t.host.trace

theorem gathers_refl (t : State) : Gathers t t := ⟨rfl, rfl, rfl, ⟨[], by simp⟩, rfl⟩

theorem Gathers.trans {t v w : State} (h : Gathers t v) (h' : Gathers v w) : Gathers t w := by
  obtain ⟨bs, hbs⟩ := h.eng
  obtain ⟨bs', hbs'⟩ := h'.eng
  exact ⟨h'.cfg.trans h.cfg, h'.ctl.trans h.ctl, h'.env.trans h.env, ⟨bs ++ bs', by rw [hbs', hbs]; simp⟩,
    h'.writes.trans h.writes⟩

/-- One slot read, its bytes joined to the buffer. -/
theorem gathers_slot (i : Fin 16) (bs : List Byte) (t : State) :
    Gathers t ((regRead (.data i) t).2.modEng fun e => { e with buf := e.buf ++ bs }) :=
  ⟨rfl, rfl, rfl, ⟨bs, rfl⟩, (sequencingWrites_append ..).trans (List.append_nil _)⟩

theorem drainSlots_gathers (k : Nat) : ∀ (count slot : Nat) (t : State), Gathers t (drainSlots k count slot t)
  | 0, _, t => gathers_refl t
  | count + 1, slot, t => (gathers_slot _ _ t).trans (drainSlots_gathers k count (slot + 1) _)

/-! ### The end of a burst -/

/-- How the coordinator takes the outcome of a burst's cycle: it gathers, or records the error (R184, R186). -/
def recordOutcome (gather : State → State) (o : Option OpError) (t : State) : State :=
  match o with
  | none => gather t
  | some e => recordFailure e t

/-- The state a burst leaves that runs cycle `c` from `u`. -/
def burstLeft (gather : State → State) (c : CycleCommand) (u : State) : State :=
  nextBurst (recordOutcome gather u.cycleDraw.outcome (ran c u))

/-- Where the session check has passed, no outcome of a cycle stops the coordinator (R186). -/
theorem afterBurst_outcome (gather : State → State) (d : CycleDraw) (t : State) :
    afterBurst gather (d.outcome, t) = (false, nextBurst (recordOutcome gather d.outcome t)) := by
  unfold CycleDraw.outcome CycleDraw.verdict
  split
  · split <;> rfl
  · rfl

/-- What a burst leaves of a transfer that made the writes `ws` in it: the failure latches tell its cycle's outcome, and one
draw is used up. -/
structure BurstDone (ws : List Event) (u v : State) : Prop where
  cfg : v.cfg = u.cfg
  opAddr : v.eng.opAddr = u.eng.opAddr
  burst : v.eng.burst = u.eng.burst
  n : v.eng.n = u.eng.n
  r : v.eng.r = u.eng.r
  index : v.eng.burstIndex = u.eng.burstIndex + 1
  errFirst : v.eng.errFirst = u.eng.errFirst.or u.cycleDraw.outcome
  failed : v.eng.failed = (u.eng.failed || u.cycleDraw.outcome.isSome)
  draws : ∀ j, v.nthDraw j = u.nthDraw (j + 1)
  writes : sequencingWrites v.host.trace = sequencingWrites u.host.trace ++ ws
  canIssue : u.cycleDraw.settles = true → CanIssue v

/-- What taking the outcome leaves: the error is recorded unless an earlier one was, and nothing else that matters to the
transfer changes. -/
structure OutcomeTaken (o : Option OpError) (t v : State) : Prop where
  cfg : v.cfg = t.cfg
  ctl : v.ctl = t.ctl
  env : v.env = t.env
  eng : ∃ bs, v.eng = { t.eng with
    buf := bs, failed := t.eng.failed || o.isSome, errFirst := t.eng.errFirst.or o }
  writes : sequencingWrites v.host.trace = sequencingWrites t.host.trace

theorem recordOutcome_taken {gather : State → State} (hg : ∀ t, Gathers t (gather t)) (o : Option OpError) (t : State) :
    OutcomeTaken o t (recordOutcome gather o t) := by
  cases o with
  | none =>
    obtain ⟨bs, hbs⟩ := (hg t).eng
    exact ⟨(hg t).cfg, (hg t).ctl, (hg t).env, ⟨t.eng.buf ++ bs, by simp [recordOutcome, hbs]⟩, (hg t).writes⟩
  | some e =>
    refine ⟨rfl, rfl, rfl, ⟨t.eng.buf, ?_⟩, rfl⟩
    cases he : t.eng.errFirst <;> simp [recordOutcome, recordFailure, he]

/-- A burst's cycle and the taking of its outcome. -/
theorem burstLeft_done {gather : State → State} (hg : ∀ t, Gathers t (gather t)) {c : CycleCommand}
    (hk : c.kind ≠ .erase) (u : State) :
    BurstDone (issueWrites u.cfg c.kind c.fla c.dbc) u (burstLeft gather c u) := by
  obtain ⟨hcfg, hctl, henv, ⟨bs, htaken⟩, hwrites⟩ := recordOutcome_taken hg u.cycleDraw.outcome (ran c u)
  have hplan := ran_plan c u
  have heng : (burstLeft gather c u).eng = { (ran c u).eng with
      buf := bs, failed := (ran c u).eng.failed || u.cycleDraw.outcome.isSome
      errFirst := (ran c u).eng.errFirst.or u.cycleDraw.outcome, burstIndex := (ran c u).eng.burstIndex + 1 } := by
    rw [burstLeft, nextBurst, modEng_eng, htaken]
  exact {
    cfg := hcfg.trans (ran_cfg c u)
    opAddr := by rw [heng, ← hplan.opAddr]
    burst := by rw [heng, ← hplan.burst]
    n := by rw [heng, ← hplan.n]
    r := by rw [heng, ← hplan.r]
    index := by rw [heng, ← hplan.burstIndex]
    errFirst := by rw [heng, ← hplan.errFirst]
    failed := by rw [heng, ← hplan.failed]
    draws := fun j => by
      rw [← ran_nthDraw c u, burstLeft, nextBurst, State.nthDraw, modEng_env, henv, State.nthDraw]
    writes := hwrites.trans (ran_writes hk u)
    canIssue := fun h => .inl ⟨by rw [heng, ← ran_session c u], fun d hd => ran_free h c d (hctl ▸ hd)⟩ }

/-! ### A read burst -/

/-- The cycle of the current burst, of `k` bytes (R182). -/
def burstCommand (kind : CycleKind) (k : Nat) (u : State) : CycleCommand :=
  ⟨kind, burstAddress u.eng.opAddr u.eng.burst u.eng.burstIndex, dbcOf k⟩

theorem readBurst_eq {u : State} (hcfg : u.cfg.wellFormed = true) (h : CanIssue u) (k : Nat) :
    readBurst k u = .ok (false, burstLeft (drainSlots k (slotCount k) 0) (burstCommand .read k u) u) := by
  rw [readBurst, executeCycle_ran hcfg h]
  exact congrArg Except.ok (afterBurst_outcome _ _ _)

/-! ### A write burst -/

/-- A write burst gathers nothing: the payload stays in the buffer. -/
theorem burstLeft_id_buf (c : CycleCommand) (u : State) : (burstLeft id c u).eng.buf = u.eng.buf := by
  refine Eq.trans ?_ (ran_plan c u).buf
  unfold burstLeft recordOutcome
  split <;> rfl

/-- Slot 0 is packed, once an earlier cycle has ended (R189, R382). -/
def packed (k : Nat) (u : State) : State := portWrite (.data 0) (packLe (burstBytes u k)) (settled u)

theorem free_of_canIssue {u : State} (h : CanIssue u) : Free u := h.elim And.right fun h => free_of_idle h.1

theorem packed_inflight (k : Nat) (u : State) : (packed k u).ctl.inflight = none := settled_inflight u

@[simp] theorem packed_cfg (k : Nat) (u : State) : (packed k u).cfg = u.cfg := settled_cfg u

@[simp] theorem packed_eng (k : Nat) (u : State) : (packed k u).eng = u.eng := settled_eng u

theorem packed_nthDraw (k : Nat) (u : State) (j : Nat) : (packed k u).nthDraw j = u.nthDraw j := by
  have hdraws : (packed k u).env.cycleDraws = u.env.cycleDraws := settled_draws u
  have hcount : (packed k u).env.drawCount = u.env.drawCount := settled_drawCount u
  rw [State.nthDraw, State.nthDraw, hdraws, hcount]

@[simp] theorem packed_cycleDraw (k : Nat) (u : State) : (packed k u).cycleDraw = u.cycleDraw := by
  rw [← nthDraw_zero, packed_nthDraw, nthDraw_zero]

theorem packed_writes (k : Nat) (u : State) :
    sequencingWrites (packed k u).host.trace =
      sequencingWrites u.host.trace ++ [.write (.data 0) (packLe (burstBytes u k))] := by
  rw [packed, portWrite_trace, sequencingWrites_append, settled_host]
  rfl

theorem packed_canIssue {u : State} (h : CanIssue u) (k : Nat) : CanIssue (packed k u) := by
  rcases h with ⟨hsession, -⟩ | hready
  · exact .inl ⟨by rw [packed_eng, hsession], free_of_idle (packed_inflight k u)⟩
  · have hsettled : packed k u = portWrite (.data 0) (packLe (burstBytes u k)) u := by
      rw [packed, settled_of_idle hready.1]
    rw [hsettled]
    exact .inr hready

theorem writeBurstOf_eq {u : State} (hcfg : u.cfg.wellFormed = true) (h : CanIssue u) (k : Nat) :
    writeBurstOf k u = .ok (false, burstLeft id (burstCommand .write k u) (packed k u)) := by
  have hpack : regWrite (.data 0) (packLe (burstBytes u k)) u = .ok (packed k u) := by
    simp only [regWrite, sequencing, if_true, claimController_eq (free_of_canIssue h)]
    rfl
  rw [writeBurstOf, hpack]
  show (executeCycle _ (packed k u)).map (afterBurst id) = _
  rw [executeCycle_ran (by rw [packed_cfg, hcfg]) (packed_canIssue h k)]
  exact congrArg Except.ok (afterBurst_outcome _ _ _)

/-- Packing slot 0 before the burst adds its write and leaves the rest of the transfer as it was. -/
theorem BurstDone.of_packed {ws : List Event} {k : Nat} {u v : State} (h : BurstDone ws (packed k u) v) :
    BurstDone (.write (.data 0) (packLe (burstBytes u k)) :: ws) u v := by
  obtain ⟨hcfg, hopAddr, hburst, hn, hr, hindex, herr, hfailed, hdraws, hwrites, hissue⟩ := h
  simp only [packed_cfg, packed_eng, packed_cycleDraw, packed_nthDraw, packed_writes] at *
  exact ⟨hcfg, hopAddr, hburst, hn, hr, hindex, herr, hfailed, hdraws, by simpa using hwrites, hissue⟩

end Sys2Proof.Proofs
end

section
/-! PROOFS. 41_chunked_transfer.md, a whole transfer: `Transfer.run` packages the induction over the bursts of a plan, for any
invariant `Q` that the burst keeps, and `exec_read_transfer` and `exec_write_transfer` instantiate it. -/

namespace Sys2Proof.Proofs

open Sys2Proof.Machine Sys2Proof.Laws

/-! ### The plan of a transfer -/

/-- The first error is the earliest (R186). -/
theorem firstError_succ (s : State) (i : Nat) : firstError s (i + 1) = (firstError s i).or (s.nthDraw i).outcome := by
  simp only [firstError, List.range_succ, List.filterMap_append, List.head?_append]
  congr 1
  cases hout : (s.nthDraw i).outcome <;> simp [hout]

/-- What a transfer is to do (R182, R188): `pack i` lists the slot writes before its burst `i` (R189). -/
structure Transfer where
  kind : CycleKind
  address : Word
  length : Nat
  burst : Nat
  pack : Nat → List Event

/-- `READ address, length` (R181, R182). -/
def readTransfer (address : Word) (length : Nat) : Transfer :=
  ⟨.read, address, length, readBurstSize length, fun _ => []⟩

/-- `WRITE address, bytes` (R188, R189). -/
def writeTransfer (address : Word) (bytes : List Byte) : Transfer :=
  ⟨.write, address, bytes.length, writeBurst, fun i => [.write (.data 0) (packLe ((bytes.drop (4 * i)).take 4))]⟩

namespace Transfer

variable (x : Transfer)

/-- Its number of cycles. -/
def cycles : Nat := cyclesOf x.length x.burst

/-- The bytes of burst `i`: a whole burst, or what is left. -/
def size (i : Nat) : Nat := min x.burst (x.length - i * x.burst)

/-- The cycle of burst `i`. -/
def command (i : Nat) : CycleCommand := ⟨x.kind, burstAddress x.address x.burst i, countOf x.length x.burst i⟩

/-- The sequencing writes of burst `i`. -/
def writes (cfg : Config) (i : Nat) : List Event :=
  x.pack i ++ issueWrites cfg x.kind (x.command i).fla (x.command i).dbc

/-- The state `u` after the first `i` bursts of the transfer begun in `s`, whatever their cycles drew. -/
structure AtBurst (s : State) (i : Nat) (u : State) : Prop where
  cfg : u.cfg = s.cfg
  opAddr : u.eng.opAddr = x.address
  burst : u.eng.burst = x.burst
  n : u.eng.n = x.length / x.burst
  r : u.eng.r = x.length % x.burst
  index : u.eng.burstIndex = i
  errFirst : u.eng.errFirst = firstError s i
  failed : u.eng.failed = (firstError s i).isSome
  draws : ∀ j, u.nthDraw j = s.nthDraw (i + j)
  writes : sequencingWrites u.host.trace = (List.range i).flatMap (x.writes s.cfg)
  canIssue : NextDraws CycleDraw.settles i s → CanIssue u

variable {x : Transfer} {s u v : State} {i : Nat}

theorem AtBurst.cycleDraw (h : x.AtBurst s i u) : u.cycleDraw = s.nthDraw i := by
  rw [← nthDraw_zero, h.draws, Nat.add_zero]

theorem AtBurst.command (h : x.AtBurst s i u) : burstCommand x.kind (x.size i) u = x.command i := by
  rw [burstCommand, h.opAddr, h.burst, h.index]
  rfl

theorem AtBurst.next (h : x.AtBurst s i u) (hb : BurstDone (x.writes s.cfg i) u v) : x.AtBurst s (i + 1) v where
  cfg := hb.cfg.trans h.cfg
  opAddr := hb.opAddr.trans h.opAddr
  burst := hb.burst.trans h.burst
  n := hb.n.trans h.n
  r := hb.r.trans h.r
  index := by rw [hb.index, h.index]
  errFirst := by rw [hb.errFirst, h.errFirst, h.cycleDraw, firstError_succ]
  failed := by rw [hb.failed, h.failed, h.cycleDraw, firstError_succ, Option.isSome_or]
  draws j := by rw [hb.draws, h.draws]; congr 1; omega
  writes := by rw [hb.writes, h.writes, List.range_succ, List.flatMap_append]; simp
  canIssue hsettles := hb.canIssue (h.cycleDraw ▸ hsettles i (Nat.lt_succ_self i))

/-! ### The induction over the bursts -/

theorem cycles_eq_div_or (x : Transfer) :
    (x.length % x.burst = 0 ∧ x.cycles = x.length / x.burst) ∨
      (x.length % x.burst ≠ 0 ∧ x.cycles = x.length / x.burst + 1) := by
  unfold cycles cyclesOf
  split
  · next h => exact .inl ⟨h, rfl⟩
  · next h => exact .inr ⟨h, rfl⟩

theorem size_full (hi : i < x.length / x.burst) : x.size i = x.burst := by
  have hle : (i + 1) * x.burst ≤ x.length := (Nat.mul_le_mul_right _ hi).trans (Nat.div_mul_le_self ..)
  rw [Nat.succ_mul] at hle
  exact Nat.min_eq_left (by omega)

theorem size_final (hb : 0 < x.burst) : x.size (x.length / x.burst) = x.length % x.burst := by
  have hlt : x.length % x.burst < x.burst := Nat.mod_lt _ hb
  have hsum : x.length / x.burst * x.burst + x.length % x.burst = x.length := Nat.div_add_mod' ..
  unfold size
  omega

/-- One burst of the transfer begun in `s` runs to its end, and takes the invariant `Q` along. -/
def Steps (x : Transfer) (s : State) (Q : Nat → State → Prop)
    (burst : Nat → State → Except Fault (Bool × State)) : Prop :=
  ∀ i u, i < x.cycles → x.AtBurst s i u → CanIssue u → Q i u →
    ∃ v, burst (x.size i) u = .ok (false, v) ∧ BurstDone (x.writes s.cfg i) u v ∧ Q (i + 1) v

section
variable {Q : Nat → State → Prop} {burst : Nat → State → Except Fault (Bool × State)}
  (hstep : x.Steps s Q burst) (hsettles : NextDraws CycleDraw.settles (x.cycles - 1) s)
include hstep hsettles

/-- A burst of the plan finds the controller free: all cycles before it have settled (R382). -/
theorem step_burst (hi : i < x.cycles) (h : x.AtBurst s i u) (hQ : Q i u) :
    ∃ v, burst (x.size i) u = .ok (false, v) ∧ x.AtBurst s (i + 1) v ∧ Q (i + 1) v := by
  have hissue : CanIssue u := h.canIssue fun j hj => hsettles j (by omega)
  obtain ⟨v, hrun, hdone, hv⟩ := hstep i u hi h hissue hQ
  exact ⟨v, hrun, h.next hdone, hv⟩

/-- `count` full bursts (R183). -/
theorem run_full : ∀ {count i : Nat} {u : State}, i + count ≤ x.length / x.burst → x.AtBurst s i u → Q i u →
    ∃ v, runBursts (burst x.burst) count u = .ok (false, v) ∧ x.AtBurst s (i + count) v ∧ Q (i + count) v
  | 0, _, u, _, h, hQ => ⟨u, rfl, h, hQ⟩
  | count + 1, i, u, hle, h, hQ => by
    have hi : i < x.cycles := by rcases cycles_eq_div_or x with ⟨-, hc⟩ | ⟨-, hc⟩ <;> omega
    obtain ⟨v, hrun, hv, hQv⟩ := step_burst hstep hsettles hi h hQ
    rw [size_full (by omega)] at hrun
    obtain ⟨w, hrest, hw, hQw⟩ := run_full (count := count) (by omega) hv hQv
    rw [Nat.add_right_comm] at hw hQw
    exact ⟨w, by rw [runBursts, hrun]; exact hrest, hw, hQw⟩

/-- The whole plan: the full bursts, then the final one if there is one (R182). -/
theorem run (hb : 0 < x.burst) (h : x.AtBurst s 0 u) (hQ : Q 0 u) :
    ∃ v, runPlan burst u = .ok (false, v) ∧ x.AtBurst s x.cycles v ∧ Q x.cycles v := by
  obtain ⟨v, hrun, hv, hQv⟩ := run_full hstep hsettles (count := x.length / x.burst) (by omega) h hQ
  rw [Nat.zero_add] at hv hQv
  have hplan : runPlan burst u = if x.length % x.burst = 0 then .ok (false, v) else burst (x.length % x.burst) v := by
    simp only [runPlan, h.burst, h.n, hrun, hv.r]
  rw [hplan]
  rcases cycles_eq_div_or x with ⟨hr, hc⟩ | ⟨hr, hc⟩
  · rw [if_pos hr, hc]
    exact ⟨v, rfl, hv, hQv⟩
  · rw [if_neg hr, ← size_final hb, hc]
    exact step_burst hstep hsettles (by omega) hv hQv

end

end Transfer

end Sys2Proof.Proofs
end

section
/-! PROOFS. 41_chunked_transfer.md sections 1 and 2: the burst plans of `READ` and `WRITE`, and the failure they report. Both
operations run their `Transfer`, whatever their cycles draw, and deliver the first error. -/

namespace Sys2Proof.Proofs

open Sys2Proof.Machine Sys2Proof.Laws

/-! ### The end of a transfer -/

/-- The result of a transfer whose first failure is `o` (R186). -/
def transferOutcome (value : Value) (o : Option OpError) : OpResult :=
  match o with
  | none => .ok value
  | some e => .err e

theorem transferOutcome_nothing (o : Option OpError) : transferOutcome .nothing o = unitOutcome o := by cases o <;> rfl

theorem finish_transfer {x : Transfer} {s t : State} {i : Nat} (h : x.AtBurst s i t) (value : State → Value) :
    finish (.ok (transferResult value (false, t))) = .next (deliver (transferOutcome (value t) (firstError s i)) t) := by
  have herr := h.errFirst
  have hfailed := h.failed
  cases hfirst : firstError s i with
  | none =>
    rw [hfirst] at herr hfailed
    simp only [transferResult, herr, hfailed]
    rfl
  | some e =>
    rw [hfirst] at herr hfailed
    simp only [transferResult, herr, hfailed]
    rfl

/-! ### Its beginning -/

theorem readBurstSize_pos (length : Nat) : 0 < readBurstSize length := by
  unfold readBurstSize
  split <;> decide

/-- Acceptance and the latching of the plan leave the controller and the draws as they are. -/
theorem atBurst_zero {x : Transfer} {s u : State} (hready : Ready s) (hhost : u.host.trace = []) (hcfg : u.cfg = s.cfg)
    (hctl : u.ctl = s.ctl) (henv : u.env = s.env)
    (heng : ∃ bs, u.eng = { (latchPlan x.address x.length x.burst (beginOp s)).eng with buf := bs }) :
    x.AtBurst s 0 u := by
  obtain ⟨bs, heng⟩ := heng
  have hsession : u.eng.session = s.eng.session := by rw [heng]; rfl
  have hissue : Ready u := by simpa only [Ready, State.regValue, hsession, hctl, hcfg] using hready
  exact {
    cfg := hcfg
    opAddr := by rw [heng]; rfl
    burst := by rw [heng]; rfl
    n := by rw [heng]; rfl
    r := by rw [heng]; rfl
    index := by rw [heng]; rfl
    errFirst := by rw [heng]; rfl
    failed := by rw [heng]; rfl
    draws := fun j => by rw [Nat.zero_add, State.nthDraw, henv, State.nthDraw]
    writes := by rw [hhost]; rfl
    canIssue := fun _ => .inr hissue }

/-! ### Their bursts -/

/-- The state burst `i` of a read transfer leaves. -/
def readLeft (x : Transfer) (i : Nat) (u : State) : State :=
  burstLeft (drainSlots (x.size i) (slotCount (x.size i)) 0) (x.command i) u

/-- The state burst `i` of a write transfer leaves. -/
def writeLeft (x : Transfer) (i : Nat) (u : State) : State := burstLeft id (x.command i) (packed (x.size i) u)

/-- A read transfer makes its bursts whatever their cycles draw, and keeps what each of them keeps. -/
theorem readTransfer_steps {x : Transfer} {address : Word} {length : Nat} (hx : x = readTransfer address length)
    {s : State} {Q : Nat → State → Prop} (hcfg : s.cfg.wellFormed = true)
    (hQ : ∀ i u, i < x.cycles → x.AtBurst s i u → Q i u → Q (i + 1) (readLeft x i u)) : x.Steps s Q readBurst := by
  subst hx
  intro i u hi h hissue hq
  have hrun := readBurst_eq (by rw [h.cfg, hcfg]) hissue ((readTransfer address length).size i)
  have hcommand : burstCommand .read _ u = _ := h.command
  rw [hcommand] at hrun
  refine ⟨_, hrun, ?_, hQ i u hi h hq⟩
  rw [← h.cfg]
  exact burstLeft_done (drainSlots_gathers _ _ 0) (show CycleKind.read ≠ .erase by decide) u

/-- The bytes of a write burst are those of the payload (R189). -/
theorem burstBytes_eq {x : Transfer} {address : Word} {bytes : List Byte} (hx : x = writeTransfer address bytes)
    {s u : State} {i : Nat} (h : x.AtBurst s i u) (hbuf : u.eng.buf = bytes) :
    burstBytes u (x.size i) = (bytes.drop (4 * i)).take 4 := by
  subst hx
  have hlen : (bytes.drop (4 * i)).length = bytes.length - i * 4 := by rw [List.length_drop, Nat.mul_comm]
  rw [burstBytes, hbuf, h.burst, h.index]
  show (bytes.drop (4 * i)).take (min 4 (bytes.length - i * 4)) = _
  rw [← hlen, ← List.take_take, List.take_length]

/-- The same for a write transfer, whose payload stays in the buffer. -/
theorem writeTransfer_steps {x : Transfer} {address : Word} {bytes : List Byte} (hx : x = writeTransfer address bytes)
    {s : State} {Q : Nat → State → Prop} (hcfg : s.cfg.wellFormed = true)
    (hQ : ∀ i u, i < x.cycles → x.AtBurst s i u → u.eng.buf = bytes → Q i u → Q (i + 1) (writeLeft x i u)) :
    x.Steps s (fun i u => u.eng.buf = bytes ∧ Q i u) writeBurstOf := by
  subst hx
  rintro i u hi h hissue ⟨hbuf, hq⟩
  have hrun := writeBurstOf_eq (by rw [h.cfg, hcfg]) hissue ((writeTransfer address bytes).size i)
  have hcommand : burstCommand .write _ u = _ := h.command
  rw [hcommand] at hrun
  refine ⟨_, hrun, ?_, ?_, hQ i u hi h hbuf hq⟩
  · have hdone := (burstLeft_done gathers_refl (c := (writeTransfer address bytes).command i)
      (show CycleKind.write ≠ .erase by decide) (packed ((writeTransfer address bytes).size i) u)).of_packed
    rw [burstBytes_eq rfl h hbuf, packed_cfg, h.cfg] at hdone
    exact hdone
  · rw [burstLeft_id_buf, packed_eng, hbuf]

/-! ### The two operations -/

/-- `READ`, WHATEVER ITS CYCLES DRAW: all bursts are made, the first error is reported, and what each burst keeps is kept. -/
theorem exec_read_transfer {x : Transfer} {address length : Word} (hx : x = readTransfer address length.toNat) {s : State}
    {Q : Nat → State → Prop} (hcfg : s.cfg.wellFormed = true) (hready : Ready s)
    (hsettles : NextDraws CycleDraw.settles (x.cycles - 1) s)
    (hzero : ∀ u, u.ctl = s.ctl → u.env = s.env → u.eng.buf = [] → Q 0 u)
    (hQ : ∀ i u, i < x.cycles → x.AtBurst s i u → Q i u → Q (i + 1) (readLeft x i u)) :
    ∃ t, exec (.read address length) s =
        .next (deliver (transferOutcome (.bytes t.eng.buf) (firstError s x.cycles)) t) ∧
      x.AtBurst s x.cycles t ∧ Q x.cycles t := by
  have hsteps := readTransfer_steps hx hcfg hQ
  subst hx
  obtain ⟨t, hrun, ht, hq⟩ := Transfer.run hsteps hsettles (readBurstSize_pos _)
    (atBurst_zero (u := latchPlan address length.toNat (readBurstSize length.toNat) (beginOp s)) hready rfl rfl rfl rfl
      ⟨_, rfl⟩)
    (hzero _ rfl rfl rfl)
  refine ⟨t, ?_, ht, hq⟩
  show finish (readOp address length.toNat (beginOp s)) = _
  rw [readOp, hrun]
  exact finish_transfer ht fun t => .bytes t.eng.buf

/-- `WRITE`, WHATEVER ITS CYCLES DRAW. -/
theorem exec_write_transfer {x : Transfer} {address : Word} {bytes : List Byte} (hx : x = writeTransfer address bytes)
    {s : State} {Q : Nat → State → Prop} (hcfg : s.cfg.wellFormed = true) (hready : Ready s)
    (hsettles : NextDraws CycleDraw.settles (x.cycles - 1) s)
    (hzero : ∀ u, u.ctl = s.ctl → u.env = s.env → Q 0 u)
    (hQ : ∀ i u, i < x.cycles → x.AtBurst s i u → u.eng.buf = bytes → Q i u → Q (i + 1) (writeLeft x i u)) :
    ∃ t, exec (.write address bytes) s = .next (deliver (transferOutcome .nothing (firstError s x.cycles)) t) ∧
      x.AtBurst s x.cycles t ∧ Q x.cycles t := by
  have hsteps := writeTransfer_steps hx hcfg hQ
  subst hx
  obtain ⟨t, hrun, ht, -, hq⟩ := Transfer.run hsteps hsettles (by decide : 0 < writeBurst)
    (atBurst_zero (u := (latchPlan address bytes.length writeBurst (beginOp s)).modEng fun e => { e with buf := bytes })
      hready rfl rfl rfl rfl ⟨_, rfl⟩)
    ⟨rfl, hzero _ rfl rfl⟩
  refine ⟨t, ?_, ht, hq⟩
  show finish (writeOp address bytes (beginOp s)) = _
  rw [writeOp, hrun]
  exact finish_transfer ht fun _ => .nothing

/-! ### The statements -/

/-- Settles O33: the plan's writes are those of `Transfer.AtBurst` after the last burst. -/
theorem readBurstPlan : Obligations.ReadBurstPlan := by
  intro address length s burst n hcfg hready hsettles
  obtain ⟨t, hrun, ht, -⟩ := exec_read_transfer (Q := fun _ _ => True) rfl hcfg hready hsettles (fun _ _ _ _ => trivial)
    fun _ _ _ _ _ => trivial
  exact ⟨_, hrun, ht.index, ht.writes⟩

/-- Settles O34: the same for the write plan, whose bursts pack slot 0 first. -/
theorem writeBurstPlan : Obligations.WriteBurstPlan := by
  intro address bytes s n hcfg hready hsettles
  obtain ⟨t, hrun, ht, -⟩ := exec_write_transfer (Q := fun _ _ => True) rfl hcfg hready hsettles (fun _ _ _ => trivial)
    fun _ _ _ _ _ _ => trivial
  exact ⟨_, hrun, ht.index, ht.writes⟩

/-- An address write is one of the sequencing writes. -/
theorem addrWrites_sequencingWrites (l : List Event) : addrWrites (sequencingWrites l) = addrWrites l := by
  unfold addrWrites sequencingWrites
  rw [List.filterMap_filter]
  refine congrArg (List.filterMap · l) (funext fun e => ?_)
  cases e with
  | write r v => cases r <;> rfl
  | write8 r k b => cases r <;> rfl
  | read r v => rfl
  | sleep ms => rfl

/-- A transfer writes the address once a burst (R152, R182). -/
theorem Transfer.AtBurst.addrWrites_length {x : Transfer} {s t : State} {n : Nat}
    (hpack : ∀ i, addrWrites (x.pack i) = []) (h : x.AtBurst s n t) : (addrWrites t.host.trace).length = n := by
  have hone (i : Nat) : addrWrites (x.writes s.cfg i) = [(x.command i).fla &&& 0x07FFFFFF#32] := by
    rw [Transfer.writes, addrWrites, List.filterMap_append]
    exact congrArg (· ++ _) (hpack i)
  have hall : addrWrites ((List.range n).flatMap (x.writes s.cfg)) =
      (List.range n).flatMap fun i => addrWrites (x.writes s.cfg i) := List.filterMap_flatMap ..
  rw [← addrWrites_sequencingWrites, h.writes, hall]
  simp [hone]

/-- Settles O35: the failure latches tell the first error, and the address writes count the bursts. -/
theorem firstFailureReported : Obligations.FirstFailureReported := by
  constructor
  · intro address length s n hcfg hready hsettles
    obtain ⟨t, hrun, ht, -⟩ := exec_read_transfer (Q := fun _ _ => True) rfl hcfg hready hsettles (fun _ _ _ _ => trivial)
      fun _ _ _ _ _ => trivial
    have hcycles := ht.addrWrites_length fun _ => rfl
    refine ⟨_, hrun, hcycles, ht.failed, ?_⟩
    cases hfirst : firstError s n with
    | none => exact ⟨t.eng.buf, congrArg (fun o => some (transferOutcome (.bytes t.eng.buf) o)) hfirst⟩
    | some e => exact congrArg (fun o => some (transferOutcome (.bytes t.eng.buf) o)) hfirst
  · intro address bytes s n hcfg hready hsettles
    obtain ⟨t, hrun, ht, -⟩ := exec_write_transfer (Q := fun _ _ => True) rfl hcfg hready hsettles (fun _ _ _ => trivial)
      fun _ _ _ _ _ _ => trivial
    have hcycles := ht.addrWrites_length fun _ => rfl
    exact ⟨_, hrun, hcycles, ht.failed, congrArg some (transferOutcome_nothing _)⟩

end Sys2Proof.Proofs
end

section
/-! PROOFS. 41_chunked_transfer.md section 4, rule R195: what the bursts of a transfer leave in the buffer and in flash when
their cycles do what R48 says, and the round trip. -/

namespace Sys2Proof.Proofs

open Sys2Proof.Machine Sys2Proof.Laws

/-! ### Faithful draws -/

/-- A faithful draw, part by part. -/
structure Faithful (d : CycleDraw) : Prop where
  inTime : d.inTime = true
  outcome : d.outcome = none
  effect : d.effect = .performed

theorem faithful_of_draw {d : CycleDraw} (h : d.faithful = true) : Faithful d := by
  simp only [CycleDraw.faithful, Bool.and_eq_true, Bool.not_eq_true', beq_iff_eq] at h
  obtain ⟨⟨⟨hin, hael⟩, hfcerr⟩, heffect⟩ := h
  exact ⟨hin, by simp [CycleDraw.outcome, CycleDraw.verdict, hin, hael, hfcerr], heffect⟩

section
variable {n : Nat} {s : State} (h : NextDraws CycleDraw.faithful n s)
include h

theorem settles_of_faithful : NextDraws CycleDraw.settles n s := fun i hi => by
  rw [CycleDraw.settles, (faithful_of_draw (h i hi)).inTime, Bool.true_or]

theorem firstError_of_faithful : firstError s n = none := by
  have hnone : ((List.range n).filterMap fun i => (s.nthDraw i).outcome) = [] :=
    List.filterMap_eq_nil_iff.mpr fun i hi => (faithful_of_draw (h i (List.mem_range.mp hi))).outcome
  rw [firstError, hnone]
  rfl

theorem Transfer.AtBurst.faithful {x : Transfer} {i : Nat} {u : State} (hu : x.AtBurst s i u) (hi : i < n) :
    Faithful u.cycleDraw := faithful_of_draw (hu.cycleDraw ▸ h i hi)

end

theorem burstLeft_of_success {gather : State → State} {c : CycleCommand} {u : State} (h : u.cycleDraw.outcome = none) :
    burstLeft gather c u = nextBurst (gather (ran c u)) := by
  rw [burstLeft, h]
  rfl

/-! ### The bytes of a burst -/

theorem Transfer.lt_length {x : Transfer} (hb : 0 < x.burst) {i : Nat} (hi : i < x.cycles) : i * x.burst < x.length := by
  have hsum : x.length / x.burst * x.burst + x.length % x.burst = x.length := Nat.div_add_mod' ..
  rcases Transfer.cycles_eq_div_or x with ⟨-, hc⟩ | ⟨hr, hc⟩
  · have hle : (i + 1) * x.burst ≤ x.length / x.burst * x.burst := Nat.mul_le_mul_right _ (by omega)
    rw [Nat.succ_mul] at hle
    omega
  · have hle : i * x.burst ≤ x.length / x.burst * x.burst := Nat.mul_le_mul_right _ (by omega)
    omega

theorem Transfer.length_le {x : Transfer} (hb : 0 < x.burst) : x.length ≤ x.cycles * x.burst := by
  have hsum : x.length / x.burst * x.burst + x.length % x.burst = x.length := Nat.div_add_mod' ..
  have hlt : x.length % x.burst < x.burst := Nat.mod_lt _ hb
  rcases Transfer.cycles_eq_div_or x with ⟨hr, hc⟩ | ⟨-, hc⟩
  · rw [hc]; omega
  · rw [hc, Nat.succ_mul]; omega

/-- The flash bytes of burst `i` follow those of the bursts before it, around the top of flash too (R128, R182). -/
theorem flashAddr_burst (address : Word) (burst i j : Nat) :
    flashAddr ((burstAddress address burst i).setWidth 27) j = flashAddr (address.setWidth 27) (i * burst + j) := by
  simp only [flashAddr, burstAddress, BitVec.toNat_setWidth, BitVec.toNat_add, BitVec.toNat_ofNat, flashSize]
  omega

/-- The cycle of a burst of 1 to 64 bytes latches that count (R129). -/
theorem latched_burst_count {x : Transfer} {u : State} {i : Nat} (hcfg : u.cfg.wellFormed = true) (hk : x.kind ≠ .erase)
    (h1 : 1 ≤ x.size i) (h64 : x.size i ≤ 64) : (latched (x.command i) u).count = x.size i := by
  have hdbc : (x.command i).dbc.toNat = x.size i - 1 := dbcOf_toNat h64
  rw [latched_count hcfg hk (by omega), hdbc, Nat.sub_add_cancel h1]

theorem Transfer.size_bounds {x : Transfer} (hb : 0 < x.burst) {i : Nat} (hi : i < x.cycles) :
    1 ≤ x.size i ∧ x.size i ≤ x.burst := by
  have hlt := Transfer.lt_length hb hi
  exact ⟨Nat.le_min.mpr ⟨hb, by omega⟩, Nat.min_le_left ..⟩

/-! ### Draining the window -/

theorem windowByte_slot (w : Vector Word 16) (i : Nat) {k : Nat} (hk : k < 4) :
    windowByte w (4 * i + k) = (w.get (Fin.ofNat 16 i)).byte k := by
  have hdiv : (4 * i + k) / slotBytes = i := by simp only [slotBytes]; omega
  have hmod : (4 * i + k) % slotBytes = k := by simp only [slotBytes]; omega
  simp only [windowByte, hdiv, hmod]

theorem leBytes_eq_map (v : Word) {n : Nat} (hn : n ≤ 4) : leBytes v n = (List.range n).map v.byte := by
  have hall : [v.byte 0, v.byte 1, v.byte 2, v.byte 3] = (List.range 4).map v.byte := rfl
  rw [leBytes, hall, ← List.map_take, List.take_range, Nat.min_eq_left hn]

/-- The bytes of the slots drained, in order, the last slot cut to what remains (R184, R185). -/
theorem drainSlots_buf (k : Nat) : ∀ (count slot : Nat) (t : State), slot + count = slotCount k →
    (drainSlots k count slot t).eng.buf =
      t.eng.buf ++ (List.range' (4 * slot) (k - 4 * slot)).map (windowByte t.ctl.window)
  | 0, slot, t, h => by
    simp only [slotCount] at h
    rw [show k - 4 * slot = 0 by omega]
    exact (List.append_nil _).symm
  | count + 1, slot, t, h => by
    have hcut : min 4 (k - 4 * slot) ≤ 4 := Nat.min_le_left ..
    have hread : leBytes (t.ctl.window.get (Fin.ofNat 16 slot)) (min 4 (k - 4 * slot)) =
        (List.range' (4 * slot) (min 4 (k - 4 * slot))).map (windowByte t.ctl.window) := by
      rw [leBytes_eq_map _ hcut, List.range'_eq_map_range, List.map_map]
      refine List.map_congr_left fun j hj => (windowByte_slot _ _ ?_).symm
      have := List.mem_range.mp hj
      omega
    have hsplit : List.range' (4 * slot) (k - 4 * slot) =
        List.range' (4 * slot) (min 4 (k - 4 * slot)) ++ List.range' (4 * (slot + 1)) (k - 4 * (slot + 1)) := by
      rcases Nat.le_total 4 (k - 4 * slot) with hfull | hlast
      · rw [Nat.min_eq_left hfull, show 4 * (slot + 1) = 4 * slot + 4 by omega, List.range'_append_1]
        congr 1
        omega
      · rw [Nat.min_eq_right hlast, show k - 4 * (slot + 1) = 0 by omega]
        simp
    rw [hsplit, List.map_append, ← hread, ← List.append_assoc]
    exact drainSlots_buf k count (slot + 1) _ (by omega)

/-! ### A faithful read -/

/-- The first `i` bursts have delivered the flash bytes they cover, and left flash alone. -/
structure Delivered (x : Transfer) (s : State) (i : Nat) (u : State) : Prop where
  idle : u.ctl.inflight = none
  flash : u.env.flash = s.env.flash
  buf : u.eng.buf = (List.range (min x.length (i * x.burst))).map (flashByte s x.address)

theorem readBurstSize_le (length : Nat) : readBurstSize length ≤ 64 := by
  unfold readBurstSize
  split <;> decide

section
variable {x : Transfer} (hkind : x.kind = .read) (hb : 0 < x.burst) (hb64 : x.burst ≤ 64) {s u : State}
  (hcfg : u.cfg.wellFormed = true) {i : Nat} (hi : i < x.cycles) (hd : Faithful u.cycleDraw)
include hkind hcfg

theorem latched_read_kind (i : Nat) : (latched (x.command i) u).kind = some .read := by
  have hadm : kindAdmitted u.cfg (x.command i).kind = true := by rw [Transfer.command, hkind]; rfl
  exact (latched_kind_of_admitted hcfg hadm).trans (congrArg some hkind)

include hb hb64 hi hd

/-- The window after the cycle of burst `i` holds the flash bytes of that burst (R48, R182). -/
theorem windowByte_read_burst (hidle : u.ctl.inflight = none) {j : Nat} (hj : j < x.size i) :
    windowByte (ran (x.command i) u).ctl.window j = flashByte u x.address (i * x.burst + j) := by
  obtain ⟨hsize1, hsize⟩ := Transfer.size_bounds hb hi
  have hcount := latched_burst_count hcfg (by rw [hkind]; decide) hsize1 (hsize.trans hb64)
  rw [ran_window hidle hd.inTime, windowAfter_read (latched_read_kind hkind hcfg i) hd.effect (hcount ▸ hj) (by omega)]
  exact congrArg u.env.flash.get (flashAddr_burst x.address x.burst i j)

theorem readLeft_delivered (hq : Delivered x s i u) : Delivered x s (i + 1) (readLeft x i u) := by
  have hgather := drainSlots_gathers (x.size i) (slotCount (x.size i)) 0 (ran (x.command i) u)
  rw [readLeft, burstLeft_of_success hd.outcome]
  refine ⟨?_, ?_, ?_⟩
  · exact (congrArg Controller.inflight hgather.ctl).trans (ran_inflight hd.inTime _)
  · refine (congrArg Environment.flash hgather.env).trans ((ran_flash hq.idle hd.inTime _).trans ?_)
    rw [flashAfter_reading (.inl (latched_read_kind hkind hcfg i)), hq.flash]
  · have hburst : (List.range' (4 * 0) (x.size i - 4 * 0)).map (windowByte (ran (x.command i) u).ctl.window) =
        (List.range (x.size i)).map fun j => flashByte s x.address (i * x.burst + j) := by
      rw [Nat.mul_zero, Nat.sub_zero, ← List.range_eq_range']
      refine List.map_congr_left fun j hj => ?_
      rw [windowByte_read_burst hkind hb hb64 hcfg hi hd hq.idle (List.mem_range.mp hj), flashByte, hq.flash, flashByte]
    have hlt := Transfer.lt_length hb hi
    have hsum : min x.length ((i + 1) * x.burst) = i * x.burst + x.size i := by
      rw [Nat.succ_mul, Transfer.size]; omega
    have hbuf := drainSlots_buf (x.size i) (slotCount (x.size i)) 0 (ran (x.command i) u) (Nat.zero_add _)
    rw [hburst, (ran_plan _ u).buf, hq.buf, Nat.min_eq_right hlt.le] at hbuf
    rw [hsum, List.range_add, List.map_append, List.map_map]
    exact hbuf

end

/-- `READ` delivers the flash bytes (R184, R185), when its cycles do what R48 says. -/
theorem exec_read_faithful {address length : Word} {s : State} (hcfg : s.cfg.wellFormed = true) (hready : Ready s)
    (hdraws : NextDraws CycleDraw.faithful (readTransfer address length.toNat).cycles s) :
    ∃ t, exec (.read address length) s = .next t ∧
      t.host.result = some (.ok (.bytes ((List.range length.toNat).map (flashByte s address)))) ∧
      t.env.flash = s.env.flash ∧ t.ctl.inflight = none := by
  obtain ⟨t, hrun, -, hq⟩ := exec_read_transfer (address := address) (length := length)
    (Q := Delivered (readTransfer address length.toNat) s) rfl hcfg hready (fun i hi => settles_of_faithful hdraws i (by omega))
    (fun u hctl henv hbuf => ⟨by rw [hctl, hready.1], by rw [henv], by rw [hbuf, Nat.zero_mul, Nat.min_zero]; rfl⟩)
    fun i u hi h hq => readLeft_delivered rfl (readBurstSize_pos _) (readBurstSize_le _) (h.cfg ▸ hcfg) hi
      (h.faithful hdraws hi) hq
  have hall : (readTransfer address length.toNat).length ≤ _ := Transfer.length_le (readBurstSize_pos length.toNat)
  have hbuf := hq.buf
  rw [Nat.min_eq_left hall] at hbuf
  rw [firstError_of_faithful hdraws, hbuf] at hrun
  exact ⟨_, hrun, rfl, hq.flash, hq.idle⟩

/-! ### A faithful write -/

/-- The first `i` bursts have stored the payload bytes they cover. -/
structure Stored (address : Word) (bytes : List Byte) (i : Nat) (u : State) : Prop where
  idle : u.ctl.inflight = none
  flashWf : u.env.flash.wf = true
  stored : ∀ j < bytes.length, j < i * 4 → u.env.flash.get (flashAddr (address.setWidth 27) j) = bytes.getD j 0

/-- Slot 0 as packed holds the bytes of the burst (R189). -/
theorem windowByte_packed (k : Nat) (u : State) {j : Nat} (hj : j < 4) :
    windowByte (packed k u).ctl.window j = (burstBytes u k).getD j 0 := by
  have hslot : (packed k u).ctl.window.get 0 = packLe (burstBytes u k) := Vector.getElem_set_self ..
  have hbyte := windowByte_slot (packed k u).ctl.window 0 hj
  rw [Nat.mul_zero, Nat.zero_add] at hbyte
  rw [hbyte, ← byte_packLe _ _ hj, ← hslot]
  rfl

theorem getD_take_drop (bytes : List Byte) (i : Nat) {j : Nat} (hj : j < 4) :
    ((bytes.drop (4 * i)).take 4).getD j 0 = bytes.getD (i * 4 + j) 0 := by
  simp only [List.getD_eq_getElem?_getD, List.getElem?_take_of_lt hj, List.getElem?_drop, Nat.mul_comm]

section
variable {x : Transfer} {address : Word} {bytes : List Byte} (hx : x = writeTransfer address bytes) {s u : State}
  (hcfg : s.cfg.wellFormed = true) {i : Nat} (hi : i < x.cycles) (h : x.AtBurst s i u) (hd : Faithful u.cycleDraw)
include hx hcfg hi h hd

/-- A burst of a write transfer stores the window bytes it packed (R48, R189). -/
theorem writeLeft_flash (hidle : u.ctl.inflight = none) :
    (writeLeft x i u).env.flash = u.env.flash.putRun ((burstAddress address writeBurst i).setWidth 27)
      (windowByte (packed (x.size i) u).ctl.window) (x.size i) := by
  generalize hp : packed (x.size i) u = p
  have hpcfg : p.cfg.wellFormed = true := by rw [← hp, packed_cfg, h.cfg, hcfg]
  have hpd : Faithful p.cycleDraw := by rw [← hp, packed_cycleDraw]; exact hd
  have hpidle : p.ctl.inflight = none := by rw [← hp]; exact packed_inflight _ u
  have hpflash : p.env.flash = u.env.flash := by rw [← hp, packed, settled_of_idle hidle]; rfl
  rw [writeLeft, hp, burstLeft_of_success hpd.outcome]
  subst hx
  obtain ⟨hsize1, hsize⟩ := Transfer.size_bounds (by decide : 0 < writeBurst) hi
  have hkind : (latched ((writeTransfer address bytes).command i) p).kind = some .write :=
    latched_kind_of_admitted hpcfg rfl
  have hcount := latched_burst_count hpcfg (show CycleKind.write ≠ .erase by decide) hsize1
    (hsize.trans (by decide : writeBurst ≤ 64))
  refine (ran_flash hpidle hpd.inTime _).trans ((flashAfter_write hkind hpd.effect).trans ?_)
  rw [hpflash, hcount]
  rfl

/-- The bytes of this burst are stored, and those of the bursts before it, which it does not meet, stay. -/
theorem writeLeft_stored (hfits : bytes.length ≤ flashSize) (hbuf : u.eng.buf = bytes) (hq : Stored address bytes i u) :
    Stored address bytes (i + 1) (writeLeft x i u) := by
  have hflash := writeLeft_flash hx hcfg hi h hd hq.idle
  have hbytes := burstBytes_eq hx h hbuf
  have hlt : i * 4 < bytes.length := by subst hx; exact Transfer.lt_length (by decide : 0 < writeBurst) hi
  have hsize : x.size i = min 4 (bytes.length - i * 4) := by rw [hx]; rfl
  have haddr (j : Nat) : flashAddr ((burstAddress address writeBurst i).setWidth 27) j =
      flashAddr (address.setWidth 27) (i * 4 + j) := flashAddr_burst ..
  obtain ⟨hnew, hold⟩ := get_putRun ((burstAddress address writeBurst i).setWidth 27)
    (windowByte (packed (x.size i) u).ctl.window) hq.flashWf (n := x.size i) (by omega)
  refine ⟨?_, ?_, fun j hj hji => ?_⟩
  · have hpd : Faithful (packed (x.size i) u).cycleDraw := by rw [packed_cycleDraw]; exact hd
    rw [writeLeft, burstLeft_of_success hpd.outcome]
    exact ran_inflight hpd.inTime _
  · rw [hflash]
    exact wf_putRun _ _ hq.flashWf _
  · rw [hflash]
    by_cases hearlier : j < i * 4
    · rw [hold _ fun o ho hmeet => ?_]
      · exact hq.stored j hj hearlier
      · have := flashAddr_injective (by omega) (by omega) (hmeet.trans (haddr o))
        omega
    · obtain ⟨o, rfl⟩ := Nat.exists_eq_add_of_le (not_lt.mp hearlier)
      rw [← haddr, hnew o (by omega), windowByte_packed _ u (by omega), hbytes, getD_take_drop _ _ (by omega)]

end

/-- `WRITE` stores its payload, when its cycles do what R48 says, and leaves the machine ready for the next operation, with
the draws it did not use. -/
theorem exec_write_faithful {address : Word} {bytes : List Byte} {s : State} (hcfg : s.cfg.wellFormed = true)
    (hready : Ready s) (hwf : s.env.flash.wf = true) (hfits : bytes.length ≤ flashSize)
    (hdraws : NextDraws CycleDraw.faithful (writeTransfer address bytes).cycles s) :
    ∃ t, exec (.write address bytes) s = .next t ∧ t.host.result = some (.ok .nothing) ∧
      (∀ j < bytes.length, t.env.flash.get (flashAddr (address.setWidth 27) j) = bytes.getD j 0) ∧
      t.cfg = s.cfg ∧ Ready t ∧ ∀ j, t.nthDraw j = s.nthDraw ((writeTransfer address bytes).cycles + j) := by
  obtain ⟨t, hrun, ht, hq⟩ := exec_write_transfer (address := address) (bytes := bytes) (Q := Stored address bytes) rfl
    hcfg hready (fun i hi => settles_of_faithful hdraws i (by omega))
    (fun u hctl henv => ⟨by rw [hctl, hready.1], by rw [henv, hwf], fun j _ hj => by omega⟩)
    fun i u hi h hbuf hq => writeLeft_stored rfl hcfg hi h (h.faithful hdraws hi) hfits hbuf hq
  have hall : bytes.length ≤ _ := Transfer.length_le (x := writeTransfer address bytes) (by decide : 0 < writeBurst)
  have hreadyt : Ready t := by
    rcases ht.canIssue (settles_of_faithful hdraws) with ⟨hsession, -⟩ | hready
    · exact ⟨hq.idle, by simp [hsession], by simp [hsession]⟩
    · exact hready
  rw [firstError_of_faithful hdraws] at hrun
  exact ⟨_, hrun, rfl, fun j hj => hq.stored j hj (lt_of_lt_of_le hj hall), ht.cfg, hreadyt, ht.draws⟩

/-! ### The round trip -/

theorem map_getD_range (bytes : List Byte) : (List.range bytes.length).map (fun j => bytes.getD j 0) = bytes :=
  List.ext_getElem (by simp) fun j hj _ => by
    have hj : j < bytes.length := by simpa using hj
    simp [hj]

/-- Settles O37: `WRITE` has stored the payload (`exec_write_faithful`), and `READ` delivers what flash then holds
(`exec_read_faithful`). -/
theorem roundTrip : Obligations.RoundTrip := by
  intro address bytes s hcfg hready hwf hfits hdraws
  have hlength : (BitVec.ofNat 32 bytes.length : Word).toNat = bytes.length := by
    simp only [flashSize] at hfits
    exact (BitVec.toNat_ofNat ..).trans (Nat.mod_eq_of_lt (by omega))
  obtain ⟨t, hwrite, -, hstored, htcfg, htready, htdraws⟩ := exec_write_faithful hcfg hready hwf hfits
    (fun i hi => hdraws i (Nat.lt_add_right _ hi))
  have hreadDraws : NextDraws CycleDraw.faithful
      (readTransfer address (BitVec.ofNat 32 bytes.length : Word).toNat).cycles t := by
    rw [hlength]
    exact fun i hi => htdraws i ▸ hdraws _ (Nat.add_lt_add_left hi _)
  obtain ⟨u, hread, hresult, -⟩ := exec_read_faithful (htcfg ▸ hcfg) htready hreadDraws
  refine ⟨t, u, hwrite, hread, ?_⟩
  have hbytes : (List.range bytes.length).map (flashByte t address) = bytes :=
    (List.map_congr_left fun j hj => hstored j (List.mem_range.mp hj)).trans (map_getD_range bytes)
  rw [hresult, hlength, hbytes]

end Sys2Proof.Proofs
end

section
/-! PROOFS. 42_identity_sfdp.md section 1: `READ_JEDEC_ID` is the JedecId cycle of R212 followed by the one read of slot 0, which a
failed cycle leaves out (R215). The cycle is the one `afterCycle` describes, before its outcome is delivered. -/

namespace Sys2Proof.Proofs

open Sys2Proof.Machine Sys2Proof.Laws

/-- The cycle of `READ_JEDEC_ID` (R212). -/
def jedecCommand : CycleCommand := ⟨.jedecId, 0, 3⟩

/-- A presented cycle is the cycle as an operation runs it, with its outcome delivered. -/
theorem afterCycle_eq_deliver_ran (c : CycleCommand) (s : State) :
    afterCycle c s = deliver (unitOutcome s.cycleDraw.outcome) (ran c (beginOp s)) := rfl

/-- `READ_JEDEC_ID` on a machine that can issue its cycle, whatever the cycle draws (R212, R215). -/
theorem exec_readJedecId_ready {s : State} (hcfg : s.cfg.wellFormed = true) (hfield : s.cfg.hasCycleTypeField = true)
    (hready : Ready s) :
    exec .readJedecId s = .next (endOp (jedecTail (s.cycleDraw.outcome, ran jedecCommand (beginOp s)))) := by
  have hcycle : executeCycle jedecCommand (beginOp s) = .ok (s.cycleDraw.outcome, ran jedecCommand (beginOp s)) :=
    executeCycle_ran (s := beginOp s) hcfg (.inr hready) jedecCommand
  have hcommand : (⟨.jedecId, 0, dbcOf jedecByteCount⟩ : CycleCommand) = jedecCommand := rfl
  show finish (readJedecOp (beginOp s)) = _
  rw [readJedecOp, beginOp_cfg, if_pos hfield, hcommand, hcycle]
  rfl

/-- Settles O41: the capability test comes before the cycle, so what is left is acceptance and delivery. -/
theorem jedecUnsupported : Obligations.JedecUnsupported := by
  intro s hfield
  have hop : readJedecOp (beginOp s) = .ok (.error .unsupportedJedecCycle, beginOp s) := by
    rw [readJedecOp, if_neg (by simp [hfield])]
  exact ⟨_, congrArg finish hop, rfl, rfl, ⟨rfl, rfl, rfl, rfl, rfl, rfl, rfl, rfl⟩, rfl, rfl, rfl⟩

/-! ### The identity of a raw dword -/

theorem toNat_byte (v : Word) (k : Nat) : (v.byte k).toNat = v.toNat / 2 ^ (8 * k) % 2 ^ 8 := by
  rw [Word.byte, BitVec.toNat_setWidth, BitVec.toNat_ushiftRight, Nat.shiftRight_eq_div_pow]

theorem jedecIdOf_manufacturerCode (raw : Word) : (jedecIdOf raw).manufacturerCode.toNat = raw.toNat % 2 ^ 8 :=
  (toNat_byte raw 0).trans (by simp)

/-- Byte 1 is the high byte of the device code, byte 2 the low one (R213). -/
theorem jedecIdOf_deviceCode (raw : Word) :
    (jedecIdOf raw).deviceCode.toNat = raw.toNat / 2 ^ 8 % 2 ^ 8 * 2 ^ 8 + raw.toNat / 2 ^ 16 % 2 ^ 8 := by
  have happend : (jedecIdOf raw).deviceCode.toNat = (raw.byte 1).toNat * 2 ^ 8 + (raw.byte 2).toNat := by
    refine (BitVec.toNat_append (raw.byte 1) (raw.byte 2)).trans ?_
    rw [← Nat.shiftLeft_add_eq_or_of_lt (raw.byte 2).isLt, Nat.shiftLeft_eq]
  rw [happend, toNat_byte, toNat_byte]

/-- Settles O42: the cycle leaves the identity in slot 0 (`jedecCycleFillsSlot`), and the one access after it reads the slot. -/
theorem jedecIdentity : Obligations.JedecIdentity := by
  intro s hcfg hfield hready hfaithful
  have hd := faithful_of_draw hfaithful
  have hrun := exec_readJedecId_ready hcfg hfield hready
  rw [hd.outcome] at hrun
  obtain ⟨t, ht, -, hslot, hflash, hidle⟩ := jedecCycleFillsSlot 0 s hcfg hfield hready hd.inTime hd.effect
  obtain rfl : afterCycle jedecCommand s = t := by
    have hcycle := exec_cycle_ready (k := .jedecId) (dbc := 3) hcfg hready ⟨hfield, by decide⟩ 0
    exact Host.Outcome.next.inj (hcycle.symm.trans ht)
  have htrace := afterCycle_trace hready.1 jedecCommand
  rw [afterCycle_eq_deliver_ran] at hslot hflash hidle htrace
  have hread : regRead (.data 0) (ran jedecCommand (beginOp s)) =
      (s.env.jedecRaw, (ran jedecCommand (beginOp s)).log (.read (.data 0) s.env.jedecRaw)) := hslot ▸ rfl
  have hend : endOp (jedecTail (none, ran jedecCommand (beginOp s))) = deliver (.ok (.jedec (jedecIdOf s.env.jedecRaw)))
      ((ran jedecCommand (beginOp s)).log (.read (.data 0) s.env.jedecRaw)) := by
    simp only [jedecTail, hread, endOp]
  rw [hend] at hrun
  refine ⟨_, _, hrun, rfl, jedecIdOf_manufacturerCode _, jedecIdOf_deviceCode _, ?_, hflash, hidle⟩
  have hcycle : (ran jedecCommand (beginOp s)).host.trace = _ := htrace
  rw [deliver_trace, log_trace, hcycle, ← List.append_assoc]
  rfl

/-! ### A failed cycle -/

/-- The only register these accesses read is the status register. -/
def ReadsOnlyStatus (l : List Event) : Prop := ∀ r v, Event.read r v ∈ l → r = .sts

theorem ReadsOnlyStatus.append {l l' : List Event} (h : ReadsOnlyStatus l) (h' : ReadsOnlyStatus l') :
    ReadsOnlyStatus (l ++ l') :=
  fun r v hmem => (List.mem_append.mp hmem).elim (h r v) (h' r v)

theorem readsOnlyStatus_replicate (v : Word) (n : Nat) : ReadsOnlyStatus (List.replicate n (.read .sts v)) :=
  fun _ _ hmem => (Event.read.inj (List.eq_of_mem_replicate hmem)).1

theorem readsOnlyStatus_check (s : State) : ReadsOnlyStatus (checkTrace s) := by
  unfold checkTrace
  split <;> simp [ReadsOnlyStatus]

theorem readsOnlyStatus_issue (cfg : Config) (k : CycleKind) (fla : Word) (dbc : Byte) :
    ReadsOnlyStatus (issueTrace cfg k fla dbc) := by
  unfold issueTrace
  split <;> simp [ReadsOnlyStatus]

theorem readsOnlyStatus_vain (s : State) : ReadsOnlyStatus (vainTrace s) :=
  (readsOnlyStatus_replicate _ _).append (by simp [ReadsOnlyStatus])

theorem readsOnlyStatus_end (s : State) (d : CycleDraw) : ReadsOnlyStatus (endTrace s d) := by
  unfold endTrace clearEvent
  split <;> simp +contextual [ReadsOnlyStatus, ← and_or_left]

/-- Steps 4 and 5, by when the cycle ends (R155 to R158). -/
theorem readsOnlyStatus_poll (s : State) (d : CycleDraw) : ReadsOnlyStatus (pollTrace s d) := by
  cases hin : d.inTime with
  | false =>
    rw [pollTrace_timeout s hin]
    exact (readsOnlyStatus_vain s).append (readsOnlyStatus_replicate _ 1)
  | true =>
    obtain ⟨j, hj, hle⟩ := (inTime_iff d).mp hin
    rcases Nat.lt_or_eq_of_le hle with hlt | rfl
    · rw [pollTrace_loop s hj hlt]
      exact (readsOnlyStatus_replicate _ j).append (readsOnlyStatus_end s d)
    · rw [pollTrace_late s hj]
      exact (readsOnlyStatus_vain s).append (readsOnlyStatus_end s d)

/-- A cycle reads no register but the status register, whatever it draws. -/
theorem readsOnlyStatus_afterCycle {s : State} (hidle : s.ctl.inflight = none) (c : CycleCommand) :
    ReadsOnlyStatus (afterCycle c s).host.trace := by
  rw [afterCycle_trace hidle]
  exact (readsOnlyStatus_check s).append ((readsOnlyStatus_issue _ _ _ _).append (readsOnlyStatus_poll _ _))

/-- Settles O43: the operation ends with the cycle, whose accesses read only the status register. -/
theorem jedecCycleFails : Obligations.JedecCycleFails := by
  intro s e hcfg hfield hready hout
  have hrun := exec_readJedecId_ready hcfg hfield hready
  rw [hout] at hrun
  refine ⟨_, hrun, rfl, fun v hmem => ?_⟩
  have hcycle : Event.read (.data 0) v ∈ (afterCycle jedecCommand s).host.trace := hmem
  cases readsOnlyStatus_afterCycle hready.1 jedecCommand _ _ hcycle

end Sys2Proof.Proofs
end

section
/-! PROOFS. 42_identity_sfdp.md section 2, the walk of `DISCOVER_SFDP` as far as it needs no Sfdp cycle: `IndexReads` says what a
sequence of indexed reads leaves (R218), and each part of the walk is told by the indices it reads. -/

namespace Sys2Proof.Proofs

open Sys2Proof.Machine Sys2Proof.Laws

/-! ### Sequences of indexed reads -/

theorem ptReads_append (s : State) (is js : List Word) : ptReads s (is ++ js) = ptReads s is ++ ptReads s js :=
  List.flatMap_append

/-- From `s` to `t` the engine has made exactly the indexed reads `is`, and nothing else has changed but latches of the walk. -/
structure IndexReads (s : State) (is : List Word) (t : State) : Prop where
  cfg : t.cfg = s.cfg
  env : t.env = s.env
  ctl : t.ctl = { s.ctl with ptidx := is.getLastD s.ctl.ptidx }
  session : t.eng.session = s.eng.session
  trace : t.host.trace = s.host.trace ++ ptReads s is

section
variable {s t u : State} {is js : List Word}

theorem IndexReads.refl (s : State) : IndexReads s [] s := ⟨rfl, rfl, rfl, rfl, (List.append_nil _).symm⟩

theorem IndexReads.trans (h : IndexReads s is t) (h' : IndexReads t js u) : IndexReads s (is ++ js) u where
  cfg := h'.cfg.trans h.cfg
  env := h'.env.trans h.env
  ctl := by simp only [h'.ctl, h.ctl, List.getLastD_eq_getLast?, List.getLast?_append, Option.getD_or]
  session := h'.session.trans h.session
  trace := by
    have hreads : ptReads t js = ptReads s js := by rw [ptReads, h.env, ptReads]
    rw [h'.trace, h.trace, hreads, ptReads_append, List.append_assoc]

/-- One indexed read (R218). -/
theorem indexReads_ptRead (v : Word) (s : State) : IndexReads s [v] (ptRead v s).2 :=
  ⟨rfl, rfl, rfl, rfl, List.append_assoc ..⟩

end

/-! ### The indices of a component -/

/-- The three indices read before the headers: signature, version, first header (R219 to R221). -/
theorem head_indices {c : Nat} (hc : c < numSfdpComponents) :
    sfdpBase c = sfdpIndexOf c 0 ∧ sfdpBase c + sfdpVersionOff = sfdpIndexOf c 4 ∧
      sfdpBase c ||| sfdpPhSection = sfdpIndexOf c 0x1000 := by
  simp only [numSfdpComponents] at hc
  interval_cases c <;> exact ⟨rfl, rfl, rfl⟩

/-- The index of table dword `k` (R226). -/
theorem table_index {c : Nat} (hc : c < numSfdpComponents) (k : Nat) :
    (sfdpBase c ||| sfdpPtSection) + BitVec.ofNat 32 (sfdpIndexStep * k) = sfdpIndexOf c (0x2000 + 4 * k) := by
  have hbase : sfdpBase c ||| sfdpPtSection = BitVec.ofNat 32 (0x4000 * c + 0x2000) := by
    simp only [numSfdpComponents] at hc
    interval_cases c <;> rfl
  rw [hbase, ← BitVec.ofNat_add, Nat.add_assoc]
  rfl

/-- An indexed read of a component's area returns the dword there (R43, R218). -/
theorem ptRead_sfdpIndexOf {c off : Nat} (hc : c < numSfdpComponents) (hoff : off < 0x4000) (s : State) :
    (ptRead (sfdpIndexOf c off) s).1 = sfdpWord s c off := by
  have hindex : (sfdpIndexOf c off).toNat = 0x4000 * c + off := by
    simp only [numSfdpComponents] at hc
    rw [sfdpIndexOf, BitVec.toNat_ofNat, Nat.mod_eq_of_lt (by omega)]
  exact congrArg s.env.sfdpIndex.dword hindex

theorem IndexReads.sfdpWord_eq {s t : State} {is : List Word} (h : IndexReads s is t) (c off : Nat) :
    sfdpWord t c off = sfdpWord s c off := by rw [sfdpWord, h.env, sfdpWord]

/-! ### The parts of the walk -/

/-- The table dump reads the table's dwords in order (R226). -/
theorem readTable_eq {c : Nat} (hc : c < numSfdpComponents) : ∀ (count k : Nat) (acc : List Word) (s : State),
    k + count ≤ 256 → ∃ t,
      readTable (sfdpBase c) count k acc s =
          (acc ++ (List.range' k count).map fun i => sfdpWord s c (0x2000 + 4 * i), t) ∧
        IndexReads s ((List.range' k count).map fun i => sfdpIndexOf c (0x2000 + 4 * i)) t
  | 0, _, acc, s, _ => ⟨s, by simp [readTable], .refl s⟩
  | count + 1, k, acc, s, hfits => by
    have hread : IndexReads s [sfdpIndexOf c (0x2000 + 4 * k)] (ptRead (sfdpIndexOf c (0x2000 + 4 * k)) s).2 :=
      indexReads_ptRead _ s
    obtain ⟨t, heq, hrest⟩ := readTable_eq hc count (k + 1) (acc ++ [sfdpWord s c (0x2000 + 4 * k)])
      (ptRead (sfdpIndexOf c (0x2000 + 4 * k)) s).2 (by omega)
    refine ⟨t, ?_, hread.trans hrest⟩
    simp only [readTable, table_index hc, ptRead_sfdpIndexOf hc (show 0x2000 + 4 * k < 0x4000 by omega), heq,
      hread.sfdpWord_eq]
    rw [List.range'_succ, List.map_cons, List.append_assoc]
    rfl

/-- The first header of a component, from its dword in the index space (R221). -/
def sfdpFirst (s : State) (c : Nat) : SfdpParameterHeader := firstHeader s.cfg.sfdpPh (sfdpWord s c 0x1000)

theorem sfdpFirst_length (s : State) (c : Nat) : (sfdpFirst s c).lengthDwords.toNat = sfdpTableLength s c :=
  BitVec.toNat_setWidth ..

/-- The record of a found component is what its version dword, its headers and its table say (R227). -/
theorem finishComponent_ok {c : Nat} (hc : c < numSfdpComponents) {s u : State} (henv : u.env = s.env)
    (further : List SfdpParameterHeader) : ∃ t,
      finishComponent (sfdpBase c) (sfdpWord s c 4) (sfdpHeaders s c) (sfdpFirst s c).lengthDwords
          (.ok (sfdpFirst s c :: further), u) = (.ok (some (sfdpRecord s c further)), t) ∧
        IndexReads u (sfdpTableReads s c) t := by
  have hlt : sfdpTableLength s c < 256 := Nat.mod_lt _ (by decide)
  obtain ⟨t, heq, hreads⟩ := readTable_eq hc (sfdpTableLength s c) 0 [] u (by omega)
  rw [← List.range_eq_range'] at heq hreads
  have hword (off : Nat) : sfdpWord u c off = sfdpWord s c off := by rw [sfdpWord, henv, sfdpWord]
  refine ⟨t, ?_, hreads⟩
  simp only [finishComponent, sfdpFirst_length, heq, hword, List.nil_append]
  rfl

/-- A component is begun by latching its number and reading its base (R217, R219). -/
theorem indexReads_component (c : Nat) (s : State) :
    IndexReads s [sfdpIndexOf c 0] (ptRead (sfdpIndexOf c 0) (s.modEng fun e => { e with component := c })).2 :=
  ⟨rfl, rfl, rfl, rfl, List.append_assoc ..⟩

/-- A component without the signature costs one indexed read (R219). -/
theorem discoverComponent_absent {c : Nat} (hc : c < numSfdpComponents) {s : State} (h : ¬ SfdpFound s c) :
    ∃ t, discoverComponent c s = .ok (.ok none, t) ∧ IndexReads s [sfdpIndexOf c 0] t := by
  have hword : (ptRead (sfdpIndexOf c 0) (s.modEng fun e => { e with component := c })).1 = sfdpWord s c 0 :=
    ptRead_sfdpIndexOf hc (by decide) _
  refine ⟨_, ?_, indexReads_component c s⟩
  obtain ⟨hbase, -, -⟩ := head_indices hc
  simp only [discoverComponent, hbase, hword]
  exact if_pos h

/-- A component with the signature: its headers are read after three indexed reads (R219 to R221), and its table after them. -/
theorem discoverComponent_found {c : Nat} (hc : c < numSfdpComponents) {s : State} (h : SfdpFound s c) :
    ∃ u, IndexReads s (sfdpHeadReads c) u ∧
      discoverComponent c s = (allHeaders (sfdpHeaders s c) (sfdpFirst s c) u).map
        (finishComponent (sfdpBase c) (sfdpWord s c 4) (sfdpHeaders s c) (sfdpFirst s c).lengthDwords) := by
  generalize hp : ptRead (sfdpIndexOf c 0) (s.modEng fun e => { e with component := c }) = p
  generalize hv : ptRead (sfdpIndexOf c 4) p.2 = v
  generalize hd : ptRead (sfdpIndexOf c 0x1000) v.2 = d
  have hp2 : IndexReads s [sfdpIndexOf c 0] p.2 := hp ▸ indexReads_component c s
  have hv2 : IndexReads s [sfdpIndexOf c 0, sfdpIndexOf c 4] v.2 := hv ▸ hp2.trans (indexReads_ptRead _ _)
  have hd2 : IndexReads s (sfdpHeadReads c) d.2 := hd ▸ hv2.trans (indexReads_ptRead _ _)
  have hp1 : p.1 = sfdpSignature := hp ▸ (ptRead_sfdpIndexOf hc (by decide) _).trans h
  have hv1 : v.1 = sfdpWord s c 4 := hv ▸ (ptRead_sfdpIndexOf hc (by decide) _).trans (hp2.sfdpWord_eq c 4)
  have hd1 : d.1 = sfdpWord s c 0x1000 := hd ▸ (ptRead_sfdpIndexOf hc (by decide) _).trans (hv2.sfdpWord_eq c 0x1000)
  refine ⟨d.2, hd2, ?_⟩
  obtain ⟨hbase, hversion, hheader⟩ := head_indices hc
  simp only [discoverComponent, hversion, hheader]
  simp only [hbase, hp, hv, hd, hv1, hd1]
  exact if_neg (not_not.mpr hp1)

/-- Without a further header, or without the cycle-type field, no Sfdp cycle is issued (R222). -/
theorem allHeaders_of_no_cycle {nph : Nat} {s : State} (h : nph = 1 ∨ s.cfg.hasCycleTypeField = false)
    (first : SfdpParameterHeader) : allHeaders nph first s = .ok (.ok [first], s) := by
  refine if_neg ?_
  rintro ⟨hmany, hfield⟩
  rcases h with rfl | hno
  · exact absurd hmany (Nat.lt_irrefl 1)
  · exact Bool.noConfusion (hno.symm.trans hfield)

/-- A component that needs no Sfdp cycle, found or not (R219 to R227). -/
theorem discoverComponent_of_no_cycle {c : Nat} (hc : c < numSfdpComponents) {s : State}
    (h : SfdpFound s c → sfdpHeaders s c = 1 ∨ s.cfg.hasCycleTypeField = false) :
    ∃ t, discoverComponent c s = .ok (.ok (sfdpEntry s c), t) ∧ IndexReads s (sfdpReads s c) t := by
  by_cases hfound : SfdpFound s c
  · obtain ⟨u, hhead, heq⟩ := discoverComponent_found hc hfound
    obtain ⟨t, hrecord, htable⟩ := finishComponent_ok hc hhead.env []
    refine ⟨t, ?_, ?_⟩
    · rw [heq, allHeaders_of_no_cycle (hhead.cfg.symm ▸ h hfound), sfdpEntry, if_pos hfound]
      exact congrArg Except.ok hrecord
    · rw [sfdpReads, if_pos hfound]
      exact hhead.trans htable
  · rw [sfdpEntry, if_neg hfound, sfdpReads, if_neg hfound]
    exact discoverComponent_absent hc hfound

/-- The walk goes on behind a component that raised no error (R217). -/
theorem discoverFrom_of_ok {c : Nat} {s t : State} {r : Option SfdpComponent}
    (h : discoverComponent c s = .ok (.ok r, t)) (count : Nat) (out : List (Nat × Option SfdpComponent)) :
    discoverFrom (count + 1) c out s = discoverFrom count (c + 1) (out ++ [(c, r)]) t := by
  simp only [discoverFrom, h]

/-! ### The statements -/

/-- What the walk looks at is the index space and the layout, which indexed reads keep. -/
theorem sfdp_congr {s t : State} (henv : t.env = s.env) (hcfg : t.cfg = s.cfg) (c : Nat) :
    (SfdpFound t c ↔ SfdpFound s c) ∧ sfdpHeaders t c = sfdpHeaders s c ∧ sfdpEntry t c = sfdpEntry s c ∧
      sfdpReads t c = sfdpReads s c := by
  cases s
  cases t
  subst henv hcfg
  exact ⟨Iff.rfl, rfl, rfl, rfl⟩

theorem sfdpReads_ne_nil (s : State) (c : Nat) : sfdpReads s c ≠ [] := by
  unfold sfdpReads
  split <;> simp [sfdpHeadReads]

/-- Settles O45: each component in turn is described by `discoverComponent_of_no_cycle`. -/
theorem sfdpFoundWithoutCycle : Obligations.SfdpFoundWithoutCycle := by
  intro s h
  obtain ⟨t, hfirst, ht⟩ := discoverComponent_of_no_cycle (c := 0) (s := beginOp s) (by decide) (h 0 (by decide))
  obtain ⟨hfound, hheaders, hentry, hreads⟩ := sfdp_congr (s := s) (t := t) ht.env ht.cfg 1
  obtain ⟨u, hsecond, hu⟩ := discoverComponent_of_no_cycle (c := 1) (s := t) (by decide)
    (by rw [hfound, hheaders, ht.cfg]; exact h 1 (by decide))
  rw [hentry] at hsecond
  rw [hreads] at hu
  have hwalk : discoverFrom numSfdpComponents 0 [] (beginOp s) =
      .ok (.ok (.sfdp [(0, sfdpEntry s 0), (1, sfdpEntry s 1)]), u) :=
    (discoverFrom_of_ok hfirst 1 []).trans (discoverFrom_of_ok hsecond 0 _)
  have hall : IndexReads (beginOp s) (sfdpReads s 0 ++ sfdpReads s 1) u := ht.trans hu
  refine ⟨_, congrArg finish hwalk, rfl, hall.trace, hall.ctl.trans ?_, hall.env, hall.session⟩
  have hlast := List.getLast?_eq_some_getLast (sfdpReads_ne_nil s 1)
  simp [List.getLastD_eq_getLast?, List.getLast?_append, hlast]

/-- Settles O44: the case of O45 in which neither component is found. -/
theorem sfdpBothAbsent : Obligations.SfdpBothAbsent := by
  intro s h0 h1
  have hentry (c : Nat) (h : ¬ SfdpFound s c) : sfdpEntry s c = none ∧ sfdpReads s c = [sfdpIndexOf c 0] :=
    ⟨if_neg h, if_neg h⟩
  have habsent : ∀ c < 2, ¬ SfdpFound s c
    | 0, _ => h0
    | 1, _ => h1
  obtain ⟨hentry0, hreads0⟩ := hentry 0 (habsent 0 (by decide))
  obtain ⟨hentry1, hreads1⟩ := hentry 1 (habsent 1 (by decide))
  have hwalk := sfdpFoundWithoutCycle s fun c hc hfound => absurd hfound (habsent c hc)
  rw [hentry0, hentry1, hreads0, hreads1] at hwalk
  exact hwalk

end Sys2Proof.Proofs
end

section
/-! PROOFS. 43_descriptor_parser.md: `PARSE` touches nothing, the signature search finds the first signature, and a located
descriptor is read as the dwords `descriptorWord` gives, each section as a whole or not at all. -/

namespace Sys2Proof.Proofs

open Sys2Proof.Machine Sys2Proof.Laws

/-- Settles O48: the result is computed before any access, so what is left is acceptance and delivery. -/
theorem parseIsPure : Obligations.ParseIsPure := by
  intro image s
  have hexec : exec (.parse image) s = .next (endOp ((parseImage s.cfg image).map .descriptor, beginOp s)) := rfl
  rw [endOp_eq] at hexec
  refine ⟨_, hexec, rfl, ⟨⟨rfl, rfl, rfl, rfl, rfl, rfl, rfl, rfl⟩, rfl, rfl, rfl⟩, congrArg some ?_⟩
  show toResult ((parseImage s.cfg image).map .descriptor) = _
  cases parseImage s.cfg image <;> rfl

/-! ### The dwords of an image -/

theorem imageDword_of_fits {image : List Byte} {D off : Nat} (h : D + off + 4 ≤ image.length) :
    imageDword image (D + off) = some (descriptorWord image D off) := by
  have hdrop : image.drop (D + off) = image[D + off] :: image[D + off + 1] :: image[D + off + 2] :: image[D + off + 3] ::
      image.drop (D + off + 4) := by simp only [List.getElem_cons_drop]
  rw [imageDword, hdrop]
  simp only [descriptorWord, List.getD_eq_getElem?_getD, List.getElem?_eq_getElem (show D + off < image.length by omega),
    List.getElem?_eq_getElem (show D + off + 1 < image.length by omega),
    List.getElem?_eq_getElem (show D + off + 2 < image.length by omega),
    List.getElem?_eq_getElem (show D + off + 3 < image.length by omega), Option.getD_some]

/-- The bytes of the descriptor signature stand at offset `p` (R252). -/
def SignatureAt (image : List Byte) (p : Nat) : Prop := (image.drop p).take 4 = [0x5A, 0xA5, 0xF0, 0x0F]

theorem SignatureAt.fits {image : List Byte} {p : Nat} (h : SignatureAt image p) : p + 4 ≤ image.length := by
  have hlen := congrArg List.length h
  simp only [List.length_take, List.length_drop, List.length_cons, List.length_nil] at hlen
  omega

/-- Four bytes make the signature's dword iff they are its bytes, little-endian (R71). -/
theorem ofBytes_eq_fdSignature_iff {b0 b1 b2 b3 : Byte} :
    Word.ofBytes b0 b1 b2 b3 = fdSignature ↔ [b0, b1, b2, b3] = [0x5A, 0xA5, 0xF0, 0x0F] := by
  constructor
  · intro h
    have h0 := congrArg (Word.byte · 0) h
    have h1 := congrArg (Word.byte · 1) h
    have h2 := congrArg (Word.byte · 2) h
    have h3 := congrArg (Word.byte · 3) h
    simp only [byte_ofBytes_zero, byte_ofBytes_one, byte_ofBytes_two, byte_ofBytes_three] at h0 h1 h2 h3
    subst h0 h1 h2 h3
    decide
  · rintro ⟨⟩
    decide

theorem imageDword_eq_fdSignature_iff {image : List Byte} {p : Nat} :
    imageDword image p = some fdSignature ↔ SignatureAt image p := by
  unfold imageDword SignatureAt
  rcases image.drop p with _ | ⟨b0, _ | ⟨b1, _ | ⟨b2, _ | ⟨b3, rest⟩⟩⟩⟩
  case cons.cons.cons.cons => simpa using ofBytes_eq_fdSignature_iff
  all_goals simp

/-! ### The signature search -/

/-- The first occurrence of the signature is at offset `p` (R252). -/
def FirstSignature (image : List Byte) (p : Nat) : Prop := SignatureAt image p ∧ ∀ q < p, ¬ SignatureAt image q

theorem FirstSignature.unique {image : List Byte} {p q : Nat} (hp : FirstSignature image p) (hq : FirstSignature image q) :
    p = q := by
  rcases Nat.lt_trichotomy p q with hlt | heq | hgt
  · exact absurd hp.1 (hq.2 p hlt)
  · exact heq
  · exact absurd hq.1 (hp.2 q hgt)

/-- What the search answers, over the tail of an image that starts at offset `p`. -/
theorem findSignature_cases (image : List Byte) : ∀ p,
    (∃ k, findSignature p image = some (p + k) ∧ FirstSignature image k) ∨
      findSignature p image = none ∧ ∀ q, ¬ SignatureAt image q := by
  induction image with
  | nil => exact fun p => .inr ⟨rfl, fun q hq => absurd hq.fits (by simp)⟩
  | cons b rest ih =>
    intro p
    by_cases hhere : SignatureAt (b :: rest) 0
    · exact .inl ⟨0, if_pos (imageDword_eq_fdSignature_iff.mpr hhere), hhere, by simp⟩
    · have hskip : findSignature p (b :: rest) = findSignature (p + 1) rest :=
        if_neg (mt imageDword_eq_fdSignature_iff.mp hhere)
      rw [hskip]
      rcases ih (p + 1) with ⟨k, hfound, hat, hfirst⟩ | ⟨hnone, hno⟩
      · refine .inl ⟨k + 1, by rw [hfound, Nat.add_right_comm, Nat.add_assoc], hat, ?_⟩
        rintro (_ | q) hq
        · exact hhere
        · exact hfirst q (Nat.lt_of_succ_lt_succ hq)
      · refine .inr ⟨hnone, ?_⟩
        rintro (_ | q)
        · exact hhere
        · exact hno q

theorem findSignature_eq_some_iff {image : List Byte} {p : Nat} :
    findSignature 0 image = some p ↔ FirstSignature image p := by
  rcases findSignature_cases image 0 with ⟨k, hfound, hk⟩ | ⟨hnone, hno⟩
  · rw [hfound, Nat.zero_add, Option.some_inj]
    exact ⟨fun h => h ▸ hk, hk.unique⟩
  · rw [hnone]
    exact ⟨nofun, fun h => absurd h.1 (hno p)⟩

theorem findSignature_eq_none_iff {image : List Byte} : findSignature 0 image = none ↔ ∀ q, ¬ SignatureAt image q := by
  rcases findSignature_cases image 0 with ⟨k, hfound, hk⟩ | ⟨hnone, hno⟩
  · rw [hfound]
    exact ⟨nofun, fun h => absurd hk.1 (h k)⟩
  · exact ⟨fun _ => hno, fun _ => hnone⟩

/-! ### The base of the descriptor -/

theorem parseImage_of_no_signature {image : List Byte} (h : findSignature 0 image = none) (cfg : Config) :
    parseImage cfg image = .error .signatureNotFound := by rw [parseImage, descriptorBase, h]; rfl

/-- The three outcomes of a found signature (R253, R254). -/
theorem descriptorBase_of_signature {image : List Byte} {p : Nat} (h : findSignature 0 image = some p) :
    descriptorBase image =
      if p < 0x10 then .error .signatureNotFound
      else if image.length < p - 0x10 + 4096 then .error .truncatedImage else .ok (p - 0x10) := by
  rw [descriptorBase, h]; rfl

theorem descriptorBase_eq_ok_iff {image : List Byte} {D : Nat} :
    descriptorBase image = .ok D ↔ findSignature 0 image = some (D + 0x10) ∧ D + 4096 ≤ image.length := by
  cases hfind : findSignature 0 image with
  | none => rw [descriptorBase, hfind]; exact ⟨nofun, nofun⟩
  | some p =>
    rw [descriptorBase_of_signature hfind]
    split_ifs with hlow htrunc
    · exact ⟨nofun, fun ⟨hp, _⟩ => by simp only [Option.some_inj] at hp; omega⟩
    · exact ⟨nofun, fun ⟨hp, _⟩ => by simp only [Option.some_inj] at hp; omega⟩
    · simp only [Option.some_inj, Except.ok.injEq]; omega

/-- A located descriptor is decoded from its base. -/
theorem parseImage_of_base {image : List Byte} {D : Nat} (h : descriptorBase image = .ok D) (cfg : Config) :
    parseImage cfg image = decodeDescriptor cfg image D := by rw [parseImage, h]; rfl

/-- Only a located descriptor is parsed. -/
theorem base_of_parseImage_ok {cfg : Config} {image : List Byte} {d : FlashDescriptor} (h : parseImage cfg image = .ok d) :
    ∃ D, descriptorBase image = .ok D ∧ decodeDescriptor cfg image D = .ok d := by
  unfold parseImage at h
  cases hbase : descriptorBase image with
  | error e => rw [hbase] at h; cases h
  | ok D => rw [hbase] at h; exact ⟨D, rfl, h⟩

/-- Settles O49: the search answers the first occurrence, and an occurrence lies within the image. -/
theorem signatureIsLeast : Obligations.SignatureIsLeast := by
  intro image p
  refine ⟨?_, findSignature_eq_none_iff, parseImage_of_no_signature⟩
  rw [findSignature_eq_some_iff]
  exact ⟨fun ⟨hat, hfirst⟩ => ⟨⟨hat.fits, hat⟩, hfirst⟩, fun ⟨⟨_, hat⟩, hfirst⟩ => ⟨hat, hfirst⟩⟩

/-! ### The sections of a located descriptor -/

/-- The `count` dwords of the section at `base` lie within the descriptor (R268). -/
abbrev SectionFits (base count : Nat) : Prop := count = 0 ∨ base + 4 * count ≤ 4096

/-- The `count` dwords from `base` on. -/
def sectionWords (fd : Nat → Word) (base count : Nat) : List Word := (List.range count).map fun k => fd (base + 4 * k)

section
variable {image : List Byte} {D : Nat} (hD : D + 4096 ≤ image.length)
include hD

/-- Within the slice no dword is missing, so the descriptor's bound alone decides (R254, R268). -/
theorem descriptorDword_eq (off : Nat) :
    descriptorDword image D off =
      if off + 4 ≤ 4096 then .ok (descriptorWord image D off) else .error .malformedDescriptor := by
  have hsize : fdSize = 4096 := rfl
  unfold descriptorDword
  split_ifs
  · omega
  · rfl
  · rw [imageDword_of_fits (by omega)]
  · omega

theorem descriptorDword_of_fits {off : Nat} (h : off + 4 ≤ 4096) :
    descriptorDword image D off = .ok (descriptorWord image D off) := by rw [descriptorDword_eq hD, if_pos h]

theorem sectionDwords_of_fits {base : Nat} : ∀ {count r : Nat}, SectionFits (base + 4 * r) count →
    sectionDwords (descriptorDword image D) base count r =
      .ok ((List.range' r count).map fun k => descriptorWord image D (base + 4 * k))
  | 0, _, _ => rfl
  | count + 1, r, h => by
    have hhead : base + 4 * r + 4 ≤ 4096 := by unfold SectionFits at h; omega
    have htail : SectionFits (base + 4 * (r + 1)) count := by unfold SectionFits at h ⊢; omega
    simp only [sectionDwords, descriptorDword_of_fits hD hhead, sectionDwords_of_fits htail, List.range'_succ, List.map_cons]

/-- A section that leaves the descriptor fails at its first dword outside (R268). -/
theorem sectionDwords_of_not_fits {base : Nat} : ∀ {count r : Nat}, ¬ SectionFits (base + 4 * r) count →
    sectionDwords (descriptorDword image D) base count r = .error .malformedDescriptor
  | 0, _, h => absurd (.inl rfl) h
  | count + 1, r, h => by
    by_cases hhead : base + 4 * r + 4 ≤ 4096
    · have htail : ¬ SectionFits (base + 4 * (r + 1)) count := by unfold SectionFits at h ⊢; omega
      simp only [sectionDwords, descriptorDword_of_fits hD hhead, sectionDwords_of_not_fits htail]
    · simp only [sectionDwords, descriptorDword_eq hD, if_neg hhead]

/-- A section is read as a whole, or the descriptor is malformed. -/
theorem sectionDwords_eq (base count : Nat) :
    sectionDwords (descriptorDword image D) base count 0 =
      if SectionFits base count then .ok (sectionWords (descriptorWord image D) base count)
      else .error .malformedDescriptor := by
  split_ifs with h
  · rw [sectionWords, List.range_eq_range']
    exact sectionDwords_of_fits hD h
  · exact sectionDwords_of_not_fits hD h

end

/-! ### The record of a located descriptor -/

/-- The master count (R257). -/
def masterCount (cfg : Config) (flmap1 : Word) : Word := field cfg.fields.nm flmap1 + BitVec.ofNat 32 cfg.bias.nm

/-- Every section fits the descriptor whose dwords are `fd` (R260, R261, R263, R268). -/
abbrev SectionsFit (cfg : Config) (fd : Nat → Word) : Prop :=
  SectionFits (mapBase cfg.fields.fcba (fd 0x14)).toNat 3 ∧
  SectionFits (mapBase cfg.fields.frba (fd 0x14)).toNat (regionCount cfg (fd 0x14)).toNat ∧
  SectionFits (mapBase cfg.fields.fmba (fd 0x18)).toNat (masterCount cfg (fd 0x18)).toNat

/-- What a located descriptor whose sections fit decodes to, dword by dword (R255 to R266). -/
def descriptorOf (cfg : Config) (image : List Byte) (D : Nat) : FlashDescriptor :=
  let fd := descriptorWord image D
  let l := cfg.fields
  { signature := fd 0x10
    descriptorOffset := D
    componentBase := mapBase l.fcba (fd 0x14)
    regionBase := mapBase l.frba (fd 0x14)
    masterBase := mapBase l.fmba (fd 0x18)
    numComponents := field l.nc (fd 0x14) + BitVec.ofNat 32 cfg.bias.nc
    numRegions := regionCount cfg (fd 0x14)
    numMasters := masterCount cfg (fd 0x18)
    pchStrapBase := mapBase l.fpsba (fd 0x18)
    pchStrapLength := field l.psl (fd 0x18)
    cpuStrapBase := mapBase l.fmsba (fd 0x1C)
    cpuStrapLength := field l.msl (fd 0x1C)
    componentDwords := sectionWords fd (mapBase l.fcba (fd 0x14)).toNat 3
    regions := (sectionWords fd (mapBase l.frba (fd 0x14)).toNat (regionCount cfg (fd 0x14)).toNat).zipIdx.map fun p =>
      regionOf l.flregRb l.flregRl p.2 p.1
    masterAccess := masterTable l (regionCount cfg (fd 0x14)).toNat
      (sectionWords fd (mapBase l.fmba (fd 0x18)).toNat (masterCount cfg (fd 0x18)).toNat)
    vsccTableBase := mapBase l.vtba (fd 0xEFC)
    vsccTableLength := field l.vtl (fd 0xEFC)
    oem := (image.drop (D + 0xF00)).take 256
    diagnostics := regionDiagnostics cfg (fd 0x14) }

theorem ite_ok_bind {α β : Type} {P : Prop} [Decidable P] (a : α) (e : OpError) (f : α → Except OpError β) :
    (if P then Except.ok a else .error e).bind f = if P then f a else .error e := by
  split <;> rfl

/-- The decoder says the same of every located descriptor: its record, or that a section does not fit. -/
theorem decodeDescriptor_eq {image : List Byte} {D : Nat} (hD : D + 4096 ≤ image.length) (cfg : Config) :
    decodeDescriptor cfg image D =
      if SectionsFit cfg (descriptorWord image D) then .ok (descriptorOf cfg image D) else .error .malformedDescriptor := by
  have hdword {off : Nat} (h : off + 4 ≤ 4096) := descriptorDword_of_fits hD h
  rw [decodeDescriptor, hdword (off := fdSigOffset) (by decide), hdword (off := fdMapOffset0) (by decide),
    hdword (off := fdMapOffset1) (by decide), hdword (off := fdMapOffset2) (by decide),
    hdword (off := fdUpperMapOffset) (by decide)]
  simp only [sectionDwords_eq hD, ite_ok_bind, SectionsFit, ite_and]
  rfl

/-- A located image parses as its descriptor decodes. -/
theorem parseImage_eq {image : List Byte} {D : Nat} (hsig : findSignature 0 image = some (D + 0x10))
    (hD : D + 4096 ≤ image.length) (cfg : Config) :
    parseImage cfg image =
      if SectionsFit cfg (descriptorWord image D) then .ok (descriptorOf cfg image D) else .error .malformedDescriptor := by
  rw [parseImage_of_base (descriptorBase_eq_ok_iff.mpr ⟨hsig, hD⟩), decodeDescriptor_eq hD]

/-- What parses is located, and is the record of its dwords. -/
theorem located_of_parseImage_ok {cfg : Config} {image : List Byte} {d : FlashDescriptor} (h : parseImage cfg image = .ok d) :
    ∃ D, findSignature 0 image = some (D + 0x10) ∧ D + 4096 ≤ image.length ∧ d = descriptorOf cfg image D := by
  obtain ⟨D, hbase, hdecode⟩ := base_of_parseImage_ok h
  obtain ⟨hsig, hD⟩ := descriptorBase_eq_ok_iff.mp hbase
  rw [decodeDescriptor_eq hD] at hdecode
  split_ifs at hdecode
  exact ⟨D, hsig, hD, (Except.ok.inj hdecode).symm⟩

/-! ### The statements about a parsed descriptor -/

/-- Settles O50: the outcomes of the base search, and the base the record of a located descriptor holds. -/
theorem descriptorBaseErrors : Obligations.DescriptorBaseErrors := by
  intro cfg image
  refine ⟨fun hnone => parseImage_of_no_signature hnone cfg, fun p hp => ?_⟩
  have hbase := descriptorBase_of_signature hp
  refine ⟨fun hlow => ?_, fun hhigh hshort => ?_, fun hhigh hlong => ?_⟩
  · rw [parseImage, hbase, if_pos hlow]; rfl
  · rw [parseImage, hbase, if_neg (Nat.not_lt.mpr hhigh), if_pos hshort]; rfl
  · rw [if_neg (Nat.not_lt.mpr hhigh), if_neg (Nat.not_lt.mpr hlong)] at hbase
    refine ⟨parseImage_of_base hbase cfg, fun d hd => ?_⟩
    obtain ⟨D, hsig, -, rfl⟩ := located_of_parseImage_ok hd
    have hD : p = D + 0x10 := Option.some.inj (hp.symm.trans hsig)
    exact (Nat.sub_eq_of_eq_add hD).symm

/-- Settles O51: `parseImage_eq`, with the bound of the three component dwords written out. -/
theorem parseSucceedsIffSectionsFit : Obligations.ParseSucceedsIffSectionsFit := by
  intro cfg image D hsig hD fd fits
  have hfits : fits ↔ SectionsFit cfg fd := and_congr_left' (by omega)
  rw [parseImage_eq hsig hD, hfits]
  exact ⟨fun h => ⟨_, if_pos h, rfl⟩, fun h => if_neg h⟩

theorem descriptorWord_signature {image : List Byte} {D : Nat} (hsig : findSignature 0 image = some (D + 0x10)) :
    descriptorWord image D 0x10 = fdSignature := by
  obtain ⟨hat, -⟩ := findSignature_eq_some_iff.mp hsig
  have hword := imageDword_eq_fdSignature_iff.mpr hat
  rw [imageDword_of_fits hat.fits] at hword
  exact Option.some.inj hword

/-- Settles O52: the fields of `descriptorOf`. -/
theorem parsedFields : Obligations.ParsedFields := by
  intro cfg image d hd
  obtain ⟨D, hsig, hD, rfl⟩ := located_of_parseImage_ok hd
  have hoem : ((image.drop (D + 0xF00)).take 256).length = 256 := by
    rw [List.length_take, List.length_drop]; omega
  exact ⟨hsig, hD, descriptorWord_signature hsig, rfl, rfl, rfl, rfl, rfl, rfl, rfl, rfl, rfl, rfl, rfl, rfl, rfl, rfl, hoem⟩

/-! ### Regions and the access table -/

/-- The dwords of a section, each with its number. -/
theorem zipIdx_sectionWords (fd : Nat → Word) (base count : Nat) :
    (sectionWords fd base count).zipIdx = (List.range count).map fun k => (fd (base + 4 * k), k) :=
  List.ext_getElem (by simp [sectionWords]) (by simp [sectionWords])

/-- The table lists each pair of a region and a master with its entry (R264). -/
theorem masterTable_eq (l : FieldLayout) (fd : Nat → Word) (base regions masters : Nat) :
    masterTable l regions (sectionWords fd base masters) =
      (List.range regions ×ˢ List.range masters).map fun k => (k, masterEntry l (fd (base + 4 * k.2)) k.1) := by
  simp only [masterTable, zipIdx_sectionWords, SProd.sprod, List.product, List.map_flatMap, List.map_map]
  rfl

/-- Settles O53: the regions are those of `zipIdx_sectionWords`, and the table is looked up by `masterTable_eq`. -/
theorem parsedSections : Obligations.ParsedSections := by
  intro cfg image d hd
  obtain ⟨D, -, -, rfl⟩ := located_of_parseImage_ok hd
  refine ⟨rfl, ?_, fun r m hr hm => ?_, fun r m hout => ?_⟩
  · exact (congrArg (List.map _) (zipIdx_sectionWords _ _ _)).trans List.map_map
  · simp only [descriptorOf, masterTable_eq]
    exact List.lookup_graph _ (List.mem_product.mpr ⟨List.mem_range.mpr hr, List.mem_range.mpr hm⟩)
  · simp only [descriptorOf, masterTable_eq, List.lookup_eq_none_iff, List.forall_mem_map, bne_iff_ne]
    rintro k hk rfl
    obtain ⟨hr, hm⟩ := List.mem_product.mp hk
    exact hout.elim (List.mem_range.mp hr).not_ge (List.mem_range.mp hm).not_ge

/-- Settles O54: the enumeration is the filter of the regions by `FlashRegion.present`. -/
theorem unusedRegionsExcluded : Obligations.UnusedRegionsExcluded := by
  intro cfg image d g _ hg
  have hpresent : g.present = true ↔ ¬ (g.limit.toNat < g.base.toNat ∨ g.rawRegister = 0xFFFFFFFF#32) := by
    simp [FlashRegion.present, FlashRegion.unused]
  rw [presentRegions, List.mem_filter, hpresent]
  exact and_iff_right hg

/-! ### The slice -/

theorem map_bind_except {α β γ : Type} (x : Except OpError α) (f : α → Except OpError β) (g : β → γ) :
    (x.bind f).map g = x.bind fun a => (f a).map g := by
  cases x <;> rfl

section
variable {image : List Byte} {D : Nat}

/-- The 4096 bytes of a descriptor (R254). -/
def descriptorSlice (image : List Byte) (D : Nat) : List Byte := (image.drop D).take 4096

theorem drop_take_descriptorSlice {off n : Nat} (h : off + n ≤ 4096) :
    ((descriptorSlice image D).drop off).take n = (image.drop (D + off)).take n := by
  rw [descriptorSlice, List.drop_take, List.drop_drop, List.take_take, Nat.min_eq_left (by omega)]

theorem getD_descriptorSlice {k : Nat} (h : k < 4096) : (descriptorSlice image D).getD k 0 = image.getD (D + k) 0 := by
  simp only [descriptorSlice, List.getD_eq_getElem?_getD, List.getElem?_take_of_lt h, List.getElem?_drop]

theorem descriptorWord_slice {off : Nat} (h : off + 4 ≤ 4096) :
    descriptorWord (descriptorSlice image D) 0 off = descriptorWord image D off := by
  simp only [descriptorWord, Nat.zero_add, Nat.add_assoc]
  rw [getD_descriptorSlice (by omega), getD_descriptorSlice (by omega), getD_descriptorSlice (by omega),
    getD_descriptorSlice (by omega)]

theorem firstSignature_slice (h : FirstSignature image (D + 0x10)) : FirstSignature (descriptorSlice image D) 0x10 := by
  have hslice {q : Nat} (hq : q + 4 ≤ 4096) : SignatureAt (descriptorSlice image D) q ↔ SignatureAt image (D + q) := by
    rw [SignatureAt, drop_take_descriptorSlice hq, SignatureAt]
  obtain ⟨hat, hfirst⟩ := h
  exact ⟨(hslice (by omega)).mpr hat, fun q hq hq' => hfirst (D + q) (by omega) ((hslice (by omega)).mp hq')⟩

theorem length_descriptorSlice (hD : D + 4096 ≤ image.length) : (descriptorSlice image D).length = 4096 := by
  rw [descriptorSlice, List.length_take, List.length_drop]; omega

/-- Every dword the decoder reads, missing or not, is one of the slice. -/
theorem descriptorDword_slice (hD : D + 4096 ≤ image.length) :
    descriptorDword (descriptorSlice image D) 0 = descriptorDword image D := by
  funext off
  rw [descriptorDword_eq hD, descriptorDword_eq (by rw [length_descriptorSlice hD])]
  split_ifs with h
  · rw [descriptorWord_slice h]
  · rfl

/-- The decoder looks at the image through the dwords and the vendor data only, and records the base. -/
theorem decodeDescriptor_slice (hD : D + 4096 ≤ image.length) (cfg : Config) :
    decodeDescriptor cfg image D =
      (decodeDescriptor cfg (descriptorSlice image D) 0).map fun d => { d with descriptorOffset := D } := by
  have hoem : ((descriptorSlice image D).drop (0 + fdOemOffset)).take (fdSize - fdOemOffset) =
      (image.drop (D + fdOemOffset)).take (fdSize - fdOemOffset) := by
    rw [Nat.zero_add]; exact drop_take_descriptorSlice (by decide)
  simp only [decodeDescriptor, descriptorDword_slice hD, hoem, map_bind_except]
  rfl

end

/-- Settles O55: the slice's own signature stands at `0x10`, so it is decoded from 0, and `decodeDescriptor_slice` says how
that compares. -/
theorem parseReadsTheSliceOnly : Obligations.ParseReadsTheSliceOnly := by
  intro cfg image D hsig hD
  have hbase : descriptorBase (descriptorSlice image D) = .ok 0 :=
    descriptorBase_eq_ok_iff.mpr ⟨findSignature_eq_some_iff.mpr (firstSignature_slice (findSignature_eq_some_iff.mp hsig)),
      by rw [length_descriptorSlice hD]⟩
  rw [parseImage_of_base (descriptorBase_eq_ok_iff.mpr ⟨hsig, hD⟩), decodeDescriptor_slice hD, ← parseImage_of_base hbase]
  rfl

end Sys2Proof.Proofs
end

section
/-! PROOFS. 44_regions_protection.md: `READ_REGION` and `READ_PROTECTED_RANGE` read one register and touch nothing else, and
`DISABLE_BIOS_WP` is one read of `BIOS_CTL` or, where it shows write-enable clear, a read, a write and a read. -/

namespace Sys2Proof.Proofs

open Sys2Proof.Machine Sys2Proof.Laws

/-! ### One read of a register -/

/-- Acceptance, one recorded access and delivery. -/
theorem untouched_of_log (r : OpResult) (e : Event) (s : State) : Untouched s (deliver r ((beginOp s).log e)) :=
  ⟨⟨rfl, rfl, rfl, rfl, rfl, rfl, rfl, rfl⟩, rfl, rfl, rfl⟩

/-- An operand byte that encodes a small index gives it back. -/
theorem toNat_ofNat_fin {n : Nat} (hn : n ≤ 2 ^ 8) (i : Fin n) : (BitVec.ofNat 8 i.val).toNat = i.val := by
  rw [BitVec.toNat_ofNat, Nat.mod_eq_of_lt (Nat.lt_of_lt_of_le i.isLt hn)]

theorem exec_readRegion (id : Fin 12) (s : State) :
    exec (.readRegion (BitVec.ofNat 8 id.val)) s = finish (.ok (readRegionOp id (beginOp s))) := by
  have hid := toNat_ofNat_fin (by decide) id
  simp only [exec, execReadRegion, hid, id.isLt, dif_pos]

theorem exec_readProtectedRange (index : Fin 5) (s : State) :
    exec (.readProtectedRange (BitVec.ofNat 8 index.val)) s = finish (.ok (readProtectedRangeOp index (beginOp s))) := by
  have hindex := toNat_ofNat_fin (by decide) index
  simp only [exec, execReadProtectedRange, hindex, index.isLt, dif_pos]

/-- Settles O56: `FREG` has nothing behind it that a read could move. -/
theorem readRegionDecodes : Obligations.ReadRegionDecodes := fun id s =>
  ⟨_, exec_readRegion id s, rfl, rfl, untouched_of_log _ _ s⟩

/-- The record of a protected range, field by field (R303). -/
theorem rangeOf_eq (l : FieldLayout) (index : Nat) (raw : Word) :
    rangeOf l index raw =
      { index := index
        base := field l.prb raw <<< 12
        limit := (field l.prl raw <<< 12) ||| 0xFFF#32
        writeProtectEnabled := decide (field l.wpe raw ≠ 0)
        readProtectEnabled := decide (field l.rpe raw ≠ 0)
        rawRegister := raw } := by
  simp only [ne_eq, decide_not]
  rfl

theorem rangeOf_meaningful_iff (l : FieldLayout) (index : Nat) (raw : Word) :
    (rangeOf l index raw).meaningful = true ↔ field l.wpe raw ≠ 0 ∨ field l.rpe raw ≠ 0 := by
  simp only [ProtectedRange.meaningful, rangeOf, Bool.or_eq_true, bne_iff_ne]

/-- Settles O57: as for `READ_REGION`, and the two enables of `rangeOf` decide whether the range is meaningful. -/
theorem readProtectedRangeDecodes : Obligations.ReadProtectedRangeDecodes := fun index s =>
  ⟨_, rangeOf s.cfg.fields index.val (s.ctl.pr.get index), exec_readProtectedRange index s, rfl, rfl, rangeOf_eq _ _ _,
    rangeOf_meaningful_iff _ _ _, untouched_of_log _ _ s⟩

/-! ### The accesses of `DISABLE_BIOS_WP` -/

theorem regRead_biosCtl (s : State) :
    regRead .biosCtl s = (s.biosRead, (tickBios s).log (.read .biosCtl s.biosRead)) := rfl

/-- The state after the first read. -/
def biosSampled (s : State) : State := (tickBios (beginOp s)).log (.read .biosCtl s.biosRead)

/-- The state after the write that sets write-enable in what the first read showed. -/
def biosAttempted (s : State) : State := portWrite .biosCtl (s.biosRead ||| (1#32 <<< s.cfg.fields.we)) (biosSampled s)

/-- The state after the confirming read. -/
def biosConfirmed (s : State) : State :=
  (tickBios (biosAttempted s)).log (.read .biosCtl (biosAttempted s).biosRead)

section
variable (s : State)

@[simp] theorem biosSampled_cfg : (biosSampled s).cfg = s.cfg := tickBios_cfg (beginOp s)
@[simp] theorem biosSampled_flash : (biosSampled s).env.flash = s.env.flash := tickBios_flash (beginOp s)
theorem biosSampled_ctl : (biosSampled s).ctl = { s.ctl with biosCtl := s.biosRead, biosWeOpen := true } :=
  tickBios_ctl (beginOp s)
theorem biosSampled_trace : (biosSampled s).host.trace = [.read .biosCtl s.biosRead] := by
  simp only [biosSampled, log_trace, tickBios_host, beginOp_trace, List.nil_append]

@[simp] theorem biosAttempted_cfg : (biosAttempted s).cfg = s.cfg := biosSampled_cfg s
@[simp] theorem biosAttempted_flash : (biosAttempted s).env.flash = s.env.flash := biosSampled_flash s
theorem biosAttempted_ctl :
    (biosAttempted s).ctl =
      { s.ctl with biosCtl := s.biosRead ||| (1#32 <<< s.cfg.fields.we), biosWeOpen := true } := by
  show { (biosSampled s).ctl with biosCtl := s.biosRead ||| (1#32 <<< s.cfg.fields.we), biosWeOpen := true } = _
  rw [biosSampled_ctl]
theorem biosAttempted_trace :
    (biosAttempted s).host.trace =
      [.read .biosCtl s.biosRead, .write .biosCtl (s.biosRead ||| (1#32 <<< s.cfg.fields.we))] :=
  congrArg (· ++ [_]) (biosSampled_trace s)

/-- The attempt sets write-enable alone, and the environment draws write-enable alone (R49, R306). -/
theorem biosAttempted_biosRead_getLsbD {n : Nat} (hn : n ≠ s.cfg.fields.we) :
    (biosAttempted s).biosRead.getLsbD n = s.biosRead.getLsbD n := by
  have hset : (s.biosRead.setBit s.cfg.fields.we true).getLsbD n = s.biosRead.getLsbD n := by
    rw [getLsbD_setBit, if_neg fun h => hn h.1]
  rw [biosRead_getLsbD _ _ (by simpa using hn), biosAttempted_ctl]
  exact hset

theorem biosConfirmed_ctl :
    (biosConfirmed s).ctl = { s.ctl with biosCtl := (biosAttempted s).biosRead, biosWeOpen := true } := by
  rw [biosConfirmed, log_ctl, tickBios_ctl, biosAttempted_ctl]
theorem biosConfirmed_flash : (biosConfirmed s).env.flash = s.env.flash := by
  rw [biosConfirmed, log_env, tickBios_flash, biosAttempted_flash]
theorem biosConfirmed_trace :
    (biosConfirmed s).host.trace =
      [.read .biosCtl s.biosRead, .write .biosCtl (s.biosRead ||| (1#32 <<< s.cfg.fields.we)),
        .read .biosCtl (biosAttempted s).biosRead] := by
  rw [biosConfirmed, log_trace, tickBios_host, biosAttempted_trace]
  rfl

/-- What the confirming read decides (R307). -/
def biosVerdict : OpResult :=
  if (biosAttempted s).biosRead.getLsbD s.cfg.fields.we then .ok (.bool true)
  else .err (.protectionStateUnverified (s.biosRead.getLsbD s.cfg.fields.le) (s.biosRead.getLsbD s.cfg.fields.smmWp))

end

/-! ### Its two outcomes -/

section
variable {s t : State}

theorem exec_disableBiosWp_of_set (h : s.biosRead.getLsbD s.cfg.fields.we = true) :
    exec .disableBiosWp s = .next (deliver (.ok (.bool true)) (biosSampled s)) := by
  have hop : disableBiosWpOp (beginOp s) = (.ok (.bool true), biosSampled s) := if_pos h
  show finish (.ok (disableBiosWpOp (beginOp s))) = _
  rw [hop]
  rfl

theorem attemptWriteEnable_biosSampled :
    finish (.ok (attemptWriteEnable s.biosRead (biosSampled s))) = .next (deliver (biosVerdict s) (biosConfirmed s)) := by
  simp only [attemptWriteEnable, regRead_biosCtl, biosSampled_cfg, biosVerdict]
  show finish (.ok (if (biosAttempted s).biosRead.getLsbD s.cfg.fields.we then (.ok (.bool true), biosConfirmed s)
    else (.error _, biosConfirmed s))) = _
  split <;> rfl

theorem exec_disableBiosWp_of_clear (h : s.biosRead.getLsbD s.cfg.fields.we = false) :
    exec .disableBiosWp s = .next (deliver (biosVerdict s) (biosConfirmed s)) := by
  have hop : disableBiosWpOp (beginOp s) = attemptWriteEnable s.biosRead (biosSampled s) :=
    if_neg (Bool.eq_false_iff.mp h)
  rw [← attemptWriteEnable_biosSampled, ← hop]
  rfl

theorem disableBiosWp_eng (h : exec .disableBiosWp s = .next t) : t.eng = { s.eng.rest with failed := false } := by
  have hfinish : finish (.ok (disableBiosWpOp (beginOp s))) = .next t := h
  rw [finish_ok_eng hfinish, disableBiosWpOp_eng]
  rfl

end

/-- Settles O58: the operation ends after its first read. -/
theorem biosAlreadyEnabled : Obligations.BiosAlreadyEnabled := by
  intro s hset
  have hexec := exec_disableBiosWp_of_set hset
  exact ⟨_, hexec, rfl, biosSampled_trace s, fixedPartKept _ _ _ hexec, biosSampled_ctl s, biosSampled_flash s,
    disableBiosWp_eng hexec⟩

/-- Settles O59: the confirming read is that of `biosAttempted`, and `biosVerdict` looks at nothing else of it. -/
theorem biosAttemptVerified : Obligations.BiosAttemptVerified := by
  intro s _ hclear
  have hexec := exec_disableBiosWp_of_clear hclear
  exact ⟨_, (biosAttempted s).biosRead, hexec, biosConfirmed_trace s, fun n => biosAttempted_biosRead_getLsbD s, rfl,
    fixedPartKept _ _ _ hexec, biosConfirmed_ctl s, biosConfirmed_flash s, disableBiosWp_eng hexec⟩

/-! ### Write-enable does not last -/

/-- A fresh machine whose `BIOS_CTL` shows write-enable as `found`; system-management code lets the engine's own attempt
stand, where there is one, and clears the bit before the read after it (R308, R388). -/
def biosReverting (found : Bool) : State :=
  { State.reset with
    ctl := { Controller.reset with biosCtl := if found then 0x21 else 0x20 }
    env := { Environment.reset with weDraws := if found then [false] else [true, false] } }

theorem biosReverting_inv (found : Bool) : MachineInv (biosReverting found) :=
  ⟨rfl, Nat.zero_le _, Nat.zero_lt_succ _, rfl, (by decide : maskFla 0 = 0), (by decide : LegalIndex 0),
    (by decide : LegalSlot none)⟩

/-- An operation that comes after another and finds write-enable clear shows it in its first access. -/
theorem reverted_of_clear {s t : State} (h : exec .disableBiosWp s = .next t)
    (hclear : t.biosRead.getLsbD t.cfg.fields.we = false) :
    ∃ u, exec .disableBiosWp t = .next u ∧
      ∃ raw0 rest, u.host.trace = .read .biosCtl raw0 :: rest ∧ raw0.getLsbD s.cfg.fields.we = false := by
  have hcfg : t.cfg = s.cfg := (fixedPartKept _ _ _ h).cfg
  rw [hcfg] at hclear
  exact ⟨_, exec_disableBiosWp_of_clear (hcfg ▸ hclear), _, _, biosConfirmed_trace t, hclear⟩

/-- Settles O60: `biosReverting`, whether the bit was found set or set by the attempt. -/
theorem biosEnableMayNotLast : Obligations.BiosEnableMayNotLast := by
  intro found
  cases found with
  | true =>
    have hfirst := exec_disableBiosWp_of_set (s := biosReverting true) (by decide)
    obtain ⟨u, hnext, hreverted⟩ := reverted_of_clear hfirst (by decide)
    exact ⟨_, _, u, biosReverting_inv true, by decide, hfirst, rfl, hnext, hreverted⟩
  | false =>
    have hfirst := exec_disableBiosWp_of_clear (s := biosReverting false) (by decide)
    obtain ⟨u, hnext, hreverted⟩ := reverted_of_clear hfirst (by decide)
    exact ⟨_, _, u, biosReverting_inv false, by decide, hfirst, by decide, hnext, hreverted⟩

end Sys2Proof.Proofs
end

section
/-! PROOFS. 60_exceptions.md section 1: a command that is no operation (R340). -/

namespace Sys2Proof.Proofs

open Sys2Proof.Machine Sys2Proof.Laws

/-- The host has presented `c` and will present `rest`. -/
theorem takeCommand_of_pending {s : State} {c : Command} {rest : List Command} (h : s.host.pending = c :: rest) :
    takeCommand s = some (c, s.modHost fun p => { p with pending := rest }) := by
  simp only [takeCommand, h]

/-- A step refuses what does not decode (R136). -/
theorem step_of_decode_error {s : State} {c : Command} {rest : List Command} {e : DecodeError}
    (hpending : s.host.pending = c :: rest) (hbusy : s.eng.busy = false) (hdecode : decode c = .error e) :
    step s = .next (refuseIllegal (s.modHost fun p => { p with pending := rest })) := by
  simp only [step, takeCommand_of_pending hpending, modHost_eng, hbusy, hdecode]
  rfl

/-- Settles O5: the refusal touches the host port only. -/
theorem illegalCommandChangesNothing : Obligations.IllegalCommandChangesNothing :=
  fun _ _ _ _ hpending hbusy hdecode =>
    ⟨_, step_of_decode_error hpending hbusy hdecode, rfl, rfl, rfl, rfl, rfl, rfl, rfl⟩

end Sys2Proof.Proofs
end

section
/-! PROOFS. 60_exceptions.md sections 1 and 5: a fatal session (R331, R348). Every cycle of one fails before its first access
(`executeCycle_fatal`), so an operation fails with the accesses that come before its first cycle: none, the packing of slot 0,
or the indexed reads of the SFDP walk. -/

namespace Sys2Proof.Proofs

open Sys2Proof.Machine Sys2Proof.Laws

/-! ### One cycle -/

/-- The state a cycle of a fatal session leaves for its caller: the command is latched, and that is all. -/
def stopped (c : CycleCommand) (s : State) : State := (latchCommand c s).atPhase .idle

theorem executeCycle_fatal {s : State} (h : s.eng.session = .fatal) (c : CycleCommand) :
    executeCycle c s = .ok (some .hardwareSequencingDisabled, stopped c s) := by
  have hcheck : sessionCheck (latchCommand c s) = latchCommand c s := if_neg (by simp [latchCommand, h])
  simp only [executeCycle, hcheck]
  exact if_pos h

/-- The state an operation leaves whose first cycle `c` fails so in `u`: the error is taken (R345), so the accesses, the
session, the controller and the environment are those of `u`. -/
def failedAt (c : CycleCommand) (u : State) : State := takeError .hardwareSequencingDisabled (stopped c u)

/-! ### Operations that begin with a cycle -/

section
variable {s : State} (h : s.eng.session = .fatal)
include h

theorem runCycle_fatal (c : CycleCommand) : runCycle c s = .next (failedAt c (beginOp s)) := by
  rw [runCycle, executeCycle_fatal (s := beginOp s) h]
  rfl

theorem exec_readJedecId_fatal (hfield : s.cfg.hasCycleTypeField = true) :
    exec .readJedecId s = .next (failedAt jedecCommand (beginOp s)) := by
  have hcycle := executeCycle_fatal (s := beginOp s) h ⟨.jedecId, 0, dbcOf jedecByteCount⟩
  show finish (readJedecOp (beginOp s)) = _
  rw [readJedecOp, beginOp_cfg, if_pos hfield, hcycle]
  rfl

end

/-! ### Transfers -/

/-- A plan of at least one byte whose first burst stops the coordinator ends with it (R182, R186). -/
theorem runPlan_of_first_stops {burst : Nat → State → Except Fault (Bool × State)} {length : Nat} {u v : State}
    (hlength : length ≠ 0) (hburst : 0 < u.eng.burst) (hn : u.eng.n = length / u.eng.burst)
    (hr : u.eng.r = length % u.eng.burst) (hstop : burst (min u.eng.burst length) u = .ok (true, v)) :
    runPlan burst u = .ok (true, v) := by
  cases hfull : u.eng.n with
  | zero =>
    have hlt : length < u.eng.burst := (Nat.div_eq_zero_iff_lt hburst).mp (hn.symm.trans hfull)
    rw [Nat.mod_eq_of_lt hlt] at hr
    rw [Nat.min_eq_right hlt.le] at hstop
    simp only [runPlan, hfull, runBursts, hr, if_neg hlength, hstop]
  | succ n =>
    have hle : u.eng.burst ≤ length := (Nat.div_ne_zero_iff.mp (by omega)).2
    rw [Nat.min_eq_left hle] at hstop
    simp only [runPlan, hfull, runBursts, hstop]

theorem readBurst_fatal {u : State} (h : u.eng.session = .fatal) (k : Nat) :
    readBurst k u = .ok (true, stopped (burstCommand .read k u) u) := by
  rw [readBurst, executeCycle_fatal h]
  rfl

/-- A write burst has packed slot 0 when its cycle fails (R189, R191). -/
theorem writeBurstOf_fatal {u : State} (h : u.eng.session = .fatal) (hidle : u.ctl.inflight = none) (k : Nat) :
    writeBurstOf k u =
      .ok (true, stopped (burstCommand .write k u) (portWrite (.data 0) (packLe (burstBytes u k)) u)) := by
  rw [writeBurstOf, regWrite_idle hidle]
  simp only [Except.bind]
  rw [executeCycle_fatal (by rw [portWrite_eng, h])]
  rfl

/-- The state in which the first burst of a `READ` begins. -/
def readBegun (address length : Word) (s : State) : State :=
  latchPlan address length.toNat (readBurstSize length.toNat) (beginOp s)

theorem exec_read_fatal {address length : Word} {s : State} (h : s.eng.session = .fatal) (hlength : length ≠ 0) :
    ∃ c, exec (.read address length) s = .next (failedAt c (readBegun address length s)) := by
  have hpos : length.toNat ≠ 0 := fun h0 => hlength (BitVec.eq_of_toNat_eq h0)
  have hstop := readBurst_fatal (u := readBegun address length s) h (min (readBurstSize length.toNat) length.toNat)
  have hplan := runPlan_of_first_stops hpos (readBurstSize_pos _) rfl rfl hstop
  refine ⟨burstCommand .read (min (readBurstSize length.toNat) length.toNat) (readBegun address length s), ?_⟩
  show finish ((runPlan readBurst (readBegun address length s)).map _) = _
  rw [hplan]
  rfl

/-- The state in which the first burst of a `WRITE` begins. -/
def writeBegun (address : Word) (bytes : List Byte) (s : State) : State :=
  (latchPlan address bytes.length writeBurst (beginOp s)).modEng fun e => { e with buf := bytes }

/-- The first burst of a `WRITE` packs the first four bytes, or all of them if they are fewer (R189). -/
theorem burstBytes_writeBegun (address : Word) (bytes : List Byte) (s : State) :
    burstBytes (writeBegun address bytes s) (min writeBurst bytes.length) = bytes.take 4 := by
  show bytes.take (min 4 bytes.length) = _
  rw [← List.take_take, List.take_length]

theorem exec_write_fatal {address : Word} {bytes : List Byte} {s : State} (h : s.eng.session = .fatal)
    (hidle : s.ctl.inflight = none) (hbytes : bytes ≠ []) :
    ∃ c, exec (.write address bytes) s =
      .next (failedAt c (portWrite (.data 0) (packLe (bytes.take 4)) (writeBegun address bytes s))) := by
  have hstop := writeBurstOf_fatal (u := writeBegun address bytes s) h hidle (min writeBurst bytes.length)
  rw [burstBytes_writeBegun] at hstop
  have hplan := runPlan_of_first_stops (mt List.eq_nil_of_length_eq_zero hbytes) (show 0 < writeBurst by decide) rfl rfl hstop
  refine ⟨burstCommand .write (min writeBurst bytes.length) (writeBegun address bytes s), ?_⟩
  show finish ((runPlan writeBurstOf (writeBegun address bytes s)).map _) = _
  rw [hplan]
  rfl

/-! ### `DISCOVER_SFDP` -/

/-- The walk up to a component it reaches without an Sfdp cycle (R217, R222). -/
theorem discoverFrom_reaches {s : State} {c : Nat} (h : SfdpReaches s c) : ∃ count out u,
    discoverFrom numSfdpComponents 0 [] (beginOp s) = discoverFrom (count + 1) c out u ∧
      IndexReads (beginOp s) (sfdpReadsBefore s c) u := by
  rcases h with rfl | ⟨rfl, hno⟩
  · exact ⟨1, [], beginOp s, rfl, .refl _⟩
  · obtain ⟨u, hfirst, hu⟩ := discoverComponent_of_no_cycle (c := 0) (s := beginOp s) (by decide) fun hf => .inl (hno hf)
    exact ⟨0, _, u, discoverFrom_of_ok hfirst 1 [], hu⟩

/-- The headers of a component that needs an Sfdp cycle (R222). -/
theorem allHeaders_fatal {nph : Nat} {u : State} (h : u.eng.session = .fatal) (hmany : 1 < nph)
    (hfield : u.cfg.hasCycleTypeField = true) (first : SfdpParameterHeader) :
    ∃ cmd, allHeaders nph first u = .ok (.error .hardwareSequencingDisabled, stopped cmd u) := by
  refine ⟨⟨.sfdp, u.cfg.sfdpCycleFla, dbcOf u.cfg.sfdpCycleCount⟩, ?_⟩
  rw [allHeaders, if_pos ⟨hmany, hfield⟩, executeCycle_fatal h]
  rfl

/-- A found component with further headers fails after its three indexed reads (R219 to R222, R228). -/
theorem discoverComponent_fatal {c : Nat} (hc : c < numSfdpComponents) {s : State} (h : s.eng.session = .fatal)
    (hfield : s.cfg.hasCycleTypeField = true) (hfound : SfdpFound s c) (hmany : sfdpHeaders s c ≠ 1) :
    ∃ u cmd, IndexReads s (sfdpHeadReads c) u ∧
      discoverComponent c s = .ok (.error .hardwareSequencingDisabled, stopped cmd u) := by
  obtain ⟨u, hu, heq⟩ := discoverComponent_found hc hfound
  have hlt : 1 < sfdpHeaders s c := by unfold sfdpHeaders at hmany ⊢; omega
  obtain ⟨cmd, hheaders⟩ := allHeaders_fatal (hu.session.trans h) hlt (by rw [hu.cfg, hfield]) (sfdpFirst s c)
  refine ⟨u, cmd, hu, ?_⟩
  rw [heq, hheaders]
  rfl

theorem exec_discoverSfdp_fatal {c : Nat} {s : State} (h : s.eng.session = .fatal)
    (hfield : s.cfg.hasCycleTypeField = true) (hreaches : SfdpReaches s c) (hfound : SfdpFound s c)
    (hmany : sfdpHeaders s c ≠ 1) :
    ∃ u cmd, IndexReads (beginOp s) (sfdpReadsBefore s c ++ sfdpHeadReads c) u ∧
      exec .discoverSfdp s = .next (failedAt cmd u) := by
  have hc : c < numSfdpComponents := by rcases hreaches with rfl | ⟨rfl, -⟩ <;> decide
  obtain ⟨count, out, v, hwalk, hv⟩ := discoverFrom_reaches hreaches
  obtain ⟨hfound', hheaders, -, -⟩ := sfdp_congr (s := s) (t := v) hv.env hv.cfg c
  obtain ⟨u, cmd, hu, hcomponent⟩ := discoverComponent_fatal hc (hv.session.trans h) (by rw [hv.cfg]; exact hfield)
    (hfound'.mpr hfound) (by rwa [hheaders])
  refine ⟨u, cmd, hv.trans hu, ?_⟩
  show finish (discoverFrom numSfdpComponents 0 [] (beginOp s)) = _
  simp only [hwalk, discoverFrom, hcomponent]
  rfl

/-! ### The statement -/

/-- An operation that begins with a cycle fails before any access (R331, R348). -/
theorem exec_fatal_of_cycle_first {i : Instr} {s : State} (h : s.eng.session = .fatal)
    (hi : (∃ k fla dbc, i = cycleInstr k fla dbc ∧ Admitted s k dbc) ∨ (∃ a, i = .erase a) ∨
      (∃ a n, i = .read a n ∧ n ≠ 0) ∨ (i = .readJedecId ∧ s.cfg.hasCycleTypeField = true)) :
    ∃ c u, exec i s = .next (failedAt c u) ∧ u.host.trace = [] ∧ u.eng.session = .fatal ∧ u.ctl = s.ctl ∧
      u.env = s.env := by
  rcases hi with ⟨k, fla, dbc, rfl, hadm⟩ | ⟨a, rfl⟩ | ⟨a, n, rfl, hn⟩ | ⟨rfl, hfield⟩
  · exact ⟨_, beginOp s, (exec_cycleInstr hadm fla).trans (runCycle_fatal h _), rfl, h, rfl, rfl⟩
  · exact ⟨_, beginOp s, (eraseIsOneCycle a s).trans (runCycle_fatal h _), rfl, h, rfl, rfl⟩
  · obtain ⟨c, hrun⟩ := exec_read_fatal h hn
    exact ⟨c, _, hrun, rfl, h, rfl, rfl⟩
  · exact ⟨_, beginOp s, exec_readJedecId_fatal h hfield, rfl, h, rfl, rfl⟩

/-- Settles O19: what each operation leaves is what stood when its first cycle failed. -/
theorem fatalSessionFails : Obligations.FatalSessionFails := by
  refine ⟨fun i s h _ hi => ?_, fun a bs s h hidle hbs => ?_, fun c s h hfield hreaches hfound hmany => ?_⟩
  · obtain ⟨c, u, hrun, htrace, hsession, hctl, henv⟩ := exec_fatal_of_cycle_first h hi
    exact ⟨_, hrun, rfl, htrace, hsession, hctl, henv⟩
  · obtain ⟨c, hrun⟩ := exec_write_fatal (address := a) h hidle hbs
    exact ⟨_, hrun, rfl, rfl, h, rfl, rfl⟩
  · obtain ⟨u, cmd, hu, hrun⟩ := exec_discoverSfdp_fatal h hfield hreaches hfound hmany
    have hlast : (sfdpReadsBefore s c ++ sfdpHeadReads c).getLastD (beginOp s).ctl.ptidx = sfdpIndexOf c 0x1000 := by
      simp [sfdpHeadReads, List.getLastD_eq_getLast?]
    exact ⟨_, hrun, rfl, hu.trace, hu.session.trans h, hlast ▸ hu.ctl, hu.env⟩

end Sys2Proof.Proofs
end

section
/-! PROOFS. 70_reset_and_hazards.md section 4, rule R382: a sequencing write while an earlier cycle stays in flight. Each
operation that comes to one begins with it, or comes to it through accesses that leave the cycle in flight; so it ends in the
fault, whatever it would have done after. -/

namespace Sys2Proof.Proofs

open Sys2Proof.Machine Sys2Proof.Laws

/-- The check has passed, and an earlier cycle is in flight that will not end before a sequencing write (R382). -/
structure Blocked (s : State) : Prop where
  session : s.eng.session = .enabled
  stays : ∃ c, s.ctl.inflight = some c ∧ c.draw.drains = false

section
variable {s : State} (h : Blocked s)
include h

/-! ### One write and one cycle -/

theorem regWrite_blocked {r : Reg} (hr : sequencing r = true) (v : Word) : regWrite r v s = .error .cycleInFlight := by
  obtain ⟨c, hflight, hdrains⟩ := h.stays
  rw [regWrite, if_pos hr, claimController_fault hflight hdrains]
  rfl

/-- The write of the address is the one that stops a cycle (R152; log entry 8). -/
theorem issueCycle_blocked : issueCycle s = .error .cycleInFlight := by
  have haddr : phaseAddr s = .error .cycleInFlight := regWrite_blocked (s := s.atPhase .addr) ⟨h.session, h.stays⟩ rfl _
  rw [issueCycle, haddr]
  rfl

theorem executeCycle_blocked (c : CycleCommand) : executeCycle c s = .error .cycleInFlight := by
  have hsession : (latchCommand c s).eng.session = .enabled := h.session
  have hcheck : sessionCheck (latchCommand c s) = latchCommand c s := if_neg (by simp [hsession])
  have hissue : issueCycle (latchCommand c s) = .error .cycleInFlight := issueCycle_blocked ⟨h.session, h.stays⟩
  simp only [executeCycle, hcheck, hissue]
  exact if_neg (by simp [hsession])

theorem beginOp_blocked : Blocked (beginOp s) := ⟨h.session, h.stays⟩

theorem runCycle_blocked (c : CycleCommand) : runCycle c s = .fault .cycleInFlight := by
  rw [runCycle, executeCycle_blocked (beginOp_blocked h)]
  rfl

theorem exec_readJedecId_blocked (hfield : s.cfg.hasCycleTypeField = true) :
    exec .readJedecId s = .fault .cycleInFlight := by
  show finish (readJedecOp (beginOp s)) = _
  rw [readJedecOp, beginOp_cfg, if_pos hfield, executeCycle_blocked (beginOp_blocked h)]
  rfl

/-! ### Transfers -/

theorem readBurst_blocked (k : Nat) : readBurst k s = .error .cycleInFlight := by
  rw [readBurst, executeCycle_blocked h]
  rfl

/-- The write of slot 0 is the one that stops a write burst (R189; log entry 8). -/
theorem writeBurstOf_blocked (k : Nat) : writeBurstOf k s = .error .cycleInFlight := by
  rw [writeBurstOf, regWrite_blocked h rfl]
  rfl

end

/-- A plan of at least one byte comes to a burst, full or final (R182). -/
theorem runPlan_of_burst_faults {burst : Nat → State → Except Fault (Bool × State)} {length : Nat} {f : Fault} {u : State}
    (hlength : length ≠ 0) (hn : u.eng.n = length / u.eng.burst) (hr : u.eng.r = length % u.eng.burst)
    (hfault : ∀ k, burst k u = .error f) : runPlan burst u = .error f := by
  cases hfull : u.eng.n with
  | zero =>
    have hfinal : u.eng.r ≠ 0 := fun h0 => hlength <| by
      rw [← Nat.div_add_mod length u.eng.burst, ← hn, ← hr, hfull, h0, Nat.mul_zero]
    simp only [runPlan, hfull, runBursts, if_neg hfinal, hfault]
  | succ n => simp only [runPlan, hfull, runBursts, hfault]

theorem exec_read_blocked {s : State} (h : Blocked s) (address : Word) {length : Word} (hlength : length ≠ 0) :
    exec (.read address length) s = .fault .cycleInFlight := by
  have hpos : length.toNat ≠ 0 := fun h0 => hlength (BitVec.eq_of_toNat_eq h0)
  have hbegun : Blocked (readBegun address length s) := ⟨h.session, h.stays⟩
  have hplan := runPlan_of_burst_faults hpos rfl rfl (readBurst_blocked hbegun)
  show finish ((runPlan readBurst (readBegun address length s)).map _) = _
  rw [hplan]
  rfl

theorem exec_write_blocked {s : State} (h : Blocked s) (address : Word) {bytes : List Byte} (hbytes : bytes ≠ []) :
    exec (.write address bytes) s = .fault .cycleInFlight := by
  have hbegun : Blocked (writeBegun address bytes s) := ⟨h.session, h.stays⟩
  have hplan := runPlan_of_burst_faults (mt List.eq_nil_of_length_eq_zero hbytes) rfl rfl (writeBurstOf_blocked hbegun)
  show finish ((runPlan writeBurstOf (writeBegun address bytes s)).map _) = _
  rw [hplan]
  rfl

/-! ### `DISCOVER_SFDP` -/

/-- Indexed reads sample no status, so the cycle stays in flight (R46, R218). -/
theorem IndexReads.blocked {s t : State} {is : List Word} (hreads : IndexReads s is t) (h : Blocked s) : Blocked t where
  session := hreads.session.trans h.session
  stays := by rw [hreads.ctl]; exact h.stays

/-- A found component with further headers comes to its Sfdp cycle (R222). -/
theorem discoverComponent_blocked {c : Nat} (hc : c < numSfdpComponents) {s : State} (h : Blocked s)
    (hfield : s.cfg.hasCycleTypeField = true) (hfound : SfdpFound s c) (hmany : sfdpHeaders s c ≠ 1) :
    discoverComponent c s = .error .cycleInFlight := by
  obtain ⟨u, hu, heq⟩ := discoverComponent_found hc hfound
  have hlt : 1 < sfdpHeaders s c := by unfold sfdpHeaders at hmany ⊢; omega
  rw [heq, allHeaders, if_pos ⟨hlt, by rw [hu.cfg, hfield]⟩, executeCycle_blocked (hu.blocked h)]
  rfl

theorem exec_discoverSfdp_blocked {c : Nat} {s : State} (h : Blocked s) (hfield : s.cfg.hasCycleTypeField = true)
    (hreaches : SfdpReaches s c) (hfound : SfdpFound s c) (hmany : sfdpHeaders s c ≠ 1) :
    exec .discoverSfdp s = .fault .cycleInFlight := by
  have hc : c < numSfdpComponents := by rcases hreaches with rfl | ⟨rfl, -⟩ <;> decide
  obtain ⟨count, out, v, hwalk, hv⟩ := discoverFrom_reaches hreaches
  obtain ⟨hfound', hheaders, -, -⟩ := sfdp_congr (s := s) (t := v) hv.env hv.cfg c
  have hcomponent := discoverComponent_blocked hc (hv.blocked (beginOp_blocked h)) (by rw [hv.cfg]; exact hfield)
    (hfound'.mpr hfound) (by rwa [hheaders])
  show finish (discoverFrom numSfdpComponents 0 [] (beginOp s)) = _
  simp only [hwalk, discoverFrom, hcomponent]
  rfl

/-! ### The statement -/

/-- Settles O20: each operation comes to a write of the address or of slot 0, and the cycle in flight stops it there. -/
theorem busyControllerFaults : Obligations.BusyControllerFaults := by
  intro s c hflight hdrains hsession
  have h : Blocked s := ⟨hsession, c, hflight, hdrains⟩
  exact ⟨fun _ fla _ hadm => (exec_cycleInstr hadm fla).trans (runCycle_blocked h _),
    fun a => (eraseIsOneCycle a s).trans (runCycle_blocked h _),
    fun a _ hlength => exec_read_blocked h a hlength,
    fun a _ hbytes => exec_write_blocked h a hbytes,
    fun hfield => ⟨exec_readJedecId_blocked h hfield, fun _ => exec_discoverSfdp_blocked h hfield⟩⟩

end Sys2Proof.Proofs
end

section
/-! PROOFS. 70_reset_and_hazards.md sections 1 and 3: reset (R371), and a step that runs no operation (R58, R380). -/

namespace Sys2Proof.Proofs

open Sys2Proof.Machine Sys2Proof.Laws

/-- Settles O8: reset puts `Engine.reset` in place, clears the result and the trace, and passes the rest on. -/
theorem resetEngineState : Obligations.ResetEngineState := fun _ =>
  ⟨rfl, rfl, rfl, rfl, rfl, rfl, rfl, rfl, rfl, rfl, rfl, rfl, rfl, rfl, rfl⟩

theorem step_of_nothing_pending {s : State} (hpending : s.host.pending = []) : step s = .next s := by
  have htake : takeCommand s = none := by simp only [takeCommand, hpending]
  rw [step, htake]

/-- A busy engine refuses a command without decoding it (R380). -/
theorem step_of_busy {s : State} {c : Command} {rest : List Command} (hpending : s.host.pending = c :: rest)
    (hbusy : s.eng.busy = true) : step s = .next (refuseBusy (s.modHost fun p => { p with pending := rest })) := by
  simp only [step, takeCommand_of_pending hpending, modHost_eng, hbusy]
  rfl

/-- Settles O7: the refusal touches the result only. -/
theorem stepWaitsOrRefuses : Obligations.StepWaitsOrRefuses :=
  ⟨fun _ hpending => step_of_nothing_pending hpending, fun _ _ _ hpending hbusy =>
    ⟨_, step_of_busy hpending hbusy, rfl, rfl, rfl, rfl, rfl, rfl, rfl⟩⟩

end Sys2Proof.Proofs
end

section
/-! PROOFS. 70_reset_and_hazards.md section 4, rule R383: what `Ok` says of a cycle is that it ended in time without an error
bit. The environment may draw such a cycle that stores nothing (U5), and a `WRITE` of such cycles returns `Ok` over a flash
that is what it was. -/

namespace Sys2Proof.Proofs

open Sys2Proof.Machine Sys2Proof.Laws

/-- A cycle that ends at once without an error bit and changes no byte of flash (U5). -/
def ineffectiveDraw : CycleDraw :=
  { delay := some 0, drains := false, fcerr := false, ael := false, fcerrAfterClear := false, aelAfterClear := false
    effect := .departs [] [], residue := [], erased := [], erasedFill := 0xFF, secondComponent := false }

/-- Whatever its kind, a cycle that departs from R48 and leaves no bytes behind changes no flash. -/
theorem flashAfter_departs_nothing {c : InFlight} {bytes : List Byte} (h : c.draw.effect = .departs [] bytes) (s : State) :
    flashAfter c s = s.env.flash := by
  cases hkind : c.kind with
  | none => simp only [flashAfter, h, hkind, Memory.putCells]
  | some k => cases k <;> simp only [flashAfter, h, hkind, Memory.putCells]

/-- The bursts of a transfer have left flash alone, and the controller idle. -/
structure FlashLeft (s u : State) : Prop where
  idle : u.ctl.inflight = none
  flash : u.env.flash = s.env.flash

theorem writeLeft_flashLeft {s u : State} (hq : FlashLeft s u) (hd : u.cycleDraw = ineffectiveDraw) (x : Transfer) (i : Nat) :
    FlashLeft s (writeLeft x i u) := by
  generalize hp : packed (x.size i) u = p
  have hpidle : p.ctl.inflight = none := by rw [← hp]; exact packed_inflight _ u
  have hpflash : p.env.flash = u.env.flash := by rw [← hp, packed, settled_of_idle hq.idle]; rfl
  have hpd : p.cycleDraw = ineffectiveDraw := by rw [← hp, packed_cycleDraw, hd]
  have hin : p.cycleDraw.inTime = true := by rw [hpd]; rfl
  have heffect : (latched (x.command i) p).draw.effect = .departs [] [] := congrArg CycleDraw.effect hpd
  rw [writeLeft, hp, burstLeft_of_success (by rw [hpd]; rfl)]
  refine ⟨ran_inflight hin _, (ran_flash hpidle hin _).trans ?_⟩
  rw [flashAfter_departs_nothing heffect, hpflash, hq.flash]

/-- A `WRITE` whose cycles all draw `ineffectiveDraw` returns `Ok` and leaves flash as it was. -/
theorem exec_write_ineffective {address : Word} {bytes : List Byte} {s : State} (hcfg : s.cfg.wellFormed = true)
    (hready : Ready s) (hdraws : ∀ i < (writeTransfer address bytes).cycles, s.nthDraw i = ineffectiveDraw) :
    ∃ t, exec (.write address bytes) s = .next t ∧ t.host.result = some (.ok .nothing) ∧ t.env.flash = s.env.flash := by
  obtain ⟨t, hrun, -, hq⟩ := exec_write_transfer (address := address) (bytes := bytes) (Q := fun _ u => FlashLeft s u) rfl
    hcfg hready (fun i hi => by rw [hdraws i (by omega)]; rfl)
    (fun u hctl henv => ⟨by rw [hctl, hready.1], by rw [henv]⟩)
    fun i u hi h _ hq => writeLeft_flashLeft hq (h.cycleDraw.trans (hdraws i hi)) _ i
  have hnone : firstError s (writeTransfer address bytes).cycles = none := by
    have hall : ((List.range (writeTransfer address bytes).cycles).filterMap fun i => (s.nthDraw i).outcome) = [] :=
      List.filterMap_eq_nil_iff.mpr fun i hi => by rw [hdraws i (List.mem_range.mp hi)]; rfl
    rw [firstError, hall]
    rfl
  rw [hnone] at hrun
  exact ⟨_, hrun, rfl, hq.flash⟩

/-- The machine right after reset, whose next cycle stores nothing. -/
def ineffectiveNext : State := State.reset.modEnv fun e => { e with cycleDraws := [ineffectiveDraw] }

theorem ineffectiveNext_inv : MachineInv ineffectiveNext :=
  ⟨rfl, Nat.zero_le _, Nat.zero_lt_succ _, rfl, (by decide : maskFla 0 = 0), (by decide : LegalIndex 0),
    (by decide : LegalSlot none)⟩

/-- Settles O31: one byte is one burst, its cycle draws `ineffectiveDraw`, and an empty flash reads 0xFF. -/
theorem okDoesNotMeanWritten : Obligations.OkDoesNotMeanWritten := by
  have hready : Ready ineffectiveNext := by decide
  have hdraws : ∀ i < (writeTransfer 0 [0xAB]).cycles, ineffectiveNext.nthDraw i = ineffectiveDraw := by
    intro i hi
    have hfirst : i = 0 := Nat.lt_one_iff.mp hi
    rw [hfirst]
    rfl
  obtain ⟨t, hrun, hresult, hflash⟩ := exec_write_ineffective (s := ineffectiveNext) (by decide) hready hdraws
  refine ⟨_, t, ineffectiveNext_inv, hready, hrun, hresult, ?_⟩
  rw [hflash]
  decide

end Sys2Proof.Proofs
end

section
/-! PROOFS. 30_encoding.md: the decoder and the encoder are inverse to each other on well-formed operations (R114, R132,
R136), but for the byte count of an Erase cycle, which the decoder ignores (R166). Each check of the decoder is an `↔`, so that
the two directions read the same facts. -/

namespace Sys2Proof.Proofs

open Sys2Proof.Machine Sys2Proof.Laws

/-! ### The decoder's checks -/

theorem checks_ok_iff {arg : Byte} {address length n : Word} {p : List Byte} {i j : Instr} :
    (checkUnused arg address length i).bind (checkPayload n p) = .ok j ↔
      (arg = 0 ∧ address = 0 ∧ length = 0) ∧ p.length = n.toNat ∧ i = j := by
  constructor
  · intro h
    obtain ⟨rfl, rfl, rfl⟩ := unused_of_checks h
    have hpayload : checkPayload n p i = .ok j := h
    unfold checkPayload at hpayload
    split at hpayload
    · cases hpayload
    next hlen => exact ⟨⟨rfl, rfl, rfl⟩, not_not.mp hlen, Except.ok.inj hpayload⟩
  · rintro ⟨⟨rfl, rfl, rfl⟩, hlen, rfl⟩
    exact if_neg (not_not.mpr hlen)

theorem checkByteCount_ok_iff {dbc : Byte} {i j : Instr} : checkByteCount dbc i = .ok j ↔ dbc.toNat ≤ 63 ∧ i = j := by
  unfold checkByteCount
  split
  · next h => simp [h]
  · next h => simp [not_lt.mp h]

/-! ### Word 0 of a frame -/

/-- Word 0 with these two bytes and its reserved bits 0 (R132). -/
def frameWord (op arg : Byte) : Word := Word.ofBytes op arg 0 0

@[simp] theorem frameWord_op (op arg : Byte) : (frameWord op arg).byte 0 = op := byte_ofBytes_zero ..

@[simp] theorem frameWord_arg (op arg : Byte) : (frameWord op arg).byte 1 = arg := byte_ofBytes_one ..

@[simp] theorem frameWord_reserved (op arg : Byte) : frameWord op arg >>> 16 = 0 := by
  apply BitVec.eq_of_getLsbD_eq
  intro i hi
  rw [BitVec.getLsbD_ushiftRight, frameWord, getLsbD_ofBytes, if_neg (by omega), if_neg (by omega)]
  split <;> simp

/-- A word whose reserved bits are 0 is its two lower bytes. -/
theorem eq_frameWord {w : Word} (h : w >>> 16 = 0) : w = frameWord (w.byte 0) (w.byte 1) := by
  have hbit (n : Nat) (hn : 16 ≤ n) : w.getLsbD n = false := by
    have hshift : (w >>> 16).getLsbD (n - 16) = false := by rw [h]; simp
    rwa [BitVec.getLsbD_ushiftRight, Nat.add_sub_cancel' hn] at hshift
  have hzero (k : Nat) (hk : 2 ≤ k) : w.byte k = 0 := by
    apply BitVec.eq_of_getLsbD_eq
    intro i _
    rw [getLsbD_byte, hbit _ (by omega), Bool.and_false, BitVec.ofNat_eq_ofNat, BitVec.getLsbD_zero]
  calc w = Word.ofBytes (w.byte 0) (w.byte 1) (w.byte 2) (w.byte 3) := (ofBytes_byte w).symm
    _ = frameWord (w.byte 0) (w.byte 1) := by rw [hzero 2 (by omega), hzero 3 (by omega), frameWord]

/-- The encoder's word 0 of an operation with an argument. -/
theorem or_shiftLeft_eq_frameWord (op arg : Byte) : op.setWidth 32 ||| (arg.setWidth 32 <<< 8) = frameWord op arg := by
  apply BitVec.eq_of_getLsbD_eq
  intro i hi
  rw [BitVec.getLsbD_or, BitVec.getLsbD_setWidth, BitVec.getLsbD_shiftLeft, BitVec.getLsbD_setWidth, frameWord, getLsbD_ofBytes]
  by_cases h8 : i < 8
  · simp [hi, h8]
  · have hop : op.getLsbD i = false := BitVec.getLsbD_of_ge _ _ (by omega)
    by_cases h16 : i < 16
    · simp [hi, h8, h16, hop]
      omega
    · have harg : arg.getLsbD (i - 8) = false := BitVec.getLsbD_of_ge _ _ (by omega)
      simp [h8, h16, hop, harg]

/-! ### Decoding an encoding -/

theorem decode_cycleImage (cyc dbc : Byte) (fla : Word) : decode (cycleImage cyc dbc fla) = decodeCycle cyc dbc fla := by
  simp only [decode, cycleImage, ofBytes_byte]

/-- A payload that fits the frame's length word is as long as that word says (R132, R133). -/
theorem payload_length {p : List Byte} (h : p.length < 2 ^ 32) : p.length = (BitVec.ofNat 32 p.length).toNat := by
  rw [BitVec.toNat_ofNat, Nat.mod_eq_of_lt h]

theorem encode_readRegion (id : Byte) : encode (.readRegion id) = .frame [frameWord 0x07 id, 0, 0] [] :=
  congrArg (fun w0 => Command.frame [w0, 0, 0] []) (or_shiftLeft_eq_frameWord 0x07 id)

theorem encode_readProtectedRange (index : Byte) :
    encode (.readProtectedRange index) = .frame [frameWord 0x08 index, 0, 0] [] :=
  congrArg (fun w0 => Command.frame [w0, 0, 0] []) (or_shiftLeft_eq_frameWord 0x08 index)

theorem decodeFrame_readRegion {arg : Byte} (h : arg.toNat ≤ 11) (w1 w2 : Word) (p : List Byte) :
    decodeFrame (frameWord 0x07 arg) w1 w2 p = (checkUnused 0 w1 w2 (.readRegion arg)).bind (checkPayload 0 p) := by
  simp [decodeFrame, not_lt.mpr h]

theorem decodeFrame_readProtectedRange {arg : Byte} (h : arg.toNat ≤ 4) (w1 w2 : Word) (p : List Byte) :
    decodeFrame (frameWord 0x08 arg) w1 w2 p = (checkUnused 0 w1 w2 (.readProtectedRange arg)).bind (checkPayload 0 p) := by
  simp [decodeFrame, not_lt.mpr h]

/-- Settles O1, by the operation: a cycle's image gives back its bytes, a frame's word 0 selects the arm that built it, and the
operand ranges of R136 pass the arm's checks. -/
theorem decodeOfEncode : Obligations.DecodeOfEncode := by
  intro i hi
  cases i with
  | cycleRead fla dbc | cycleWrite fla dbc | cycleSfdp fla dbc | cycleJedecid fla dbc =>
    have hcount : dbc.toNat ≤ 63 := of_decide_eq_true hi
    exact (decode_cycleImage _ dbc fla).trans (checkByteCount_ok_iff.mpr ⟨hcount, rfl⟩)
  | cycleErase fla => exact decode_cycleImage 0x07 0 fla
  | write address bytes | parse bytes =>
    exact checks_ok_iff.mpr ⟨⟨rfl, rfl, rfl⟩, payload_length (of_decide_eq_true hi), rfl⟩
  | readRegion id =>
    rw [encode_readRegion]
    exact (decodeFrame_readRegion (of_decide_eq_true hi) 0 0 []).trans
      (checks_ok_iff.mpr ⟨⟨rfl, rfl, rfl⟩, rfl, rfl⟩)
  | readProtectedRange index =>
    rw [encode_readProtectedRange]
    exact (decodeFrame_readProtectedRange (of_decide_eq_true hi) 0 0 []).trans
      (checks_ok_iff.mpr ⟨⟨rfl, rfl, rfl⟩, rfl, rfl⟩)
  | read address length | erase address | readJedecId | discoverSfdp | disableBiosWp => rfl

/-! ### Encoding what was decoded -/

/-- The length word of a payload it agrees with (R133). -/
theorem length_word {w : Word} {p : List Byte} (h : p.length = w.toNat) : w = BitVec.ofNat 32 p.length := by
  rw [h, BitVec.ofNat_toNat, BitVec.setWidth_eq]

/-- A frame that decodes is the one encoding of a well-formed operation: the arm names word 0's byte 0, its checks the rest. -/
theorem encode_of_decodeFrame {w0 w1 w2 : Word} {p : List Byte} {i : Instr} (h : decodeFrame w0 w1 w2 p = .ok i) :
    i.wellFormed = true ∧ .frame [w0, w1, w2] p = encode i := by
  unfold decodeFrame at h
  dsimp only at h
  split at h
  · cases h
  next hreserved =>
  have hword {op : Byte} (hop : (w0.byte 0).toNat = op.toNat) : w0 = frameWord op (w0.byte 1) :=
    BitVec.eq_of_toNat_eq hop ▸ eq_frameWord (not_not.mp hreserved)
  have hwordZero {op : Byte} (hop : (w0.byte 0).toNat = op.toNat) (harg : w0.byte 1 = 0) : w0 = frameWord op 0 :=
    harg ▸ hword hop
  split at h
  case h_10 => cases h
  case h_7 hop =>
    split at h
    · cases h
    next hid =>
    obtain ⟨⟨-, rfl, rfl⟩, hlen, rfl⟩ := checks_ok_iff.mp h
    rw [encode_readRegion, ← hword (op := 7) hop, List.length_eq_zero_iff.mp hlen]
    exact ⟨decide_eq_true (not_lt.mp hid), rfl⟩
  case h_8 hop =>
    split at h
    · cases h
    next hindex =>
    obtain ⟨⟨-, rfl, rfl⟩, hlen, rfl⟩ := checks_ok_iff.mp h
    rw [encode_readProtectedRange, ← hword (op := 8) hop, List.length_eq_zero_iff.mp hlen]
    exact ⟨decide_eq_true (not_lt.mp hindex), rfl⟩
  case h_2 hop =>
    obtain ⟨⟨harg, -, -⟩, hlen, rfl⟩ := checks_ok_iff.mp h
    rw [hwordZero (op := 2) hop harg, length_word hlen]
    exact ⟨decide_eq_true (hlen ▸ w2.isLt), rfl⟩
  case h_6 hop =>
    obtain ⟨⟨harg, rfl, -⟩, hlen, rfl⟩ := checks_ok_iff.mp h
    rw [hwordZero (op := 6) hop harg, length_word hlen]
    exact ⟨decide_eq_true (hlen ▸ w2.isLt), rfl⟩
  case h_1 hop =>
    obtain ⟨⟨harg, -, -⟩, hlen, rfl⟩ := checks_ok_iff.mp h
    rw [hwordZero (op := 1) hop harg, List.length_eq_zero_iff.mp hlen]
    exact ⟨rfl, rfl⟩
  case h_3 hop =>
    obtain ⟨⟨harg, -, rfl⟩, hlen, rfl⟩ := checks_ok_iff.mp h
    rw [hwordZero (op := 3) hop harg, List.length_eq_zero_iff.mp hlen]
    exact ⟨rfl, rfl⟩
  case h_4 hop =>
    obtain ⟨⟨harg, rfl, rfl⟩, hlen, rfl⟩ := checks_ok_iff.mp h
    rw [hwordZero (op := 4) hop harg, List.length_eq_zero_iff.mp hlen]
    exact ⟨rfl, rfl⟩
  case h_5 hop =>
    obtain ⟨⟨harg, rfl, rfl⟩, hlen, rfl⟩ := checks_ok_iff.mp h
    rw [hwordZero (op := 5) hop harg, List.length_eq_zero_iff.mp hlen]
    exact ⟨rfl, rfl⟩
  case h_9 hop =>
    obtain ⟨⟨harg, rfl, rfl⟩, hlen, rfl⟩ := checks_ok_iff.mp h
    rw [hwordZero (op := 9) hop harg, List.length_eq_zero_iff.mp hlen]
    exact ⟨rfl, rfl⟩

/-- The same for a cycle image; the byte count of an Erase cycle is not looked at (R166). -/
theorem encode_of_decodeCycle {cyc dbc : Byte} {fla : Word} {i : Instr} (h : decodeCycle cyc dbc fla = .ok i) :
    i.wellFormed = true ∧
      (cycleImage cyc dbc fla = encode i ∨
        ∃ fla' dbc', i = .cycleErase fla' ∧ cycleImage cyc dbc fla = cycleImage 0x07 dbc' fla') := by
  unfold decodeCycle at h
  split at h
  case h_6 => cases h
  case h_3 hcyc =>
    obtain rfl : cyc = 0x07 := BitVec.eq_of_toNat_eq hcyc
    obtain rfl := Except.ok.inj h
    exact ⟨rfl, .inr ⟨fla, dbc, rfl, rfl⟩⟩
  case h_1 hcyc =>
    obtain rfl : cyc = 0x01 := BitVec.eq_of_toNat_eq hcyc
    obtain ⟨hcount, rfl⟩ := checkByteCount_ok_iff.mp h
    exact ⟨decide_eq_true hcount, .inl rfl⟩
  case h_2 hcyc =>
    obtain rfl : cyc = 0x05 := BitVec.eq_of_toNat_eq hcyc
    obtain ⟨hcount, rfl⟩ := checkByteCount_ok_iff.mp h
    exact ⟨decide_eq_true hcount, .inl rfl⟩
  case h_4 hcyc =>
    obtain rfl : cyc = 0x0B := BitVec.eq_of_toNat_eq hcyc
    obtain ⟨hcount, rfl⟩ := checkByteCount_ok_iff.mp h
    exact ⟨decide_eq_true hcount, .inl rfl⟩
  case h_5 hcyc =>
    obtain rfl : cyc = 0x0D := BitVec.eq_of_toNat_eq hcyc
    obtain ⟨hcount, rfl⟩ := checkByteCount_ok_iff.mp h
    exact ⟨decide_eq_true hcount, .inl rfl⟩

/-- Settles O3: a command that decodes has three words or six bytes, and its bytes are those of `encode_of_decodeFrame` and
`encode_of_decodeCycle`. -/
theorem decodedIsEncoded : Obligations.DecodedIsEncoded := by
  intro c i h
  unfold decode at h
  split at h
  · exact (encode_of_decodeFrame h).imp_right .inl
  · cases h
  · next c d a0 a1 a2 a3 =>
    have himage : Command.cycle [c, d, a0, a1, a2, a3] = cycleImage c d (Word.ofBytes a0 a1 a2 a3) := by
      simp [cycleImage]
    exact himage ▸ encode_of_decodeCycle h
  · cases h

/-- Settles O2: the decoder evaluates on each word. -/
theorem specWordsDecode : Obligations.SpecWordsDecode := ⟨rfl, rfl, rfl, rfl, rfl, rfl⟩

end Sys2Proof.Proofs
end

section
/-! PROOFS. The invariant between two steps (R22, R24, R29, R31, R78, R117): the engine's half follows from what a run does to
the latches (`Runs.engStep`) and from delivery, the half behind the port is an induction over the moves of a run. -/

namespace Sys2Proof.Proofs

open Sys2Proof.Machine Sys2Proof.Laws

/-- Settles O9: the reset state evaluates to one that meets each clause. -/
theorem resetInvariant : Obligations.ResetInvariant :=
  ⟨rfl, by decide, by decide, rfl, rfl, rfl, fun _ hc => by cases hc⟩

/-! ### The half behind the Register Port -/

/-- The accesses that keep it: a masked address, a legal index, and no 1-byte write but of the control and status registers. -/
def LegalAccess : Event → Prop
  | .write .addr v => maskFla v = v
  | .write .ptidx v => LegalIndex v
  | .write8 .ctl _ _ => True
  | .write8 .sts _ _ => True
  | .write8 _ _ _ => False
  | _ => True

theorem legal_of_cycleAccess {cfg : Config} {k : CycleKind} {e : Event} (h : CycleAccess cfg k e) : LegalAccess e := by
  match e, h with
  | .write .addr _, h => exact h
  | .write .sts _, _ => trivial
  | .write8 .ctl _ _, _ => trivial
  | .write8 .sts _ _, _ => trivial

/-- Every operation makes legal accesses only. -/
theorem legal_of_opAccess {cfg : Config} {i : Instr} {e : Event} (h : OpAccess cfg i e) : LegalAccess e := by
  cases i with
  | write a bs =>
    rcases h with h | ⟨v, rfl⟩
    · exact legal_of_cycleAccess h
    · trivial
  | discoverSfdp =>
    rcases h with h | h
    · exact legal_of_cycleAccess h
    · match e, h with
      | .write .ptidx _, h => exact h
  | disableBiosWp =>
    rcases h with ⟨v, rfl⟩ | rfl
    · trivial
    · trivial
  | parse _ | readRegion _ | readProtectedRange _ => exact h.elim
  | _ => exact legal_of_cycleAccess h

/-- What `MachineInv` says of the controller and of flash. -/
structure PortInv (s : State) : Prop where
  flashWf : s.env.flash.wf = true
  addrMasked : maskFla s.ctl.addr = s.ctl.addr
  indexLegal : LegalIndex s.ctl.ptidx
  slotLegal : LegalSlot s.ctl.inflight

theorem portInv_of_machineInv {s : State} (h : MachineInv s) : PortInv s :=
  ⟨h.flashWf, h.addrMasked, h.indexLegal, h.slotLegal⟩

section
variable {s t : State}

/-- An update that leaves flash, the two registers and the in-flight slot as they are. -/
theorem PortInv.congr (h : PortInv s) (hflash : t.env.flash = s.env.flash) (haddr : t.ctl.addr = s.ctl.addr)
    (hptidx : t.ctl.ptidx = s.ctl.ptidx) (hslot : t.ctl.inflight = s.ctl.inflight) : PortInv t :=
  ⟨hflash ▸ h.flashWf, haddr ▸ h.addrMasked, hptidx ▸ h.indexLegal, hslot ▸ h.slotLegal⟩

/-- The end of a cycle empties the slot, and flash stays canonical whatever the cycle did to it. -/
theorem PortInv.endCycle (h : PortInv s) (c : InFlight) : PortInv (endCycle c s) :=
  ⟨flashAfter_wf h.flashWf, h.addrMasked, h.indexLegal, fun _ hd => by cases hd⟩

/-- A go write latches a cycle of 1 to 64 bytes, whatever the control register holds. -/
theorem PortInv.startCycle (h : PortInv s) : PortInv (startCycle s) :=
  ⟨h.flashWf, h.addrMasked, h.indexLegal, fun _ hd => by cases hd; exact cycleCount_bounds _ _⟩

theorem PortInv.tickStatus (h : PortInv s) : PortInv (tickStatus s) := by
  unfold Machine.tickStatus
  split
  · exact h
  · next c hc =>
    split
    · exact h
    · exact h.endCycle c
    · exact ⟨h.flashWf, h.addrMasked, h.indexLegal, fun d hd => by cases hd; exact h.slotLegal c hc⟩

theorem PortInv.tick (h : PortInv s) (r : Reg) : PortInv (tick r s) := by
  cases r with
  | sts => exact h.tickStatus
  | biosCtl =>
    have hbios : PortInv (tickBios s) :=
      h.congr (tickBios_flash s) (by rw [tickBios_ctl]) (by rw [tickBios_ctl]) (by rw [tickBios_ctl])
    exact hbios
  | _ => exact h

theorem PortInv.applyWrite {r : Reg} {v : Word} (h : PortInv s) (ha : LegalAccess (.write r v)) :
    PortInv (applyWrite r v s) := by
  cases r with
  | addr => exact ⟨h.flashWf, ha, h.indexLegal, h.slotLegal⟩
  | ptidx => exact ⟨h.flashWf, h.addrMasked, ha, h.slotLegal⟩
  | ctl =>
    have hstored : PortInv (s.modCtl fun c => { c with ctl := v }) := h.congr rfl rfl rfl rfl
    simp only [Machine.applyWrite]
    split
    · exact hstored.startCycle
    · exact hstored
  | _ => exact h.congr rfl rfl rfl rfl

theorem PortInv.applyWrite8 {r : Reg} {k : Nat} {b : Byte} (h : PortInv s) (ha : LegalAccess (.write8 r k b)) :
    PortInv (applyWrite8 r k b s) := by
  cases r with
  | ctl =>
    have hstored : PortInv (s.modCtl fun c => { c with ctl := c.ctl.setByte k b }) := h.congr rfl rfl rfl rfl
    simp only [Machine.applyWrite8]
    split
    · exact hstored.startCycle
    · exact hstored
  | sts => exact h.congr rfl rfl rfl rfl
  | _ => exact ha.elim

/-- Every run of legal accesses keeps it, by the moves it is made of. -/
theorem runs_portInv (hs : PortInv s) (hrun : Runs LegalAccess s t) : PortInv t := by
  induction hrun with
  | refl => exact hs
  | eng _ _ ih => exact ih.congr rfl rfl rfl rfl
  | log _ _ ih => exact ih.congr rfl rfl rfl rfl
  | tick r _ _ ih => exact ih.tick r
  | settle _ _ ih => exact ih.endCycle _
  | write _ ha ih => exact ih.applyWrite ha
  | write8 _ ha ih => exact ih.applyWrite8 ha

/-! ### The operations and the step -/

/-- The invariant looks at neither the configuration nor the host port. -/
theorem machineInv_congr (h : MachineInv s) (heng : t.eng = s.eng) (hctl : t.ctl = s.ctl) (henv : t.env = s.env) :
    MachineInv t :=
  ⟨heng ▸ h.atRest, heng ▸ h.pollBound, heng ▸ h.componentBound, henv ▸ h.flashWf, hctl ▸ h.addrMasked, hctl ▸ h.indexLegal,
    hctl ▸ h.slotLegal⟩

theorem exec_machineInv {i : Instr} (hs : MachineInv s) (h : exec i s = .next t) : MachineInv t := by
  rcases exec_runs h with rfl | ⟨r, u, hrun, rfl, -⟩
  · exact machineInv_congr hs rfl rfl rfl
  · have hbegun : PortInv (beginOp s) := (portInv_of_machineInv hs).congr rfl rfl rfl rfl
    have hport : PortInv u := runs_portInv hbegun (hrun.mono fun _ => legal_of_opAccess)
    obtain ⟨-, hpoll, hcomponent, -⟩ := hrun.engStep
    refine ⟨rfl, ?poll, ?component, hport.flashWf, hport.addrMasked, hport.indexLegal, hport.slotLegal⟩
    case poll => exact hpoll.elim (fun h => h.trans_le hs.pollBound) id
    case component => exact hcomponent.elim (fun h => h.trans_lt hs.componentBound) id

end

/-- Settles O10: a step waits, refuses, or runs an operation (`exec_machineInv`). -/
theorem stepKeepsInvariant : Obligations.StepKeepsInvariant := by
  intro s t hs h
  cases hpending : s.host.pending with
  | nil =>
    rw [step_of_nothing_pending hpending] at h
    cases h
    exact hs
  | cons c rest =>
    simp only [step, takeCommand_of_pending hpending] at h
    split at h
    · cases h
      exact machineInv_congr hs rfl rfl rfl
    · split at h
      · cases h
        exact machineInv_congr hs rfl rfl rfl
      · exact exec_machineInv (s := s.modHost fun p => { p with pending := rest }) (machineInv_congr hs rfl rfl rfl) h

/-- Settles O6: the command is taken, the engine is not busy, and the decoder answers the operation. -/
theorem stepRunsDecoded : Obligations.StepRunsDecoded := by
  intro s c rest i hpending hbusy hdecode
  simp only [step, takeCommand_of_pending hpending, modHost_eng, hbusy, hdecode]
  rfl

end Sys2Proof.Proofs
end

section
/-! PROOFS. 40_cycle_engine.md sections 2 and 3: a presented cycle as a whole (R160), and the check that ends a session
(R151). -/

namespace Sys2Proof.Proofs

open Sys2Proof.Machine Sys2Proof.Laws

/-! ### The cycle as a whole -/

/-- A tight loop in vain has taken all its samples (R155). -/
theorem tightSamples_timeout {d : CycleDraw} (hlate : d.inTime = false) : tightSamples d = pollMax := by
  unfold tightSamples
  split
  · next j hj =>
    have hlt : ¬ j ≤ pollMax := fun hle => absurd ((inTime_iff d).mpr ⟨j, hj, hle⟩) (by simp [hlate])
    omega
  · rfl

theorem afterCycle_addr (c : CycleCommand) (s : State) : (afterCycle c s).ctl.addr = maskFla c.fla := by
  unfold afterCycle
  split <;> rfl

/-- The latches after a presented cycle: at rest, but for the session, the failure flag and the poll counter (R22, R24, R28). -/
theorem afterCycle_eng (c : CycleCommand) (s : State) :
    (afterCycle c s).eng =
      { s.eng.rest with failed := false, session := .enabled, pollCount := tightSamples s.cycleDraw } := by
  have hdraw : (begun c s).cycleDraw = s.cycleDraw := checked_cycleDraw c (beginOp s)
  cases hin : s.cycleDraw.inTime with
  | true => rw [afterCycle, if_pos hin, ← hdraw]; rfl
  | false => rw [afterCycle, if_neg (by simp [hin]), tightSamples_timeout hin]; rfl

/-- An Erase cycle writes no byte count, so its accesses do not depend on one (R153). -/
theorem issueTrace_count (cfg : Config) (k : CycleKind) (fla : Word) (dbc : Byte) :
    issueTrace cfg k fla (if k = .erase then 0 else dbc) = issueTrace cfg k fla dbc := by
  by_cases hk : k = .erase
  · simp only [issueTrace, if_pos hk]
  · rw [if_neg hk]

/-- Settles O14, from the parts of the state `exec_cycle_ready` gives. -/
theorem cycleRuns : Obligations.CycleRuns := by
  intro k fla dbc s hcfg hready hadm
  refine ⟨_, exec_cycle_ready hcfg hready hadm fla, afterCycle_result _ s, ?trace, afterCycle_addr _ s,
    (afterCycle_eng _ s).trans rfl⟩
  case trace => rw [afterCycle_trace hready.1, issueTrace_count, List.append_assoc]

/-! ### The check that fails -/

/-- The state in which a session's first cycle fails the check of R151. -/
def checkFailed (c : CycleCommand) (s : State) : State := (phaseCheck (latchCommand c s)).atPhase .idle

section
variable {s : State} (hidle : s.ctl.inflight = none) (c : CycleCommand)
include hidle

/-- A status sample of an idle controller changes nothing behind the port. -/
theorem regRead_sts_idle : regRead .sts s = (s.regValue .sts, s.log (.read .sts (s.regValue .sts))) := by
  have htick : tick .sts s = s := by simp only [tick, tickStatus, hidle]
  simp only [regRead, htick]

theorem phaseCheck_idle : phaseCheck s =
    (s.log (.read .sts (s.regValue .sts))).modEng fun e => { e with
      pc := .check, stsSample := s.regValue .sts
      session := if descriptorValid s.cfg.sts (s.regValue .sts) then .enabled else .fatal } := by
  have hread := regRead_sts_idle (s := s.atPhase .check) hidle
  simp only [phaseCheck, sampleStatus, hread]
  rfl

theorem executeCycle_checkFails (hsession : s.eng.session = .unchecked)
    (hinvalid : descriptorValid s.cfg.sts (s.regValue .sts) = false) :
    executeCycle c s = .ok (some .hardwareSequencingDisabled, checkFailed c s) := by
  have hcheck : sessionCheck (latchCommand c s) = phaseCheck (latchCommand c s) := if_pos hsession
  have hfatal : (phaseCheck (latchCommand c s)).eng.session = .fatal := by
    rw [phaseCheck_idle (s := latchCommand c s) hidle]
    exact if_neg (by rw [Bool.not_eq_true]; exact hinvalid)
  simp only [executeCycle, hcheck]
  exact if_pos hfatal

end

/-- Settles O18: the operation ends with the check, whose one sample is its one access. -/
theorem disabledSequencingIsFatal : Obligations.DisabledSequencingIsFatal := by
  intro k fla dbc s hsession hidle hadm hinvalid
  generalize hc : (⟨k, fla, if k = .erase then 0 else dbc⟩ : CycleCommand) = c
  have hcycle := executeCycle_checkFails (s := beginOp s) hidle c hsession hinvalid
  have hrun : exec (cycleInstr k fla dbc) s =
      .next (takeError .hardwareSequencingDisabled (checkFailed c (beginOp s))) := by
    rw [exec_cycleInstr hadm, hc, runCycle, hcycle]
    rfl
  refine ⟨_, hrun, rfl, ?_⟩
  rw [checkFailed, phaseCheck_idle (s := latchCommand c (beginOp s)) hidle]
  exact ⟨if_neg (by rw [Bool.not_eq_true]; exact hinvalid), rfl, rfl, rfl⟩

end Sys2Proof.Proofs
end

section
/-! PROOFS. 10_state.md, what the operations that issue cycles leave of the controller's registers (R30, R33, R115), and flash
under the operations that only read (R48): two inductions over the moves of a run. -/

namespace Sys2Proof.Proofs

open Sys2Proof.Machine Sys2Proof.Laws

/-! ### The registers -/

/-- The accesses of the operations that issue cycles. -/
def IssuingAccess (cfg : Config) (e : Event) : Prop :=
  (∃ k, CycleAccess cfg k e) ∨ (∃ i v, e = .write (.data i) v) ∨ PtAccess e

theorem issuingAccess_of_op {cfg : Config} {i : Instr} (hi : issuesCycles i = true) {e : Event} (h : OpAccess cfg i e) :
    IssuingAccess cfg e := by
  cases i with
  | write a bs => exact h.imp (fun h => ⟨_, h⟩) fun ⟨v, hv⟩ => .inl ⟨0, v, hv⟩
  | discoverSfdp => exact h.imp (fun h => ⟨_, h⟩) .inr
  | parse _ | readRegion _ | readProtectedRange _ | disableBiosWp => cases hi
  | _ => exact .inl ⟨_, h⟩

/-- `BIOS_CTL`, the bytes of the control register that no cycle writes, and the status bits that no cycle moves are in `t` what
they were in `s`. -/
structure RegsKept (s t : State) : Prop where
  biosCtl : t.ctl.biosCtl = s.ctl.biosCtl
  biosWeOpen : t.ctl.biosWeOpen = s.ctl.biosWeOpen
  ctlHigh : ∀ n, n / 8 ≠ 0 → n / 8 ≠ s.cfg.ctl.dbcByte → t.ctl.ctl.getLsbD n = s.ctl.ctl.getLsbD n
  stsBits : ∀ n, n ≠ s.cfg.sts.fdone → n ≠ s.cfg.sts.fcerr → n ≠ s.cfg.sts.ael →
    t.ctl.sts.getLsbD n = s.ctl.sts.getLsbD n

/-- The end of a cycle sets completion and error bits only (R46). -/
theorem getLsbD_endStatus_other {l : StsLayout} (d : CycleDraw) (v : Word) {n : Nat} (h1 : n ≠ l.fdone) (h2 : n ≠ l.fcerr)
    (h3 : n ≠ l.ael) : (endStatus l d v).getLsbD n = v.getLsbD n := by
  by_cases hn : n < 32
  · simp [getLsbD_endStatus d v n hn, h1, h2, h3]
  · rw [BitVec.getLsbD_of_ge _ _ (by omega), BitVec.getLsbD_of_ge _ _ (by omega)]

/-- So does the clear write, whatever it writes (R158). -/
theorem getLsbD_clearStatus_other {l : StsLayout} (p v : Word) (a f : Bool) {n : Nat} (h1 : n ≠ l.fdone) (h2 : n ≠ l.fcerr)
    (h3 : n ≠ l.ael) : (clearStatus l p a f v).getLsbD n = v.getLsbD n := by
  by_cases hn : n < 32
  · simp [getLsbD_clearStatus p v a f n hn, h1, h2, h3]
  · rw [BitVec.getLsbD_of_ge _ _ (by omega), BitVec.getLsbD_of_ge _ _ (by omega)]

section
variable {s t : State}

theorem RegsKept.refl (s : State) : RegsKept s s := ⟨rfl, rfl, fun _ _ _ => rfl, fun _ _ _ _ => rfl⟩

/-- An update that leaves the three registers as they are. -/
theorem RegsKept.congr {u : State} (h : RegsKept s t) (hbios : u.ctl.biosCtl = t.ctl.biosCtl)
    (hopen : u.ctl.biosWeOpen = t.ctl.biosWeOpen) (hctl : u.ctl.ctl = t.ctl.ctl) (hsts : u.ctl.sts = t.ctl.sts) :
    RegsKept s u :=
  ⟨hbios.trans h.biosCtl, hopen.trans h.biosWeOpen, hctl ▸ h.ctlHigh, hsts ▸ h.stsBits⟩

theorem RegsKept.endCycle (h : RegsKept s t) (hcfg : t.cfg = s.cfg) (c : InFlight) : RegsKept s (endCycle c t) :=
  ⟨h.biosCtl, h.biosWeOpen, h.ctlHigh, fun n h1 h2 h3 => by
    rw [endCycle_sts, hcfg, getLsbD_endStatus_other _ _ h1 h2 h3, h.stsBits n h1 h2 h3]⟩

theorem RegsKept.clearWrite (h : RegsKept s t) (hcfg : t.cfg = s.cfg) (p : Word) : RegsKept s (clearWrite p t) :=
  ⟨h.biosCtl, h.biosWeOpen, h.ctlHigh, fun n h1 h2 h3 => by
    show (clearStatus t.cfg.sts p _ _ _).getLsbD n = _
    rw [hcfg, getLsbD_clearStatus_other _ _ _ _ h1 h2 h3, h.stsBits n h1 h2 h3]⟩

/-- A 1-byte write of one of the two bytes that steps 2 and 3 write (R153, R154). -/
theorem RegsKept.ctlByte (h : RegsKept s t) {k : Nat} (hk : k = s.cfg.ctl.dbcByte ∨ k = 0) (b : Byte) :
    RegsKept s (t.modCtl fun c => { c with ctl := c.ctl.setByte k b }) :=
  ⟨h.biosCtl, h.biosWeOpen, fun n h1 h2 => by
    rw [modCtl_ctl, getLsbD_setByte, if_neg (by omega), h.ctlHigh n h1 h2], h.stsBits⟩

theorem RegsKept.tick (h : RegsKept s t) (hcfg : t.cfg = s.cfg) {r : Reg} (hr : r ≠ .biosCtl) : RegsKept s (tick r t) := by
  cases r with
  | sts =>
    simp only [Machine.tick, Machine.tickStatus]
    split
    · exact h
    · split
      · exact h
      · exact h.endCycle hcfg _
      · exact h.congr rfl rfl rfl rfl
  | biosCtl => exact absurd rfl hr
  | _ => exact h

theorem RegsKept.applyWrite {r : Reg} {v : Word} (h : RegsKept s t) (hcfg : t.cfg = s.cfg)
    (ha : IssuingAccess s.cfg (.write r v)) : RegsKept s (applyWrite r v t) := by
  rcases ha with ⟨k, ha⟩ | ⟨i, w, hw⟩ | ha
  · cases r with
    | addr => exact h.congr rfl rfl rfl rfl
    | sts => exact h.clearWrite hcfg v
    | _ => exact ha.elim
  · cases hw
    exact h.congr rfl rfl rfl rfl
  · cases r with
    | ptidx => exact h.congr rfl rfl rfl rfl
    | _ => exact ha.elim

theorem RegsKept.applyWrite8 {r : Reg} {j : Nat} {b : Byte} (h : RegsKept s t) (hcfg : t.cfg = s.cfg)
    (ha : IssuingAccess s.cfg (.write8 r j b)) : RegsKept s (applyWrite8 r j b t) := by
  rcases ha with ⟨k, ha⟩ | ⟨_, _, hw⟩ | ha
  · cases r with
    | ctl =>
      have hwritten := h.ctlByte (ha.imp (·.1) (·.1)) b
      simp only [Machine.applyWrite8]
      split
      · exact hwritten.congr rfl rfl rfl rfl
      · exact hwritten
    | sts => exact h.clearWrite hcfg _
    | _ => exact ha.elim
  · cases hw
  · exact ha.elim

theorem not_issuing_biosRead (cfg : Config) : ¬ IssuingAccess cfg (.read .biosCtl 0) := by
  rintro (⟨k, ha⟩ | ⟨_, _, hw⟩ | ha)
  · exact ha
  · cases hw
  · exact ha

theorem runs_regsKept (hrun : Runs (IssuingAccess s.cfg) s t) : RegsKept s t := by
  induction hrun with
  | refl => exact .refl _
  | eng _ _ ih => exact ih.congr rfl rfl rfl rfl
  | log _ _ ih => exact ih.congr rfl rfl rfl rfl
  | tick r hr hbios ih => exact ih.tick hr.cfg fun he => not_issuing_biosRead _ (hbios he)
  | settle hr _ ih => exact ih.endCycle hr.cfg _
  | write hr ha ih => exact ih.applyWrite hr.cfg ha
  | write8 hr ha ih => exact ih.applyWrite8 hr.cfg ha

end

/-! ### The index register -/

/-- The accesses of the operations that make no indexed read. -/
def UnindexedAccess : Event → Prop
  | .write r _ => r ≠ .ptidx
  | .write8 r _ _ => r ≠ .ptidx
  | _ => True

theorem unindexed_of_cycleAccess {cfg : Config} {k : CycleKind} {e : Event} (h : CycleAccess cfg k e) :
    UnindexedAccess e := by
  match e, h with
  | .write .addr _, _ | .write .sts _, _ | .write8 .ctl _ _, _ | .write8 .sts _ _, _ => exact Reg.noConfusion

theorem unindexed_of_op {cfg : Config} {i : Instr} (hi : issuesCycles i = true) (hne : i ≠ .discoverSfdp) {e : Event}
    (h : OpAccess cfg i e) : UnindexedAccess e := by
  cases i with
  | write a bs =>
    rcases h with h | ⟨v, rfl⟩
    · exact unindexed_of_cycleAccess h
    · exact Reg.noConfusion
  | discoverSfdp => exact absurd rfl hne
  | parse _ | readRegion _ | readProtectedRange _ | disableBiosWp => cases hi
  | _ => exact unindexed_of_cycleAccess h

section
variable {s t : State}

theorem tick_ptidx (r : Reg) (s : State) : (tick r s).ctl.ptidx = s.ctl.ptidx := by
  cases r with
  | sts =>
    simp only [tick, tickStatus]
    split
    · rfl
    · split <;> rfl
  | biosCtl => rw [tick, tickBios_ctl]
  | _ => rfl

theorem applyWrite_ptidx {r : Reg} (h : r ≠ .ptidx) (v : Word) (s : State) :
    (applyWrite r v s).ctl.ptidx = s.ctl.ptidx := by
  cases r with
  | ptidx => exact absurd rfl h
  | ctl => simp only [applyWrite]; split <;> rfl
  | _ => rfl

theorem applyWrite8_ptidx {r : Reg} (h : r ≠ .ptidx) (k : Nat) (b : Byte) (s : State) :
    (applyWrite8 r k b s).ctl.ptidx = s.ctl.ptidx := by
  cases r with
  | ctl => simp only [applyWrite8]; split <;> rfl
  | sts => rfl
  | _ => simp only [applyWrite8]; exact applyWrite_ptidx h _ s

theorem runs_ptidx (hrun : Runs UnindexedAccess s t) : t.ctl.ptidx = s.ctl.ptidx := by
  induction hrun with
  | refl => rfl
  | eng _ _ ih => exact ih
  | log _ _ ih => exact ih
  | tick r _ _ ih => exact (tick_ptidx r _).trans ih
  | settle _ _ ih => exact ih
  | write _ ha ih => exact (applyWrite_ptidx ha _ _).trans ih
  | write8 _ ha ih => exact (applyWrite8_ptidx ha _ _ _).trans ih

end

theorem exec_regsKept {i : Instr} {s t : State} (hi : issuesCycles i = true) (h : exec i s = .next t) : RegsKept s t := by
  rcases exec_runs h with rfl | ⟨r, u, hrun, rfl, -⟩
  · exact (RegsKept.refl s).congr rfl rfl rfl rfl
  · have hkept : RegsKept (beginOp s) u := runs_regsKept (hrun.mono fun _ => issuingAccess_of_op hi)
    exact ⟨hkept.biosCtl, hkept.biosWeOpen, hkept.ctlHigh, hkept.stsBits⟩

theorem exec_ptidx {i : Instr} {s t : State} (hi : issuesCycles i = true) (hne : i ≠ .discoverSfdp)
    (h : exec i s = .next t) : t.ctl.ptidx = s.ctl.ptidx := by
  rcases exec_runs h with rfl | ⟨r, u, hrun, rfl, -⟩
  · rfl
  · have hkept : u.ctl.ptidx = (beginOp s).ctl.ptidx := runs_ptidx (hrun.mono fun _ => unindexed_of_op hi hne)
    exact hkept

/-- Settles O26: the fixed part, the registers, the session latch and the index register, each by its own lemma. -/
theorem cycleOperationsFrame : Obligations.CycleOperationsFrame := by
  intro i s t hi h
  obtain ⟨hbios, hopen, hctl, hsts⟩ := exec_regsKept hi h
  obtain ⟨hcfg, hfreg, hpr, hindex, harea0, harea1, hjedec, hpending⟩ := fixedPartKept i s t h
  have hfixed : FixedPart s { t with ctl := { t.ctl with ptidx := s.ctl.ptidx } } :=
    ⟨hcfg, hfreg, hpr, hindex, harea0, harea1, hjedec, hpending⟩
  have hsession : t.eng.session = s.eng.session ∨ s.eng.session = .unchecked := exec_session h
  exact ⟨⟨hfixed, hbios, hopen, rfl, fun n _ => hctl n, hsts, hsession⟩, fun hne => exec_ptidx hi hne h⟩

/-! ### Flash under the operations that only read -/

/-- The kinds that fill the window, where the control register can express them (R114, R167, R168). -/
def IsReading (cfg : Config) (k : CycleKind) : Prop :=
  (k = .read ∨ k = .jedecId ∨ k = .sfdp) ∧ kindAdmitted cfg k = true

/-- The accesses of an operation that issues such cycles only. -/
def ReadingAccess (cfg : Config) (e : Event) : Prop := (∃ k, IsReading cfg k ∧ CycleAccess cfg k e) ∨ PtAccess e

/-- What such an operation keeps along its run: a cycle still in flight only reads, and flash is what it was in `s`. The first
half is what makes the second inductive. -/
structure FlashKept (s t : State) : Prop where
  inflight : ∀ c ∈ t.ctl.inflight, c.kind = some .read ∨ c.kind = some .jedecId ∨ c.kind = some .sfdp
  flash : t.env.flash = s.env.flash

section
variable {s t : State}

theorem flashKept_of_idle (h : s.ctl.inflight = none) : FlashKept s s := ⟨fun c hc => by simp [h] at hc, rfl⟩

/-- An update that leaves the in-flight slot and flash as they are. -/
theorem FlashKept.congr {u : State} (h : FlashKept s t) (hi : u.ctl.inflight = t.ctl.inflight)
    (hf : u.env.flash = t.env.flash) : FlashKept s u := ⟨hi ▸ h.inflight, hf.trans h.flash⟩

theorem FlashKept.endCycle {c : InFlight} (h : FlashKept s t) (hc : c ∈ t.ctl.inflight) : FlashKept s (endCycle c t) :=
  ⟨fun d hd => by simp at hd, (flashAfter_reading (h.inflight c hc)).trans h.flash⟩

/-- A go write of a reading kind starts a reading cycle (R154). -/
theorem FlashKept.startCycle {k : CycleKind} (h : FlashKept s t) (hk : IsReading t.cfg k)
    (hkind : decodeKind t.cfg t.ctl.ctl = if kindAdmitted t.cfg k then some k else none) : FlashKept s (startCycle t) := by
  obtain ⟨hk, hadm⟩ := hk
  rw [if_pos hadm] at hkind
  refine ⟨fun c hc => ?_, h.flash⟩
  cases hc
  simpa [hkind] using hk

theorem FlashKept.tick (r : Reg) (h : FlashKept s t) : FlashKept s (tick r t) := by
  cases r with
  | sts =>
    simp only [Machine.tick, tickStatus]
    split
    · exact h
    · next c hc =>
      split
      · exact h
      · exact h.endCycle hc
      · exact ⟨fun d hd => by cases hd; exact h.inflight c hc, h.flash⟩
  | biosCtl => exact h.congr (by rw [Machine.tick, tickBios_ctl]) (tickBios_flash t)
  | _ => exact h

theorem FlashKept.applyWrite {r : Reg} {v : Word} (h : FlashKept s t) (ha : ReadingAccess t.cfg (.write r v)) :
    FlashKept s (applyWrite r v t) := by
  rcases ha with ⟨k, -, ha⟩ | ha
  · cases r with
    | addr => exact h.congr rfl rfl
    | sts => exact h.congr rfl rfl
    | _ => exact ha.elim
  · cases r with
    | ptidx => exact h.congr rfl rfl
    | _ => exact ha.elim

theorem FlashKept.applyWrite8 {r : Reg} {j : Nat} {b : Byte} (hcfg : t.cfg.wellFormed = true) (h : FlashKept s t)
    (ha : ReadingAccess t.cfg (.write8 r j b)) : FlashKept s (applyWrite8 r j b t) := by
  rcases ha with ⟨k, hk, ha⟩ | ha
  · cases r with
    | ctl =>
      have hwritten : FlashKept s (t.modCtl fun c => { c with ctl := c.ctl.setByte j b }) := h.congr rfl rfl
      simp only [Machine.applyWrite8]
      split
      · next hgo =>
        rcases ha with ⟨rfl, -⟩ | ⟨rfl, rfl⟩
        · exact absurd hgo (byteWrite_condition hcfg b)
        · exact hwritten.startCycle hk (decodeKind_cycByte hcfg k _)
      · exact hwritten
    | sts => exact h.congr rfl rfl
    | _ => exact ha.elim
  · exact ha.elim

theorem runs_flashKept (hcfg : s.cfg.wellFormed = true) (hi : s.ctl.inflight = none)
    (hrun : Runs (ReadingAccess s.cfg) s t) : FlashKept s t := by
  induction hrun with
  | refl => exact flashKept_of_idle hi
  | eng _ _ ih => exact ih.congr rfl rfl
  | log _ _ ih => exact ih.congr rfl rfl
  | tick r _ _ ih => exact ih.tick r
  | settle _ hc ih => exact ih.endCycle hc
  | write hr ha ih => exact ih.applyWrite (by rwa [hr.cfg])
  | write8 hr ha ih => exact ih.applyWrite8 (by rwa [hr.cfg]) (by rwa [hr.cfg])

end

/-- An operation with such accesses only, refused or run, keeps flash. -/
theorem exec_keeps_flash {i : Instr} {s t : State} (hcfg : s.cfg.wellFormed = true) (hi : s.ctl.inflight = none)
    (ha : ∀ e, OpAccess s.cfg i e → ReadingAccess s.cfg e) (h : exec i s = .next t) : t.env.flash = s.env.flash := by
  rcases exec_runs h with rfl | ⟨r, u, hrun, rfl, -⟩
  · rfl
  · have kept : FlashKept (beginOp s) u := runs_flashKept hcfg hi (hrun.mono ha)
    exact kept.flash

/-- Without the cycle-type field no JedecId or Sfdp cycle is issued, and the environment stays as it is (R167, R168, R211,
R222). -/
theorem exec_env_of_no_field {i : Instr} {s t : State} (hfield : s.cfg.hasCycleTypeField = false)
    (hi : i = .readJedecId ∨ i = .discoverSfdp ∨ ∃ a d, i = .cycleJedecid a d ∨ i = .cycleSfdp a d)
    (h : exec i s = .next t) : t.env = s.env := by
  rcases hi with rfl | rfl | hi
  · obtain ⟨u, hu, -, -, huntouched⟩ := jedecUnsupported s hfield
    cases hu.symm.trans h
    exact huntouched.env
  · obtain ⟨u, hu, -, -, -, henv, -⟩ := sfdpFoundWithoutCycle s fun _ _ _ => .inr hfield
    cases hu.symm.trans h
    exact henv
  · cases (exec_refuses_kind hfield hi).symm.trans h
    rfl

/-- Settles O27: `READ` and `CYCLE.READ` issue Read cycles, which every platform has; the others issue a reading cycle where the
platform has it, and none where it has not. -/
theorem readingLeavesFlash : Obligations.ReadingLeavesFlash := by
  intro i s t hcfg hidle hi h
  have hread : IsReading s.cfg .read := ⟨.inl rfl, rfl⟩
  cases hfield : s.cfg.hasCycleTypeField with
  | true =>
    have hjedec : IsReading s.cfg .jedecId := ⟨.inr (.inl rfl), hfield⟩
    have hsfdp : IsReading s.cfg .sfdp := ⟨.inr (.inr rfl), hfield⟩
    refine exec_keeps_flash hcfg hidle (fun e he => ?_) h
    rcases hi with ⟨a, n, rfl⟩ | ⟨a, d, rfl⟩ | rfl | rfl | ⟨a, d, rfl⟩ | ⟨a, d, rfl⟩
    · exact .inl ⟨_, hread, he⟩
    · exact .inl ⟨_, hread, he⟩
    · exact .inl ⟨_, hjedec, he⟩
    · exact he.imp_left fun he => ⟨_, hsfdp, he⟩
    · exact .inl ⟨_, hsfdp, he⟩
    · exact .inl ⟨_, hjedec, he⟩
  | false =>
    rcases hi with ⟨a, n, rfl⟩ | ⟨a, d, rfl⟩ | rfl | rfl | ⟨a, d, rfl⟩ | ⟨a, d, rfl⟩
    · exact exec_keeps_flash (i := .read a n) hcfg hidle (fun e he => .inl ⟨_, hread, he⟩) h
    · exact exec_keeps_flash (i := .cycleRead a d) hcfg hidle (fun e he => .inl ⟨_, hread, he⟩) h
    · rw [exec_env_of_no_field hfield (.inl rfl) h]
    · rw [exec_env_of_no_field hfield (.inr (.inl rfl)) h]
    · rw [exec_env_of_no_field hfield (.inr (.inr ⟨a, d, .inr rfl⟩)) h]
    · rw [exec_env_of_no_field hfield (.inr (.inr ⟨a, d, .inl rfl⟩)) h]

end Sys2Proof.Proofs
end

section
/-! PROOFS. 40_cycle_engine.md section 6 (R169): the transition table runs the algorithm of R160. `EndsWithin n s r` says that
the table, from `s`, comes to its end `r` in at most `n` phases; each row adds one phase, and each part of the sequential text is
told by the phases it takes. -/

namespace Sys2Proof.Proofs

open Sys2Proof.Machine Sys2Proof.Laws

/-- From `s` every run of at least `n` phases has the outcome `r`. -/
def EndsWithin (n : Nat) (s : State) (r : Except Fault (Option (Option OpError × State))) : Prop :=
  ∀ k, n ≤ k → runPhases k s = r

section
variable {n m : Nat} {s t : State} {r : Except Fault (Option (Option OpError × State))}

theorem EndsWithin.mono (h : EndsWithin n s r) (hle : n ≤ m) : EndsWithin m s r := fun k hk => h k (hle.trans hk)

/-! ### One phase -/

theorem endsWithin_of_goesOn (hstep : phaseStep s = .ok (.goesOn t)) (h : EndsWithin n t r) : EndsWithin (n + 1) s r := by
  intro k hk
  obtain ⟨k, rfl⟩ := Nat.exists_eq_succ_of_ne_zero (by omega : k ≠ 0)
  simp only [runPhases, hstep]
  exact h k (by omega)

theorem endsWithin_of_ends {e : Option OpError} (hstep : phaseStep s = .ok (.ends e t)) :
    EndsWithin 1 s (.ok (some (e, t))) := by
  intro k hk
  obtain ⟨k, rfl⟩ := Nat.exists_eq_succ_of_ne_zero (by omega : k ≠ 0)
  simp only [runPhases, hstep]

theorem endsWithin_of_fault {f : Fault} (hstep : phaseStep s = .error f) : EndsWithin 1 s (.error f) := by
  intro k hk
  obtain ⟨k, rfl⟩ := Nat.exists_eq_succ_of_ne_zero (by omega : k ≠ 0)
  simp only [runPhases, hstep]

/-- A phase that makes one sequencing write: it faults, or the table goes on behind it. -/
theorem endsWithin_of_write {x : Except Fault State} {f : State → State}
    {g : State → Except Fault (Option OpError × State)}
    (hstep : phaseStep s = x.map fun u => .goesOn (f u))
    (h : ∀ u, x = .ok u → EndsWithin n (f u) ((g u).map some)) : EndsWithin (n + 1) s ((x.bind g).map some) := by
  cases x with
  | error e => exact (endsWithin_of_fault hstep).mono (by omega)
  | ok u => exact endsWithin_of_goesOn hstep (h u rfl)

/-! ### Steps 5 and 6 -/

theorem endsWithin_clear (s : State) : EndsWithin 2 (s.atPhase .clear) (.ok (some (phaseVerify (phaseClear s)))) :=
  have hverify : EndsWithin 1 ((phaseClear s).atPhase .verify) (.ok (some (phaseVerify (phaseClear s)))) :=
    endsWithin_of_ends rfl
  endsWithin_of_goesOn rfl hverify

/-! ### Step 4 -/

/-- Steps 5 and 6, or the timeout, behind the answer of step 4 (R157 to R159). -/
def verdictOf (p : Bool × State) : Option OpError × State :=
  if p.1 then phaseVerify (phaseClear p.2) else (some .cycleTimeout, p.2.atPhase .idle)

theorem endsWithin_late (s : State) : EndsWithin 3 (s.atPhase .late) (.ok (some (verdictOf (phaseLate s)))) := by
  have hstep : phaseStep (s.atPhase .late) =
      if (phaseLate s).1 then .ok (.goesOn ((phaseLate s).2.atPhase .clear))
      else .ok (.ends (some .cycleTimeout) ((phaseLate s).2.atPhase .idle)) := rfl
  unfold verdictOf
  split
  · next h => exact endsWithin_of_goesOn (hstep.trans (if_pos h)) (endsWithin_clear _)
  · next h => exact (endsWithin_of_ends (hstep.trans (if_neg h))).mono (by omega)

theorem endsWithin_sleep (s : State) :
    EndsWithin 4 (s.atPhase .sleep) (.ok (some (verdictOf (phaseLate (phaseSleep s))))) :=
  endsWithin_of_goesOn rfl (endsWithin_late (phaseSleep s))

/-- The answer of the tight loop taken to the end of step 4 (R155, R156). -/
def afterLoop (p : Bool × State) : Bool × State := if p.1 then p else phaseLate (phaseSleep p.2)

theorem completeCycle_eq (s : State) : completeCycle s = verdictOf (afterLoop (pollLoop pollMax (startPoll s))) := rfl

theorem atPhase_of_pc {p : Phase} (h : s.eng.pc = p) : s.atPhase p = s := by
  subst h
  rfl

/-- A sample stays in its phase and counts (R24, R155). -/
theorem pollOnce_latches (s : State) :
    (pollOnce s).2.eng.pc = s.eng.pc ∧ (pollOnce s).2.eng.pollCount = s.eng.pollCount + 1 := by
  simp [pollOnce, sampleStatus_latches]

/-- The row of `POLL`, by what the sample shows and whether it was the last (R155). -/
theorem phaseStep_poll (h : s.eng.pc = .poll) : phaseStep s =
    .ok (.goesOn ((pollOnce s).2.atPhase
      (if (pollOnce s).1 then .clear else if (pollOnce s).2.eng.pollCount < pollMax then .poll else .sleep))) := by
  simp only [phaseStep, h]

/-- The tight loop with `n + 1` samples left: that many phases, and the four that may follow. -/
theorem endsWithin_poll : ∀ {n : Nat} {s : State}, s.eng.pc = .poll → s.eng.pollCount + (n + 1) = pollMax →
    EndsWithin (n + 1 + 4) s (.ok (some (verdictOf (afterLoop (pollLoop (n + 1) s)))))
  | n, s, hpc, hcount => by
    obtain ⟨hpc', hcount'⟩ := pollOnce_latches s
    have hstep := phaseStep_poll hpc
    rw [show n + 1 + 4 = n + 4 + 1 by omega, pollLoop]
    by_cases hidle : (pollOnce s).1 = true
    · rw [if_pos hidle] at hstep ⊢
      exact endsWithin_of_goesOn hstep ((endsWithin_clear _).mono (by omega))
    · rw [if_neg hidle] at hstep ⊢
      cases n with
      | zero =>
        rw [if_neg (by omega)] at hstep
        exact endsWithin_of_goesOn hstep (endsWithin_sleep _)
      | succ n =>
        rw [if_pos (by omega), atPhase_of_pc (hpc'.trans hpc)] at hstep
        exact endsWithin_of_goesOn hstep (endsWithin_poll (hpc'.trans hpc) (by omega))

theorem endsWithin_startPoll (s : State) : EndsWithin (pollMax + 4) (startPoll s) (.ok (some (completeCycle s))) := by
  rw [completeCycle_eq]
  exact endsWithin_poll (n := pollMax - 1) (s := startPoll s) rfl rfl

/-! ### Steps 1 to 3 -/

/-- Step 3 (R154), and the rest of the cycle. -/
theorem endsWithin_go (s : State) :
    EndsWithin (pollMax + 5) (s.atPhase .go) (((phaseGo s).map completeCycle).map some) := by
  have hmap : (phaseGo s).map completeCycle = (phaseGo s).bind fun u => .ok (completeCycle u) := by
    cases phaseGo s <;> rfl
  rw [hmap]
  exact endsWithin_of_write (f := startPoll) rfl fun u _ => endsWithin_startPoll u

/-- Step 2 (R153), and the rest. -/
theorem endsWithin_dbc (s : State) : EndsWithin (pollMax + 6) (s.atPhase .dbc)
    (((phaseDbc s).bind fun u => (phaseGo u).map completeCycle).map some) :=
  endsWithin_of_write (f := fun u => u.atPhase .go) rfl fun u _ => endsWithin_go u

/-- Step 1 (R152), and the rest; an Erase cycle passes over step 2. -/
theorem endsWithin_addr (s : State) :
    EndsWithin (pollMax + 7) (s.atPhase .addr) (((issueCycle s).map completeCycle).map some) := by
  have hissue : (issueCycle s).map completeCycle = (phaseAddr s).bind fun u =>
      if u.eng.cmd.kind = .erase then (phaseGo u).map completeCycle
      else (phaseDbc u).bind fun v => (phaseGo v).map completeCycle := by
    unfold issueCycle
    cases phaseAddr s with
    | error f => rfl
    | ok u =>
      simp only [Except.bind]
      by_cases hk : u.eng.cmd.kind = .erase
      · rw [if_pos hk, if_pos hk]
      · rw [if_neg hk, if_neg hk]
        cases phaseDbc u <;> rfl
  rw [hissue]
  refine endsWithin_of_write (f := fun u => u.atPhase (if u.eng.cmd.kind = .erase then .go else .dbc)) rfl fun u _ => ?_
  split
  · exact (endsWithin_go u).mono (by omega)
  · exact endsWithin_dbc u

/-! ### The session check -/

/-- The cycle behind the session check (R151). -/
def behindCheck (s : State) : Except Fault (Option OpError × State) :=
  if s.eng.session = .fatal then .ok (some .hardwareSequencingDisabled, s.atPhase .idle)
  else (issueCycle s).map completeCycle

theorem executeCycle_eq_behindCheck (c : CycleCommand) (s : State) :
    executeCycle c s = behindCheck (sessionCheck (latchCommand c s)) := rfl

theorem endsWithin_check (s : State) :
    EndsWithin (pollMax + 8) (s.atPhase .check) ((behindCheck (phaseCheck s)).map some) := by
  have hstep : phaseStep (s.atPhase .check) =
      if (phaseCheck s).eng.session = .fatal then
        .ok (.ends (some .hardwareSequencingDisabled) ((phaseCheck s).atPhase .idle))
      else .ok (.goesOn ((phaseCheck s).atPhase .addr)) := rfl
  unfold behindCheck
  split
  · next h => exact (endsWithin_of_ends (hstep.trans (if_pos h))).mono (by omega)
  · next h => exact endsWithin_of_goesOn (hstep.trans (if_neg h)) (endsWithin_addr _)

/-- The whole table from `IDLE`, by the session latch (R28, R151). -/
theorem endsWithin_idle (s : State) :
    EndsWithin maxPhases (s.atPhase .idle) ((behindCheck (sessionCheck s)).map some) := by
  cases hsession : s.eng.session with
  | unchecked =>
    have hstep : phaseStep (s.atPhase .idle) = .ok (.goesOn (s.atPhase .check)) := by
      simp only [phaseStep, atPhase_eng, hsession]
      rfl
    rw [show sessionCheck s = phaseCheck s from if_pos hsession]
    exact endsWithin_of_goesOn hstep (endsWithin_check s)
  | enabled =>
    have hstep : phaseStep (s.atPhase .idle) = .ok (.goesOn (s.atPhase .addr)) := by
      simp only [phaseStep, atPhase_eng, hsession]
      rfl
    rw [show sessionCheck s = s from if_neg (by simp [hsession]), behindCheck, if_neg (by simp [hsession])]
    exact (endsWithin_of_goesOn hstep (endsWithin_addr s)).mono (by decide)
  | fatal =>
    have hstep : phaseStep (s.atPhase .idle) = .ok (.ends (some .hardwareSequencingDisabled) (s.atPhase .idle)) := by
      simp only [phaseStep, atPhase_eng, hsession]
    rw [show sessionCheck s = s from if_neg (by simp [hsession]), behindCheck, if_pos hsession]
    exact (endsWithin_of_ends hstep).mono (by decide)

end

/-- Settles O30: the table from `IDLE` comes to its end within `maxPhases` phases (`endsWithin_idle`). -/
theorem phaseTableIsAlgorithm : Obligations.PhaseTableIsAlgorithm := by
  intro c s
  rw [executeCycle_eq_behindCheck]
  exact endsWithin_idle (latchCommand c s) maxPhases (Nat.le_refl _)

end Sys2Proof.Proofs
end

section
/-! PROOFS. 41_chunked_transfer.md sections 1 and 2 (R184, R189): what a faithful `READ` delivers, and what a faithful `WRITE`
stores and leaves alone. -/

namespace Sys2Proof.Proofs

open Sys2Proof.Machine Sys2Proof.Laws

/-- Settles O32: the transfer's bursts deliver what `Delivered` says. -/
theorem readDeliversFlash : Obligations.ReadDeliversFlash := fun _ _ _ hcfg hready hdraws =>
  exec_read_faithful hcfg hready hdraws

/-! ### The flash bytes outside the payload -/

/-- The bursts of a write so far have changed no flash byte outside the payload's run. -/
structure OutsideKept (address : Word) (bytes : List Byte) (s u : State) : Prop where
  idle : u.ctl.inflight = none
  flashWf : u.env.flash.wf = true
  outside : ∀ x, (∀ j < bytes.length, x ≠ flashAddr (address.setWidth 27) j) → u.env.flash.get x = s.env.flash.get x

section
variable {x : Transfer} {address : Word} {bytes : List Byte} (hx : x = writeTransfer address bytes) {s u : State}
  (hcfg : s.cfg.wellFormed = true) {i : Nat} (hi : i < x.cycles) (h : x.AtBurst s i u) (hd : Faithful u.cycleDraw)
include hx hcfg hi h hd

/-- A burst stores inside the run of the payload only (R182, R189). -/
theorem writeLeft_outside (hq : OutsideKept address bytes s u) : OutsideKept address bytes s (writeLeft x i u) := by
  have hflash := writeLeft_flash hx hcfg hi h hd hq.idle
  have hpd : Faithful (packed (x.size i) u).cycleDraw := by rw [packed_cycleDraw]; exact hd
  have hlt : i * 4 < bytes.length := by subst hx; exact Transfer.lt_length (by decide : 0 < writeBurst) hi
  have hsize : x.size i = min 4 (bytes.length - i * 4) := by rw [hx]; rfl
  have hfits : x.size i ≤ flashSize := by rw [hsize]; exact (Nat.min_le_left ..).trans (by decide)
  obtain ⟨-, hold⟩ := get_putRun ((burstAddress address writeBurst i).setWidth 27)
    (windowByte (packed (x.size i) u).ctl.window) hq.flashWf hfits
  refine ⟨?idle, ?wf, fun a ha => ?outside⟩
  case idle =>
    rw [writeLeft, burstLeft_of_success hpd.outcome]
    exact ran_inflight hpd.inTime _
  case wf =>
    rw [hflash]
    exact wf_putRun _ _ hq.flashWf _
  case outside =>
    rw [hflash, hold a fun o ho hmeet => ?meet, hq.outside a ha]
    case meet => exact ha (i * 4 + o) (by omega) (hmeet.trans (flashAddr_burst address writeBurst i o))

end

theorem exec_write_outside {address : Word} {bytes : List Byte} {s : State} (hcfg : s.cfg.wellFormed = true)
    (hready : Ready s) (hwf : s.env.flash.wf = true)
    (hdraws : NextDraws CycleDraw.faithful (writeTransfer address bytes).cycles s) :
    ∃ t, exec (.write address bytes) s = .next t ∧ OutsideKept address bytes s t := by
  obtain ⟨t, hrun, -, hq⟩ := exec_write_transfer (address := address) (bytes := bytes)
    (Q := fun _ => OutsideKept address bytes s) rfl hcfg hready (fun i hi => settles_of_faithful hdraws i (by omega))
    (fun u hctl henv => ⟨by rw [hctl, hready.1], by rw [henv, hwf], fun a _ => by rw [henv]⟩)
    fun i u hi h _ hq => writeLeft_outside rfl hcfg hi h (h.faithful hdraws hi) hq
  exact ⟨_, hrun, hq.idle, hq.flashWf, hq.outside⟩

/-- Settles O36: the payload by `exec_write_faithful`, the other bytes of flash by `exec_write_outside`, and the slots by the
frame of an operation that writes (`writingLeavesWindow`). -/
theorem writeStoresBytes : Obligations.WriteStoresBytes := by
  intro address bytes s hcfg hready hwf hfits hdraws
  obtain ⟨t, hrun, hresult, hstored, -, hreadyt, -⟩ := exec_write_faithful hcfg hready hwf hfits hdraws
  obtain ⟨u, hrun', houtside⟩ := exec_write_outside hcfg hready hwf hdraws
  obtain rfl := Host.Outcome.next.inj (hrun.symm.trans hrun')
  obtain ⟨-, hslots⟩ := writingLeavesWindow _ s t hcfg hready.1 hrun
  exact ⟨t, hrun, hresult, hstored, houtside.outside, hslots ⟨address, bytes, rfl⟩, hreadyt.1⟩

end Sys2Proof.Proofs
end

section
/-! PROOFS. 42_identity_sfdp.md section 2, the walk of `DISCOVER_SFDP` through its Sfdp cycle (R222 to R228): the indexed reads
before it leave the engine ready, the cycle fills the window, and the headers are read from the slots it filled. -/

namespace Sys2Proof.Proofs

open Sys2Proof.Machine Sys2Proof.Laws

/-! ### Up to the cycle -/

section
variable {s t : State} {is : List Word}

/-- Indexed reads leave the engine ready for a cycle, and its draws. -/
theorem IndexReads.ready (h : IndexReads s is t) (hready : Ready s) : Ready t := by
  obtain ⟨hidle, hfatal, hvalid⟩ := hready
  refine ⟨by rw [h.ctl]; exact hidle, by rwa [h.session], fun hsession => ?_⟩
  have hsts : t.regValue .sts = s.regValue .sts := by simp only [State.regValue, h.ctl, h.cfg]
  rw [hsts, h.cfg]
  exact hvalid (h.session ▸ hsession)

theorem IndexReads.cycleDraw_eq (h : IndexReads s is t) : t.cycleDraw = s.cycleDraw := by
  rw [State.cycleDraw, h.env, State.cycleDraw]

end

/-- The Sfdp cycle of the walk (R223). -/
def sfdpCommand (cfg : Config) : CycleCommand := ⟨.sfdp, cfg.sfdpCycleFla, dbcOf cfg.sfdpCycleCount⟩

section
variable {nph : Nat} {u : State} (hcfg : u.cfg.wellFormed = true) (hready : Ready u) (hmany : 2 ≤ nph)
  (hfield : u.cfg.hasCycleTypeField = true) (first : SfdpParameterHeader)
include hcfg hready hmany hfield

/-- An error of the cycle is the error of the headers (R223, R228). -/
theorem allHeaders_of_failure {e : OpError} (hout : u.cycleDraw.outcome = some e) :
    allHeaders nph first u = .ok (.error e, ran (sfdpCommand u.cfg) u) := by
  have hcycle := executeCycle_ran hcfg (.inr hready) (sfdpCommand u.cfg)
  rw [hout] at hcycle
  rw [allHeaders, if_pos ⟨hmany, hfield⟩]
  exact congrArg (Except.map _) hcycle

/-- Behind a cycle that succeeded the further headers are read (R224). -/
theorem allHeaders_of_success (hout : u.cycleDraw.outcome = none) :
    allHeaders nph first u = .ok (readHeaders (nph - 1) 1 [first] (ran (sfdpCommand u.cfg) u)) := by
  have hcycle := executeCycle_ran hcfg (.inr hready) (sfdpCommand u.cfg)
  rw [hout] at hcycle
  rw [allHeaders, if_pos ⟨hmany, hfield⟩]
  exact congrArg (Except.map _) hcycle

end

/-! ### The cycle -/

section
variable {u : State} (hidle : u.ctl.inflight = none) (c : CycleCommand)
include hidle

/-- A cycle writes no index (R31). -/
theorem ran_ptidx : (ran c u).ctl.ptidx = u.ctl.ptidx := by
  unfold ran
  split <;> rw [checked_eq hidle] <;> rfl

/-- The accesses of a cycle: the check's sample, steps 1 to 3, steps 4 and 5 (R151 to R158). -/
theorem ran_trace : (ran c u).host.trace =
    u.host.trace ++ (checkTrace u ++ issueTrace u.cfg c.kind c.fla c.dbc ++ pollTrace u u.cycleDraw) := by
  have hchecked : (checked c u).host.trace = u.host.trace ++ checkTrace u := by simp [checked]
  have hpoll : pollTrace (checked c u) (checked c u).cycleDraw = pollTrace u u.cycleDraw := by rw [checked_eq hidle]; rfl
  have hcfg : (checked c u).cfg = u.cfg := settled_cfg u
  have htrace : (ran c u).host.trace = (checked c u).host.trace ++
      (issueTrace (checked c u).cfg c.kind c.fla c.dbc ++ pollTrace (checked c u) (checked c u).cycleDraw) := by
    unfold ran
    split <;> rfl
  rw [htrace, hchecked, hpoll, hcfg, List.append_assoc, List.append_assoc]

theorem ran_sfdpIndex : (ran c u).env.sfdpIndex = u.env.sfdpIndex := by
  unfold ran
  split <;> rw [checked_eq hidle] <;> rfl

end

/-! ### Reading the slots -/

/-- From `s` to `t` the engine has made the window reads `es`, and nothing else has changed but the header index. -/
structure WindowReads (s : State) (es : List Event) (t : State) : Prop where
  cfg : t.cfg = s.cfg
  env : t.env = s.env
  ctl : t.ctl = s.ctl
  trace : t.host.trace = s.host.trace ++ es

/-- Slots `2 + 2h` and `3 + 2h` (R224). -/
def headerDwords (w : Vector Word 16) (h : Nat) : Word × Word :=
  (w.get (Fin.ofNat 16 (2 + 2 * h)), w.get (Fin.ofNat 16 (3 + 2 * h)))

/-- Header `h` from its two slots (R225), and the two reads. -/
def slotHeader (l : SfdpPhLayout) (w : Vector Word 16) (h : Nat) : SfdpParameterHeader :=
  pairHeader l (headerDwords w h).1 (headerDwords w h).2

@[inherit_doc slotHeader] def slotReads (w : Vector Word 16) (h : Nat) : List Event :=
  [.read (.data (Fin.ofNat 16 (2 + 2 * h))) (headerDwords w h).1,
    .read (.data (Fin.ofNat 16 (3 + 2 * h))) (headerDwords w h).2]

/-- The state behind the two reads of header `h`. -/
def afterHeader (h : Nat) (s : State) : State :=
  (regRead (.data (Fin.ofNat 16 (3 + 2 * h)))
    (regRead (.data (Fin.ofNat 16 (2 + 2 * h))) (s.modEng fun e => { e with header := h })).2).2

theorem afterHeader_reads (h : Nat) (s : State) : WindowReads s (slotReads s.ctl.window h) (afterHeader h s) :=
  ⟨rfl, rfl, rfl, List.append_assoc ..⟩

/-- The default placement of the headers in the window (R224). -/
structure DefaultSlots (l : SfdpPhLayout) : Prop where
  base : l.slotBase = 2
  stride : l.slotStride = 2

section
variable {s : State} {h count : Nat} (hslots : DefaultSlots s.cfg.sfdpPh) (acc : List SfdpParameterHeader)
include hslots

theorem headerSlot_eq : headerSlot s.cfg.sfdpPh h = 2 + 2 * h := by
  rw [headerSlot, hslots.base, hslots.stride]

/-- Header 7 would need slots beyond the window (R224, R345). -/
theorem readHeaders_beyond (hh : 7 ≤ h) : readHeaders (count + 1) h acc s =
    (.error .dataWindowExhausted, s.modEng fun e => { e with header := h }) := by
  simp only [readHeaders, headerSlot_eq hslots, windowSlots]
  exact if_pos (by omega)

theorem readHeaders_within (hh : h < 7) : readHeaders (count + 1) h acc s =
    readHeaders count (h + 1) (acc ++ [slotHeader s.cfg.sfdpPh s.ctl.window h]) (afterHeader h s) := by
  have hslot : 2 + 2 * h + 1 = 3 + 2 * h := by omega
  simp only [readHeaders, headerSlot_eq hslots, windowSlots, hslot]
  exact if_neg (by omega)

end

/-- The headers that fit the window (R224, R225). -/
theorem readHeaders_eq : ∀ (count h : Nat) (acc : List SfdpParameterHeader) (s : State), DefaultSlots s.cfg.sfdpPh →
    h + count ≤ 7 → ∃ t,
      readHeaders count h acc s = (.ok (acc ++ (List.range' h count).map (slotHeader s.cfg.sfdpPh s.ctl.window)), t) ∧
        WindowReads s ((List.range' h count).flatMap (slotReads s.ctl.window)) t
  | 0, _, acc, s, _, _ => ⟨s, by simp [readHeaders], rfl, rfl, rfl, (List.append_nil _).symm⟩
  | count + 1, h, acc, s, hslots, hfits => by
    have hone := afterHeader_reads h s
    obtain ⟨t, heq, hrest⟩ := readHeaders_eq count (h + 1) (acc ++ [slotHeader s.cfg.sfdpPh s.ctl.window h])
      (afterHeader h s) (hone.cfg ▸ hslots) (by omega)
    rw [hone.cfg, hone.ctl] at heq
    rw [hone.ctl] at hrest
    refine ⟨t, ?_, hrest.cfg.trans hone.cfg, hrest.env.trans hone.env, hrest.ctl.trans hone.ctl, ?_⟩
    · rw [readHeaders_within hslots acc (by omega), heq, List.range'_succ, List.map_cons, List.append_assoc]
      rfl
    · rw [hrest.trace, hone.trace, List.range'_succ, List.flatMap_cons, List.append_assoc]

/-- Headers that do not fit end the walk, and leave the controller as it is (R224, R228). -/
theorem readHeaders_exhausted : ∀ (count h : Nat) (acc : List SfdpParameterHeader) (s : State),
    DefaultSlots s.cfg.sfdpPh → 8 ≤ h + count → 0 < count → ∃ t,
      readHeaders count h acc s = (.error .dataWindowExhausted, t) ∧ t.ctl = s.ctl
  | 0, _, _, _, _, _, hpos => absurd hpos (Nat.lt_irrefl 0)
  | count + 1, h, acc, s, hslots, hmany, _ => by
    by_cases hh : h < 7
    · have hone := afterHeader_reads h s
      obtain ⟨t, heq, hctl⟩ := readHeaders_exhausted count (h + 1) (acc ++ [slotHeader s.cfg.sfdpPh s.ctl.window h])
        (afterHeader h s) (hone.cfg ▸ hslots) (by omega) (by omega)
      exact ⟨t, (readHeaders_within hslots acc hh).trans heq, hctl.trans hone.ctl⟩
    · exact ⟨_, readHeaders_beyond hslots acc (not_lt.mp hh), rfl⟩

/-! ### A walk that ends with an error -/

/-- A cycle without an error has ended in time (R157). -/
theorem inTime_of_success {d : CycleDraw} (h : d.outcome = none) : d.inTime = true := by
  by_contra hlate
  rw [CycleDraw.outcome, if_neg hlate] at h
  cases h

/-- An error of a component ends the walk with it, and nothing gathered is returned (R228). -/
theorem discoverFrom_of_error {c : Nat} {s t : State} {e : OpError} (h : discoverComponent c s = .ok (.error e, t))
    (count : Nat) (out : List (Nat × Option SfdpComponent)) : discoverFrom (count + 1) c out s = .ok (.error e, t) := by
  simp only [discoverFrom, h]

/-- A component whose headers end with an error (R228). -/
theorem discoverComponent_of_error {c : Nat} {s u t : State} {e : OpError}
    (hcomponent : discoverComponent c s = (allHeaders (sfdpHeaders s c) (sfdpFirst s c) u).map
      (finishComponent (sfdpBase c) (sfdpWord s c 4) (sfdpHeaders s c) (sfdpFirst s c).lengthDwords))
    (hheaders : allHeaders (sfdpHeaders s c) (sfdpFirst s c) u = .ok (.error e, t)) :
    discoverComponent c s = .ok (.error e, t) := by
  rw [hcomponent, hheaders]
  rfl

/-- The walk up to the further headers of component `c`: an error of those is the operation's (R217, R228). -/
theorem exec_discoverSfdp_of_error {c : Nat} {s : State} (hreaches : SfdpReaches s c) (hfound : SfdpFound s c) :
    ∃ u, IndexReads (beginOp s) (sfdpReadsBefore s c ++ sfdpHeadReads c) u ∧
      ∀ e t, allHeaders (sfdpHeaders s c) (sfdpFirst s c) u = .ok (.error e, t) →
        exec .discoverSfdp s = .next (takeError e t) := by
  have hc : c < numSfdpComponents := by rcases hreaches with rfl | ⟨rfl, -⟩ <;> decide
  obtain ⟨count, out, v, hwalk, hv⟩ := discoverFrom_reaches hreaches
  obtain ⟨hfound', hheaders, -, -⟩ := sfdp_congr (s := s) (t := v) hv.env hv.cfg c
  have hfirst : sfdpFirst v c = sfdpFirst s c := by rw [sfdpFirst, hv.cfg, hv.sfdpWord_eq]; rfl
  obtain ⟨u, hu, hcomponent⟩ := discoverComponent_found hc (hfound'.mpr hfound)
  refine ⟨u, hv.trans hu, fun e t herror => ?_⟩
  have hstopped := discoverComponent_of_error hcomponent (by rw [hheaders, hfirst]; exact herror)
  show finish (discoverFrom numSfdpComponents 0 [] (beginOp s)) = _
  rw [hwalk, discoverFrom_of_error hstopped]
  rfl

/-- Settles O47: a failed cycle and a header that does not fit each leave the index register at the first header's index. -/
theorem sfdpErrorsEndWalk : Obligations.SfdpErrorsEndWalk := by
  intro c s hcfg hfield hready hreaches hfound
  obtain ⟨u, hu, hexec⟩ := exec_discoverSfdp_of_error hreaches hfound
  have hreadyu : Ready u := hu.ready hready
  have hdraw : u.cycleDraw = s.cycleDraw := hu.cycleDraw_eq
  have hcfgu : u.cfg = s.cfg := hu.cfg
  have hptidx : (ran (sfdpCommand u.cfg) u).ctl.ptidx = sfdpIndexOf c 0x1000 := by
    rw [ran_ptidx hreadyu.1, hu.ctl]
    simp [sfdpHeadReads, List.getLastD_eq_getLast?]
  refine ⟨fun e hmany hout => ?failed, fun hmany hout hbase hstride => ?exhausted⟩
  case failed =>
    rw [← hdraw] at hout
    have herror := allHeaders_of_failure (hcfgu ▸ hcfg) hreadyu hmany (hcfgu ▸ hfield) (sfdpFirst s c) hout
    exact ⟨_, hexec _ _ herror, rfl, hptidx⟩
  case exhausted =>
    rw [← hdraw] at hout
    have hslots : DefaultSlots (ran (sfdpCommand u.cfg) u).cfg.sfdpPh := by
      rw [ran_cfg, hcfgu]
      exact ⟨hbase, hstride⟩
    have hin : u.cycleDraw.inTime = true := inTime_of_success hout
    obtain ⟨t, heq, hctl⟩ := readHeaders_exhausted (sfdpHeaders s c - 1) 1 [sfdpFirst s c] (ran (sfdpCommand u.cfg) u)
      hslots (by omega) (by omega)
    have hheaders := allHeaders_of_success (hcfgu ▸ hcfg) hreadyu (by omega : 2 ≤ sfdpHeaders s c) (hcfgu ▸ hfield)
      (sfdpFirst s c) hout
    rw [heq] at hheaders
    refine ⟨_, hexec _ _ hheaders, rfl, ?_⟩
    rw [takeError, deliver_ctl, hctl]
    exact ⟨hptidx, ran_inflight hin _⟩

/-! ### A walk that goes on behind its cycle -/

/-- From `s`, with no cycle in flight, to `t` the engine has made the accesses `es`; the index space, flash and the
configuration are as they were, and no cycle is in flight again. -/
structure WalkStep (s : State) (es : List Event) (t : State) : Prop where
  cfg : t.cfg = s.cfg
  sfdpIndex : t.env.sfdpIndex = s.env.sfdpIndex
  flash : t.env.flash = s.env.flash
  idle : t.ctl.inflight = none
  trace : t.host.trace = s.host.trace ++ es

section
variable {s t u : State} {es fs : List Event}

theorem WalkStep.trans (h : WalkStep s es t) (h' : WalkStep t fs u) : WalkStep s (es ++ fs) u :=
  ⟨h'.cfg.trans h.cfg, h'.sfdpIndex.trans h.sfdpIndex, h'.flash.trans h.flash, h'.idle, by
    rw [h'.trace, h.trace, List.append_assoc]⟩

theorem IndexReads.walkStep {is : List Word} (h : IndexReads s is t) (hidle : s.ctl.inflight = none) :
    WalkStep s (ptReads s is) t :=
  ⟨h.cfg, congrArg Environment.sfdpIndex h.env, congrArg Environment.flash h.env, by rw [h.ctl]; exact hidle, h.trace⟩

theorem WindowReads.walkStep (h : WindowReads s es t) (hidle : s.ctl.inflight = none) : WalkStep s es t :=
  ⟨h.cfg, congrArg Environment.sfdpIndex h.env, congrArg Environment.flash h.env, by rw [h.ctl]; exact hidle, h.trace⟩

end

/-- What the walk says of component `c` is the same in `t` as in `s`. -/
structure SameComponent (s t : State) (c : Nat) : Prop where
  found : SfdpFound t c ↔ SfdpFound s c
  headers : sfdpHeaders t c = sfdpHeaders s c
  entry : sfdpEntry t c = sfdpEntry s c
  record : sfdpRecord t c = sfdpRecord s c
  reads : sfdpReads t c = sfdpReads s c
  tableReads : sfdpTableReads t c = sfdpTableReads s c
  ptReads : ptReads t = ptReads s

/-- It depends on the index space and the configuration alone. -/
theorem sameComponent {s t : State} (hindex : t.env.sfdpIndex = s.env.sfdpIndex) (hcfg : t.cfg = s.cfg) (c : Nat) :
    SameComponent s t c := by
  obtain ⟨_, _, _, ⟨_, _, _, _, _, _, _, _⟩, _⟩ := s
  obtain ⟨_, _, _, ⟨_, _, _, _, _, _, _, _⟩, _⟩ := t
  subst hindex hcfg
  exact ⟨Iff.rfl, rfl, rfl, rfl, rfl, rfl, rfl⟩

/-- The record behind a cycle, which has changed the environment but not the index space (R226, R227). -/
theorem finishComponent_behind_cycle {c : Nat} (hc : c < numSfdpComponents) {s u : State} (hcfg : u.cfg = s.cfg)
    (hindex : u.env.sfdpIndex = s.env.sfdpIndex) (further : List SfdpParameterHeader) : ∃ t,
      finishComponent (sfdpBase c) (sfdpWord s c 4) (sfdpHeaders s c) (sfdpFirst s c).lengthDwords
          (.ok (sfdpFirst s c :: further), u) = (.ok (some (sfdpRecord s c further)), t) ∧
        IndexReads u (sfdpTableReads s c) t := by
  obtain ⟨_, _, _, ⟨_, _, _, _, _, _, _, _⟩, _⟩ := s
  subst hindex hcfg
  exact finishComponent_ok (s := u) hc rfl further

/-- The two dwords of header `h` in the SFDP area that the cycle drawn next returns (R48, R224). -/
def areaDwords (s : State) (h : Nat) : Word × Word :=
  ((s.sfdpArea s.cycleDraw.secondComponent).dword (8 + 8 * h), (s.sfdpArea s.cycleDraw.secondComponent).dword (12 + 8 * h))

/-- The further headers of a component that reports `n` (R225). -/
def areaHeaders (s : State) (n : Nat) : List SfdpParameterHeader :=
  (List.range' 1 (n - 1)).map fun h => pairHeader s.cfg.sfdpPh (areaDwords s h).1 (areaDwords s h).2

/-- The accesses of the Sfdp cycle (R160, R223). -/
def sfdpCycleTrace (s : State) : List Event :=
  checkTrace s ++ issueTrace s.cfg .sfdp 0 63 ++ pollTrace s s.cycleDraw

/-- The reads of the slots behind it (R224). -/
def areaReads (s : State) (n : Nat) : List Event :=
  (List.range' 1 (n - 1)).flatMap fun h =>
    [.read (.data (Fin.ofNat 16 (2 + 2 * h))) (areaDwords s h).1, .read (.data (Fin.ofNat 16 (3 + 2 * h))) (areaDwords s h).2]

/-- Indexed reads change none of them. -/
theorem IndexReads.area_eq {s t : State} {is : List Word} (h : IndexReads s is t) (n : Nat) :
    areaHeaders t n = areaHeaders s n ∧ areaReads t n = areaReads s n ∧ sfdpCycleTrace t = sfdpCycleTrace s := by
  have hdwords : areaDwords t = areaDwords s := by
    funext k
    simp only [areaDwords, State.sfdpArea, h.cycleDraw_eq, h.env]
  have hcheck : checkTrace t = checkTrace s := by simp only [checkTrace, State.regValue, h.session, h.ctl, h.cfg]
  have hpoll : pollTrace t t.cycleDraw = pollTrace s s.cycleDraw := by
    simp only [pollTrace, busySample, idleSample, clearedSample, h.cycleDraw_eq, h.ctl, h.cfg]
  refine ⟨?_, ?_, ?_⟩
  · rw [areaHeaders, hdwords, h.cfg, areaHeaders]
  · rw [areaReads, hdwords, areaReads]
  · rw [sfdpCycleTrace, hcheck, hpoll, h.cfg, sfdpCycleTrace]

/-- What O46 asks of the configuration and the draw. -/
structure SfdpSetup (s : State) : Prop where
  wellFormed : s.cfg.wellFormed = true
  field : s.cfg.hasCycleTypeField = true
  fla : s.cfg.sfdpCycleFla = 0
  count : s.cfg.sfdpCycleCount = 64
  slots : DefaultSlots s.cfg.sfdpPh
  ready : Ready s
  draw : Faithful s.cycleDraw

theorem IndexReads.setup {s t : State} {is : List Word} (h : IndexReads s is t) (hs : SfdpSetup s) : SfdpSetup t :=
  ⟨h.cfg ▸ hs.wellFormed, h.cfg ▸ hs.field, h.cfg ▸ hs.fla, h.cfg ▸ hs.count, h.cfg ▸ hs.slots, h.ready hs.ready,
    h.cycleDraw_eq ▸ hs.draw⟩

section
variable {s : State} (hs : SfdpSetup s)
include hs

theorem sfdpCommand_eq : sfdpCommand s.cfg = ⟨.sfdp, 0, 63⟩ := by
  rw [sfdpCommand, hs.fla, hs.count]
  rfl

theorem latched_sfdp_kind : (latched ⟨.sfdp, 0, 63⟩ s).kind = some .sfdp :=
  latched_kind_of_admitted (c := ⟨.sfdp, 0, 63⟩) hs.wellFormed hs.field

/-- Behind the cycle slot `i` holds the four bytes from `4i` on of the area (R48, R168). -/
theorem ran_sfdp_slot {i : Nat} (hi : i < 16) :
    (ran ⟨.sfdp, 0, 63⟩ s).ctl.window.get (Fin.ofNat 16 i) = (s.sfdpArea s.cycleDraw.secondComponent).dword (4 * i) := by
  have hbyte (j : Nat) (hj : j < 64) : windowByte (ran ⟨.sfdp, 0, 63⟩ s).ctl.window j =
      (s.sfdpArea s.cycleDraw.secondComponent).get j := by
    have hcount : (latched ⟨.sfdp, 0, 63⟩ s).count = 64 := latched_count hs.wellFormed (by decide) (by decide)
    rw [ran_window hs.ready.1 hs.draw.inTime,
      windowAfter_sfdp (latched_sfdp_kind hs) hs.draw.effect (hcount ▸ hj) hj]
    exact congrArg _ (Nat.zero_add j)
  have hval : (Fin.ofNat 16 i).val = i := Nat.mod_eq_of_lt hi
  rw [slot_eq_bytes, hval, hbyte _ (by omega), hbyte _ (by omega), hbyte _ (by omega), hbyte _ (by omega), Memory.dword]

theorem headerDwords_ran {h : Nat} (hh : h < 7) : headerDwords (ran ⟨.sfdp, 0, 63⟩ s).ctl.window h = areaDwords s h := by
  rw [headerDwords, ran_sfdp_slot hs (by omega), ran_sfdp_slot hs (by omega), areaDwords,
    show 4 * (2 + 2 * h) = 8 + 8 * h by omega, show 4 * (3 + 2 * h) = 12 + 8 * h by omega]

/-- The cycle as a step of the walk. -/
theorem walkStep_cycle : WalkStep s (sfdpCycleTrace s) (ran ⟨.sfdp, 0, 63⟩ s) where
  cfg := ran_cfg _ s
  sfdpIndex := ran_sfdpIndex hs.ready.1 _
  flash := (ran_flash hs.ready.1 hs.draw.inTime _).trans (flashAfter_reading (.inr (.inr (latched_sfdp_kind hs))))
  idle := ran_inflight hs.draw.inTime _
  trace := ran_trace hs.ready.1 _

/-- The further headers of a component that reports 2 to 7 (R222 to R225). -/
theorem allHeaders_of_setup {n : Nat} (h2 : 2 ≤ n) (h7 : n ≤ 7) (first : SfdpParameterHeader) : ∃ t,
    allHeaders n first s = .ok (.ok (first :: areaHeaders s n), t) ∧ WalkStep s (sfdpCycleTrace s ++ areaReads s n) t := by
  have hcycle := walkStep_cycle hs
  have hheaders := allHeaders_of_success hs.wellFormed hs.ready h2 hs.field first hs.draw.outcome
  rw [sfdpCommand_eq hs] at hheaders
  generalize hv : ran ⟨.sfdp, 0, 63⟩ s = v at hcycle hheaders
  have hdwords : ∀ h ∈ List.range' 1 (n - 1), headerDwords v.ctl.window h = areaDwords s h := fun h hmem => by
    rw [← hv, headerDwords_ran hs (by have := List.mem_range'_1.mp hmem; omega)]
  obtain ⟨t, heq, hreads⟩ := readHeaders_eq (n - 1) 1 [first] v (hcycle.cfg ▸ hs.slots) (by omega)
  have hheaders' : (List.range' 1 (n - 1)).map (slotHeader v.cfg.sfdpPh v.ctl.window) = areaHeaders s n :=
    List.map_congr_left fun h hmem => by rw [slotHeader, hdwords h hmem, hcycle.cfg]
  have hreads' : (List.range' 1 (n - 1)).flatMap (slotReads v.ctl.window) = areaReads s n :=
    List.flatMap_congr fun h hmem => by rw [slotReads, hdwords h hmem]
  rw [hheaders'] at heq
  rw [hreads'] at hreads
  exact ⟨t, hheaders.trans (congrArg Except.ok heq), hcycle.trans (hreads.walkStep hcycle.idle)⟩

/-- A component that needs the Sfdp cycle: indexed reads, the cycle, the slots, the table (R219 to R227). -/
theorem discoverComponent_of_cycle {c : Nat} (hc : c < numSfdpComponents) (hfound : SfdpFound s c)
    (h2 : 2 ≤ sfdpHeaders s c) (h7 : sfdpHeaders s c ≤ 7) : ∃ t,
    discoverComponent c s = .ok (.ok (some (sfdpRecord s c (areaHeaders s (sfdpHeaders s c)))), t) ∧
      WalkStep s (ptReads s (sfdpHeadReads c) ++ (sfdpCycleTrace s ++ areaReads s (sfdpHeaders s c)) ++
        ptReads s (sfdpTableReads s c)) t := by
  obtain ⟨u, hu, hcomponent⟩ := discoverComponent_found hc hfound
  obtain ⟨v, hheaders, hv⟩ := allHeaders_of_setup (hu.setup hs) h2 h7 (sfdpFirst s c)
  obtain ⟨harea, hareads, htrace⟩ := hu.area_eq (sfdpHeaders s c)
  rw [harea] at hheaders
  rw [hareads, htrace] at hv
  have hbefore := (hu.walkStep hs.ready.1).trans hv
  obtain ⟨t, hrecord, htable⟩ := finishComponent_behind_cycle hc hbefore.cfg hbefore.sfdpIndex
    (areaHeaders s (sfdpHeaders s c))
  have hafter := htable.walkStep hbefore.idle
  rw [(sameComponent hbefore.sfdpIndex hbefore.cfg c).ptReads] at hafter
  refine ⟨t, ?_, hbefore.trans hafter⟩
  rw [hcomponent, hheaders]
  exact congrArg Except.ok hrecord

end

/-! ### The whole walk -/

/-- The first component needs the cycle, the second none (R217). -/
theorem discover_cycle_first {s : State} (hs : SfdpSetup s) (hfound : SfdpFound s 0) (h2 : 2 ≤ sfdpHeaders s 0)
    (h7 : sfdpHeaders s 0 ≤ 7) (hother : SfdpFound s 1 → sfdpHeaders s 1 = 1) : ∃ t,
    discoverFrom numSfdpComponents 0 [] s = .ok (.ok (.sfdp
        [(0, some (sfdpRecord s 0 (areaHeaders s (sfdpHeaders s 0)))), (1, sfdpEntry s 1)]), t) ∧
      WalkStep s (ptReads s (sfdpHeadReads 0) ++ (sfdpCycleTrace s ++ areaReads s (sfdpHeaders s 0)) ++
        ptReads s (sfdpTableReads s 0) ++ ptReads s (sfdpReads s 1)) t := by
  obtain ⟨t, hfirst, ht⟩ := discoverComponent_of_cycle hs (by decide) hfound h2 h7
  have hsame := sameComponent ht.sfdpIndex ht.cfg 1
  obtain ⟨u, hsecond, hu⟩ := discoverComponent_of_no_cycle (c := 1) (s := t) (by decide)
    fun h => .inl (hsame.headers.trans (hother (hsame.found.mp h)))
  have hrest := hu.walkStep ht.idle
  rw [hsame.reads, hsame.ptReads] at hrest
  rw [hsame.entry] at hsecond
  exact ⟨u, (discoverFrom_of_ok hfirst 1 []).trans (discoverFrom_of_ok hsecond 0 _), ht.trans hrest⟩

/-- The second component needs the cycle, the first none. -/
theorem discover_cycle_second {s : State} (hs : SfdpSetup s) (hfound : SfdpFound s 1) (h2 : 2 ≤ sfdpHeaders s 1)
    (h7 : sfdpHeaders s 1 ≤ 7) (hother : SfdpFound s 0 → sfdpHeaders s 0 = 1) : ∃ t,
    discoverFrom numSfdpComponents 0 [] s = .ok (.ok (.sfdp
        [(0, sfdpEntry s 0), (1, some (sfdpRecord s 1 (areaHeaders s (sfdpHeaders s 1))))]), t) ∧
      WalkStep s (ptReads s (sfdpReads s 0) ++ (ptReads s (sfdpHeadReads 1) ++
        (sfdpCycleTrace s ++ areaReads s (sfdpHeaders s 1)) ++ ptReads s (sfdpTableReads s 1))) t := by
  obtain ⟨t, hfirst, ht⟩ := discoverComponent_of_no_cycle (c := 0) (s := s) (by decide) fun h => .inl (hother h)
  have hbefore := ht.walkStep hs.ready.1
  have hsame := sameComponent hbefore.sfdpIndex hbefore.cfg 1
  obtain ⟨harea, hareads, htrace⟩ := ht.area_eq (sfdpHeaders s 1)
  obtain ⟨u, hsecond, hu⟩ := discoverComponent_of_cycle (ht.setup hs) (c := 1) (by decide) (hsame.found.mpr hfound)
    (hsame.headers ▸ h2) (hsame.headers ▸ h7)
  rw [hsame.headers, hsame.record, harea] at hsecond
  rw [hsame.headers, hsame.ptReads, hsame.tableReads, hareads, htrace] at hu
  exact ⟨u, (discoverFrom_of_ok hfirst 1 []).trans (discoverFrom_of_ok hsecond 0 _), hbefore.trans hu⟩

/-- Settles O46, by the component that needs the cycle. -/
theorem sfdpFurtherHeaders : Obligations.SfdpFurtherHeaders := by
  intro c s area n l d1 d2 further entry hcfg hfield hfla hcount hbase hstride hready hdraw hc hfound h2 h7 hother
  have hs : SfdpSetup (beginOp s) := ⟨hcfg, hfield, hfla, hcount, ⟨hbase, hstride⟩, hready, faithful_of_draw hdraw⟩
  have hcases : c = 0 ∨ c = 1 := by omega
  rcases hcases with rfl | rfl
  · obtain ⟨t, hwalk, ht⟩ := discover_cycle_first hs hfound h2 h7 hother
    have htrace : t.host.trace = ptReads s ([] ++ sfdpHeadReads 0) ++ sfdpCycleTrace s ++ areaReads s (sfdpHeaders s 0) ++
        ptReads s (sfdpTableReads s 0 ++ sfdpReads s 1) := by
      simp only [ptReads_append, List.nil_append, List.append_assoc]
      exact ht.trace.trans (by simp only [List.append_assoc]; rfl)
    exact ⟨_, congrArg finish hwalk, rfl, htrace, ht.flash, ht.idle⟩
  · obtain ⟨t, hwalk, ht⟩ := discover_cycle_second hs hfound h2 h7 hother
    have htrace : t.host.trace = ptReads s (sfdpReads s 0 ++ sfdpHeadReads 1) ++ sfdpCycleTrace s ++
        areaReads s (sfdpHeaders s 1) ++ ptReads s (sfdpTableReads s 1 ++ []) := by
      simp only [ptReads_append, List.append_nil, List.append_assoc]
      exact ht.trace.trans (by simp only [List.append_assoc]; rfl)
    exact ⟨_, congrArg finish hwalk, rfl, htrace, ht.flash, ht.idle⟩

end Sys2Proof.Proofs
end
